-- ==== Sys2Proof/Word.lean ====
section
/-! DEFINITION. The word types of the model: the widest integer register, a byte, a register specifier, a page
number, and the two register widths a hart may have. Nothing here is a choice a test could show wrong. -/

namespace Sys2Proof

/-- One byte of physical memory (R23: the address space is byte addressed). -/
abbrev Byte := BitVec 8

/-- A register-sized value. `XLEN` is an open parameter (00_scope.md section 4): on an RV32 hart only the low 32
bits are used and every register write clears the others (`Machine.wrapX`). -/
abbrev Word := BitVec 64

/-- A 5-bit integer-register specifier (R15). -/
abbrev RegIdx := BitVec 5

/-- A 44-bit physical page number (R10, R29: a 44-bit PPN and a 4 KiB page give a 56-bit address). -/
abbrev Ppn := BitVec 44

/-- The parameter `XLEN`: 32 or 64. -/
inductive Xlen where
  | rv32
  | rv64
  deriving DecidableEq, Repr

end Sys2Proof
end

