-- ==== Sys2Proof/Config.lean ====
section
/-! DEFINITION. What one implementation fixes: every named parameter of 00_scope.md section 4, as plain data, so that
a claim about all states is a claim for every value of every parameter; and the one source of free values. -/

namespace Sys2Proof

/-- The two families of MTT modes (R2). -/
inductive Family where
  | rw
  | oneBit
  deriving DecidableEq, Repr

/-- The values of `mttp.MODE` (R2, R8). -/
inductive Mode where
  | bare
  | smmtt34rw
  | smmtt46rw
  | smmtt56rw
  | smmtt34
  | smmtt46
  | smmtt56
  deriving DecidableEq, Repr

/-- The family a mode selects (R2). `Bare` has none; the value given for it is never used. -/
def Mode.family : Mode → Family
  | .bare | .smmtt34rw | .smmtt46rw | .smmtt56rw => .rw
  | .smmtt34 | .smmtt46 | .smmtt56 => .oneBit

/-- The physical address width PAW of a mode (R2). `Bare` has none; the value given for it is never used. -/
def Mode.paw : Mode → Nat
  | .bare => 0
  | .smmtt34rw | .smmtt34 => 34
  | .smmtt46rw | .smmtt46 => 46
  | .smmtt56rw | .smmtt56 => 56

/-- The three fields of the CSR `mttp` (R7 to R10). The SDID is kept in a whole word; `Config.sdidWidth` bounds it. -/
structure Mttp where
  mode : Mode
  sdid : Word
  ppn  : Ppn
  deriving DecidableEq, Repr

/-- `MTT_ENDIAN`: byte order of an MTT entry in memory (R26; the spec's choice is little, D6). -/
inductive Endian where
  | little
  | big
  deriving DecidableEq, Repr

/-- `FETCH_PERM`: the permission a fetch needs in an rw mode (R59; the spec's choice is read, D13). -/
inductive FetchPerm where
  | read
  | write
  deriving DecidableEq, Repr

/-- `MBZ_POLICY`: what a check does on a non-zero must-be-zero field (R31; the spec's choice is refuse, D15). -/
inductive MbzPolicy where
  | refuse
  | violation
  | ignore
  deriving DecidableEq, Repr

/-- `PERM2M_10_POLICY`: the rw 2M_PAGES sub-field 10b (R38; the spec's choice is violation, D16). -/
inductive Perm2mPolicy where
  | violation
  | refuse
  deriving DecidableEq, Repr

/-- `MFENCE_PA_ALLSD`: the form with an address and no SDID (R91; the spec's choice is refuse, D23). The two other
values are the two readings with an effect that D23 names. -/
inductive PaAllSdPolicy where
  | refuse
  | everyDomain
  | everything
  deriving DecidableEq, Repr

/-- `MTT_FAULT_TARGET`: the mode that takes an access-fault (R107; the spec's choice is M, D1). -/
inductive FaultTarget where
  | machine
  | medeleg
  deriving DecidableEq, Repr

/-- A range of physical addresses, `size` bytes from `base`. -/
structure Region where
  base : Nat
  size : Nat
  deriving DecidableEq, Repr

/-- The named parameters of 00_scope.md section 4 (and `devices`, the environment's marking of D7). -/
structure Config where
  /-- `XLEN`. -/
  xlen           : Xlen
  /-- `SUPPORTED_MODES`. -/
  supportedModes : List Mode
  /-- `MTTP_CSR_ADDR`. -/
  mttpCsrAddr    : BitVec 12
  /-- `MTTP_LAYOUT`: lowest bit and width of MODE. -/
  modeLsb        : Nat
  modeWidth      : Nat
  /-- `MTTP_LAYOUT`: lowest bit of SDID. -/
  sdidLsb        : Nat
  /-- `SDID_WIDTH`. -/
  sdidWidth      : Nat
  /-- `MTTP_LAYOUT`: lowest bit and width of PPN. -/
  ppnLsb         : Nat
  ppnWidth       : Nat
  /-- `MODE_ENC`. -/
  modeEnc        : List (Mode × Nat)
  /-- `MTT_ENDIAN`. -/
  mttEndian      : Endian
  /-- `FETCH_PERM`. -/
  fetchPerm      : FetchPerm
  /-- `MBZ_POLICY`. -/
  mbzPolicy      : MbzPolicy
  /-- `PERM2M_10_POLICY`. -/
  perm2m10       : Perm2mPolicy
  /-- `FUNCT7_MFENCE_SPA`. -/
  funct7Mfence   : BitVec 7
  /-- `FUNCT7_MINVAL_SPA`. -/
  funct7Minval   : BitVec 7
  /-- `PADDR_FMT`: `x[rs1]` is the physical address shifted right by this many bits (0 a byte address, 12 a page
  number, R96). -/
  paddrShift     : Nat
  /-- `MFENCE_PA_ALLSD`. -/
  paAllSd        : PaAllSdPolicy
  /-- `HAS_SVADU`. -/
  hasSvadu       : Bool
  /-- `HAS_SVINVAL`. -/
  hasSvinval     : Bool
  /-- `NHARTS`. -/
  nharts         : Nat
  /-- `MTT_FAULT_TARGET`. -/
  faultTarget    : FaultTarget
  /-- `MTTP_RESET`. -/
  mttpReset      : Mttp
  /-- The addresses the environment marks as devices (D7). -/
  devices        : List Region
  deriving DecidableEq, Repr

/-- The source of every free value: a number for each tick of the model's counter and each place inside one tick
where a choice is made. It has no body: nothing constrains it (log entry 4). -/
opaque Config.freeNat (tick : Nat) (place : List Nat) : Nat

/-- The parameter values of the machine after reset (log entries 2 and 3). Where the spec gives a parameter its
choice, that choice; where it leaves one OPEN, a value of the model's. The top seven bits of the CSR number are neither
funct7 value, so that no CSR instruction on `mttp` has the shape that R88 refuses (log entry 36). -/
def Config.reference : Config where
  xlen           := .rv64
  supportedModes := [.bare, .smmtt34rw, .smmtt46rw, .smmtt56rw, .smmtt34, .smmtt46, .smmtt56]
  mttpCsrAddr    := 0x7C0#12
  modeLsb        := 60
  modeWidth      := 4
  sdidLsb        := 44
  sdidWidth      := 6
  ppnLsb         := 0
  ppnWidth       := 44
  modeEnc        := [(.bare, 0), (.smmtt34rw, 1), (.smmtt46rw, 2), (.smmtt56rw, 3), (.smmtt34, 4), (.smmtt46, 5),
                     (.smmtt56, 6)]
  mttEndian      := .little
  fetchPerm      := .read
  mbzPolicy      := .refuse
  perm2m10       := .violation
  funct7Mfence   := 0b1011110#7
  funct7Minval   := 0b1011111#7
  paddrShift     := 0
  paAllSd        := .refuse
  hasSvadu       := true
  hasSvinval     := true
  nharts         := 2
  faultTarget    := .machine
  mttpReset      := { mode := .bare, sdid := 0#64, ppn := 0#44 }
  devices        := []

end Sys2Proof
end

