-- ==== Sys2Proof/Syntax.lean ====
section
/-! DEFINITION. The instructions: one constructor for each row of spec/opcode_table.json (R82). -/

namespace Sys2Proof

/-- The four instructions. `rs1` names the register that holds the physical address, `rs2` the one that holds the
SDID; the specifier `x0` means that no such operand is given (R84, R85). -/
inductive Instr where
  /-- `MFENCE.SPA rs1, rs2` (R90). -/
  | mfenceSpa (rs1 rs2 : RegIdx)
  /-- `MINVAL.SPA rs1, rs2` (R97). -/
  | minvalSpa (rs1 rs2 : RegIdx)
  /-- `SFENCE.W.INVAL` (R98). -/
  | sfenceWInval
  /-- `SFENCE.INVAL.IR` (R99). -/
  | sfenceInvalIr
  deriving DecidableEq, Repr

end Sys2Proof
end

