-- ==== Sys2Proof/Decode.lean ====
section
/-! DEFINITION. From bytes to an instruction, total, refusing by name; and back (R82 to R88). Both sides are written
from the field table of R84 and the two words of R87. -/

namespace Sys2Proof

/-- Bits `hi` down to `lo` of `v` as an unsigned integer (00_scope.md section 6, `v[hi:lo]`). -/
def bitsOf (v hi lo : Nat) : Nat := v / 2 ^ lo % 2 ^ (hi + 1 - lo)

/-- The low `n` bytes of `v`, least significant first (R83: little-endian). -/
def bytesOf : Nat → Nat → List Byte
  | 0, _ => []
  | n + 1, v => BitVec.ofNat 8 v :: bytesOf n (v / 256)

/-- The number that bytes, least significant first, stand for. -/
def natOfBytes : List Byte → Nat
  | [] => 0
  | b :: bs => b.toNat + 256 * natOfBytes bs

/-- Why bytes are no instruction of this extension. -/
inductive DecodeError where
  /-- Fewer than the four bytes of an instruction. -/
  | short
  /-- The two low bits are not 11, or bits 4:2 are 111: not a 32-bit instruction (R83). -/
  | length
  /-- The shape of MFENCE.SPA or MINVAL.SPA with `rd` or `funct3` not 0 (R88, D32). -/
  | nearShape
  /-- Another 32-bit encoding: outside this spec (R88). -/
  | outside
  deriving DecidableEq, Repr

/-- The SYSTEM opcode (R84). -/
def opcodeSystem : BitVec 7 := 0b1110011#7

/-- The word of SFENCE.W.INVAL (R87). -/
def wordSfenceWInval : BitVec 32 := 0x18000073#32

/-- The word of SFENCE.INVAL.IR (R87). -/
def wordSfenceInvalIr : BitVec 32 := 0x18100073#32

/-- The length rule of R83, on the first byte: low bits 11 and bits 4:2 not 111. -/
def isWord32 (b : Byte) : Bool := b.extractLsb' 0 2 == 0b11#2 && b.extractLsb' 2 3 != 0b111#3

/-- An R-type word by its fields (R84): opcode 6:0, rd 11:7, funct3 14:12, rs1 19:15, rs2 24:20, funct7 31:25. -/
def decodeWord (c : Config) (w : BitVec 32) : Except DecodeError Instr :=
  let opcode := w.extractLsb' 0 7
  let rd := w.extractLsb' 7 5
  let funct3 := w.extractLsb' 12 3
  let rs1 := w.extractLsb' 15 5
  let rs2 := w.extractLsb' 20 5
  let funct7 := w.extractLsb' 25 7
  if w = wordSfenceWInval then .ok .sfenceWInval
  else if w = wordSfenceInvalIr then .ok .sfenceInvalIr
  else if opcode ≠ opcodeSystem then .error .outside
  else if funct7 = c.funct7Mfence then
    if rd = 0 ∧ funct3 = 0 then .ok (.mfenceSpa rs1 rs2) else .error .nearShape
  else if funct7 = c.funct7Minval then
    if rd = 0 ∧ funct3 = 0 then .ok (.minvalSpa rs1 rs2) else .error .nearShape
  else .error .outside

/-- The instruction at the head of a list of bytes, and the bytes after it. -/
def decode (c : Config) : List Byte → Except DecodeError (Instr × List Byte)
  | [] => .error .short
  | b0 :: rest =>
    if isWord32 b0 then
      match rest with
      | b1 :: b2 :: b3 :: rest' =>
        match decodeWord c (b3 ++ b2 ++ b1 ++ b0) with
        | .ok i => .ok (i, rest')
        | .error e => .error e
      | _ => .error .short
    else .error .length

/-- The R-type word with `rd` and `funct3` 0 under SYSTEM (R84). -/
def encodeR (funct7 : BitVec 7) (rs2 rs1 : RegIdx) : BitVec 32 :=
  funct7 ++ rs2 ++ rs1 ++ 0b000#3 ++ 0b00000#5 ++ opcodeSystem

/-- The word of an instruction (R84, R87; 30_encoding.md section 5). -/
def encode (c : Config) : Instr → BitVec 32
  | .mfenceSpa rs1 rs2 => encodeR c.funct7Mfence rs2 rs1
  | .minvalSpa rs1 rs2 => encodeR c.funct7Minval rs2 rs1
  | .sfenceWInval  => encodeR 0b0001100#7 0b00000#5 0b00000#5
  | .sfenceInvalIr => encodeR 0b0001100#7 0b00001#5 0b00000#5

/-- The four bytes of an instruction as memory holds them (R83). -/
def encodeBytes (c : Config) (i : Instr) : List Byte := bytesOf 4 (encode c i).toNat

/-- The assembly text: the address register first, then the SDID register; no operands for the other two (R89). -/
def assembly : Instr → String
  | .mfenceSpa rs1 rs2 => "mfence.spa x" ++ toString rs1.toNat ++ ", x" ++ toString rs2.toNat
  | .minvalSpa rs1 rs2 => "minval.spa x" ++ toString rs1.toNat ++ ", x" ++ toString rs2.toNat
  | .sfenceWInval  => "sfence.w.inval"
  | .sfenceInvalIr => "sfence.inval.ir"

/-- The bytes of the table's word: `nbits` bits of `w`, zeros above, up to the longest instruction. -/
def tableBytes (nbits w : Nat) : List Byte := bytesOf 4 (w % 2 ^ nbits)

/-- The instruction the decoder reads from a word numbered as spec/opcode_table.json numbers it, with the parameter
values of the machine after reset. -/
def decodeTableWord (nbits w : Nat) : Option Instr :=
  match decode Config.reference (tableBytes nbits w) with
  | .ok (i, _) => some i
  | .error _ => none

end Sys2Proof
end

