-- ==== Sys2Proof/Machine/State.lean ====
section
/-! DEFINITION. The state of the machine as plain data: everything the spec gives it (10_state.md), the environment
it reads (00_scope.md section 5), the inputs, the reasons a step can stop, and the state after reset. -/

namespace Sys2Proof.Machine

/-- Physical memory: (address, byte) pairs, addresses strictly rising, no entry equal to what an unlisted address
reads as. -/
abbrev Memory := List Host.Cell

/-- What an address that nothing has written reads as (log entry 5; 95_test_vectors.md section 3, "Memory not listed
holds 0"). -/
def Memory.unlisted (_addr : Nat) : Byte := 0

/-- The canonical form. -/
def Memory.wf : Memory → Bool
  | [] => true
  | c :: m => c.2 != Memory.unlisted c.1 && m.all (fun d => decide (c.1 < d.1)) && Memory.wf m

/-- The privilege modes the source names (R14, R112). -/
inductive Priv where
  | u
  | s
  | m
  deriving DecidableEq, Repr

/-- The three kinds of access a check tells apart (R59, R71). -/
inductive AccessType where
  | fetch
  | read
  | write
  deriving DecidableEq, Repr

/-- The accesses an instruction can make (R59, R102). -/
inductive AccessKind where
  | fetch
  | load
  | loadReserved
  | store
  | storeConditional
  | amo
  deriving DecidableEq, Repr

/-- What a fence or an invalidation names (R91): all pairs (SDID, address), one SDID, one 4 KiB page of one SDID, or
(only where `MFENCE_PA_ALLSD` says so) one page of every SDID. Pages are physical page numbers. -/
inductive Selector where
  | all
  | domain (sdid : Word)
  | page (sdid : Word) (pageNo : Nat)
  | pageAll (pageNo : Nat)
  deriving DecidableEq, Repr

/-- A point in time, as R73 needs it: how many earlier memories and how many earlier values of this hart's `mttp`
the history held then. -/
structure Horizon where
  mem  : Nat
  mttp : Nat
  deriving DecidableEq, Repr

/-- A completed fence in a hart's history (R90, R99): what it matched, and the time `t0` it sets. -/
structure FenceRecord where
  sel  : Selector
  time : Horizon
  deriving DecidableEq, Repr

/-- An invalidation that waits for SFENCE.INVAL.IR (R97), and whether the latest SFENCE.W.INVAL stands before it. -/
structure PendingInval where
  sel       : Selector
  afterMark : Bool
  deriving DecidableEq, Repr

/-- One range that the environment's `PMPCheck` denies to one kind of access from one mode (00_scope.md section 5,
R66). What no rule denies passes. -/
structure PmpDeny where
  range : Region
  type  : AccessType
  mode  : Priv
  deriving DecidableEq, Repr

/-- One implicit page-table access of a translation (R65): `size` bytes at `pa`, a read, or a write of `value`
(an A or D update). -/
structure Implicit where
  pa    : Nat
  size  : Nat
  write : Option Nat
  deriving DecidableEq, Repr

/-- How a translation ends: a physical page, or an exception of the environment's own (a page fault). -/
inductive TranslationEnd where
  | page (ppn : Nat)
  | raise (cause : Word)
  deriving DecidableEq, Repr

/-- The environment's `Translate` for one virtual page and one kind of access: the implicit accesses it makes, in
order, and its end. A page without an entry is not translated. -/
structure Translation where
  vpn      : Nat
  type     : AccessType
  implicit : List Implicit
  ends     : TranslationEnd
  deriving DecidableEq, Repr

/-- Width of an access of a base instruction. -/
inductive Width where
  | byte
  | half
  | word
  | double
  deriving DecidableEq, Repr

/-- What a CSR instruction does with its operand. -/
inductive CsrOp where
  | write
  | set
  | clear
  deriving DecidableEq, Repr

/-- The synchronising instructions of the environment that R75 names as no matching fence. -/
inductive BaseFence where
  | fence
  | fenceI
  | sfenceVma
  deriving DecidableEq, Repr

/-- What an instruction of the base ISA does. The base ISA is not in the spec (00_scope.md section 3): the
environment says which effect the instruction at the pc has, with effective addresses and values already computed. -/
inductive BaseOp where
  /-- Only advances the pc. -/
  | advance
  /-- Writes an integer register. -/
  | setReg (rd : RegIdx) (v : Word)
  /-- Sets the pc. -/
  | jump (target : Word)
  /-- FENCE, FENCE.I or SFENCE.VMA. -/
  | fence (f : BaseFence)
  /-- A load or load-reserved. -/
  | load (reserved : Bool) (rd : RegIdx) (va : Word) (size : Width) (signed : Bool)
  /-- A store. -/
  | store (va : Word) (size : Width) (v : Word)
  /-- A store-conditional; the environment says whether the reservation holds. -/
  | storeConditional (rd : RegIdx) (va : Word) (size : Width) (v : Word) (holds : Bool)
  /-- An atomic memory operation that leaves `new` in memory and the old value in `rd`. -/
  | amo (rd : RegIdx) (va : Word) (size : Width) (new : Word)
  /-- A CSR instruction. -/
  | csr (op : CsrOp) (rd : RegIdx) (num : BitVec 12) (v : Word)
  /-- The abstract action `WriteMTTP` of R12. -/
  | writeMttp (mode : Mode) (sdid : Word) (ppn : Ppn)
  /-- Return from an M-mode trap (R111). -/
  | mret
  /-- Return from an S-mode trap. -/
  | sret
  /-- An exception of the environment's own. -/
  | raise (cause tval : Word)
  deriving DecidableEq, Repr

/-- What the outside world does between two instructions. -/
inductive Event where
  /-- The hart at this place among the others takes the next turns. -/
  | switchHart (k : Nat)
  /-- A store by an agent that is no modelled hart becomes visible. -/
  | externalStore (addr : Nat) (data : List Byte)
  /-- The environment of the moving hart changes its PMP rules and translations. -/
  | environment (pmp : List PmpDeny) (xlate : List Translation)
  /-- The environment says what the moving hart's next base instructions do. -/
  | program (ops : List BaseOp)
  /-- The moving hart is reset (R22, R116); memory is left as it is. -/
  | reset
  deriving DecidableEq, Repr

/-- What each hart has of its own (R21). -/
structure Hart where
  /-- Current privilege mode (R14). -/
  priv     : Priv
  /-- Program counter (R16). -/
  pc       : Word
  /-- Integer registers (R15); `x0` is read and written through `readReg` and `setReg` only. -/
  x        : Vector Word 32
  /-- `mstatus` (R13, R111). -/
  mstatus  : Word
  /-- Saved pc of a trap into M-mode (R104, R111). -/
  mepc     : Word
  /-- Cause of a trap into M-mode (R103, R111). -/
  mcause   : Word
  /-- Trap value of a trap into M-mode (R104, R111). -/
  mtval    : Word
  /-- Trap vector of M-mode (R111). -/
  mtvec    : Word
  /-- Delegation register (R107). -/
  medeleg  : Word
  /-- The S-mode trap registers, used where `MTT_FAULT_TARGET` is `medeleg` (R106, R107). -/
  sepc     : Word
  scause   : Word
  stval    : Word
  stvec    : Word
  /-- The CSR `mttp` (R7 to R10). -/
  mttp     : Mttp
  /-- The earlier values of `mttp`, latest first (R19, R73). -/
  mttpPast : List Mttp
  /-- The fences this hart completed, latest first (R73, R90, R99). -/
  fences   : List FenceRecord
  /-- A fence of every SDID and every address, an MFENCE.SPA or a batched sequence, completed since reset (R22, R100, log
  entry 14). -/
  resetOver : Bool
  /-- The time of the latest SFENCE.W.INVAL (R98). -/
  wInval   : Option Horizon
  /-- The pending invalidations, latest first (R97). -/
  pending  : List PendingInval
  /-- The environment's PMP (R66). -/
  pmp      : List PmpDeny
  /-- The environment's address translation (R65). -/
  xlate    : List Translation
  /-- What the environment says the next base instructions do. -/
  baseOps  : List BaseOp
  deriving DecidableEq, Repr

/-- The whole machine: the hart that moves, the others, what they share (R21), the inputs not yet taken, and the
model's own counter of free values. `cfg` holds the parameters; no step changes it (log entry 2). -/
structure State where
  cfg     : Config
  /-- Physical memory (R17, R23). -/
  mem     : Memory
  /-- The earlier contents of memory, latest first (R18, R73). -/
  memPast : List Memory
  hart    : Hart
  others  : List Hart
  events  : List Event
  /-- Counts the ticks at which free values are drawn (log entry 4). -/
  tick    : Nat
  deriving DecidableEq, Repr

/-- Why the machine stops. -/
inductive Fault where
  /-- Raised by the access procedure, and by an external store, for an access that no check refused and that lies
  beyond the 56 bits of the physical address space (R23). Safe: the machine stops. -/
  | outsideAddressSpace
  deriving DecidableEq, Repr

/-- Where the source says what software must do and not what hardware does if it does not (00_scope.md section 6). -/
inductive UnspecReason where
  /-- A ZERO field is not 0 (R31, R44). -/
  | zeroNonzero
  /-- An INFO field, or its bits 43:32, is not 0 (R33 to R35, R38, R46, R47, R50). -/
  | infoNonzero
  /-- A 1 GiB group is mixed (R36, R48). -/
  | group1gMixed
  /-- The rw 2M_PAGES sub-field 10b where `PERM2M_10_POLICY` leaves it open (R38). -/
  | perm2m10
  deriving DecidableEq, Repr

/-- What the model gives no meaning. Every one is safe: the machine stops. -/
inductive Refusal where
  /-- An instruction whose arm has no meaning yet; raised by `exec`'s arms alone. -/
  | notModelled (mnemonic : String)
  /-- A 32-bit word, or a shorter or longer encoding, that is none of the four instructions, where the environment
  says nothing of what it does; raised by the step (R88). -/
  | outsideSpec
  /-- The shape of MFENCE.SPA or MINVAL.SPA with `rd` or `funct3` not 0; raised by the step (R88, D32). -/
  | nearShape
  /-- MINVAL.SPA, SFENCE.W.INVAL or SFENCE.INVAL.IR without Svinval; raised by their meanings (R101). -/
  | noSvinval
  /-- The form with an address and no SDID; raised by the selector (R91, D23). -/
  | paddrWithoutSdid
  /-- `x[rs2]` has a bit above the SDID width; raised by the selector (R85, D25). -/
  | sdidTooWide
  /-- A write of an unsupported mode to `mttp`; raised by the write (R8, D30). -/
  | unsupportedMode
  /-- A lookup whose result the source does not state; raised by the check (D15, D17, and D16 where left open). -/
  | unspecLookup (r : UnspecReason)
  /-- An MTT entry address of `2^56` or more; raised by the entry read (R28, D8). -/
  | entryBeyondSpace
  /-- An MTT entry in memory the environment marks as a device; raised by the entry read (R76, D7). -/
  | entryInDevice
  /-- A load, store or fetch at an address the environment marks as a device; raised by the access procedure. -/
  | deviceAccess
  /-- A CSR number the spec says nothing of; raised by the base CSR operation. -/
  | unknownCsr
  /-- An event that names no hart; raised by the event. -/
  | noSuchHart
  deriving DecidableEq, Repr

/-- A hart right after reset (R22, R116): M-mode and `MPRV` 0 as the spec says; every other value is the model's,
log entry 1. -/
def Hart.reset (c : Config) : Hart where
  priv     := .m
  pc       := 0
  x        := Vector.replicate 32 0
  mstatus  := 0
  mepc     := 0
  mcause   := 0
  mtval    := 0
  mtvec    := 0
  medeleg  := 0
  sepc     := 0
  scause   := 0
  stval    := 0
  stvec    := 0
  mttp     := c.mttpReset
  mttpPast := []
  fences   := []
  resetOver := false
  wInval   := none
  pending  := []
  pmp      := []
  xlate    := []
  baseOps  := []

/-- The machine right after reset, for any parameter values. -/
def State.resetWith (c : Config) : State where
  cfg     := c
  mem     := []
  memPast := []
  hart    := Hart.reset c
  others  := List.replicate (c.nharts - 1) (Hart.reset c)
  events  := []
  tick    := 0

/-- The machine right after reset. -/
def State.reset : State := State.resetWith Config.reference

end Sys2Proof.Machine
end

