-- ==== Sys2Proof/Machine/Memory.lean ====
section
/-! DEFINITION. Reading and writing physical memory. Wider accesses are built from bytes here and nowhere else, so the
byte order is decided once: little-endian, and `MTT_ENDIAN` for an MTT entry (R26). -/

namespace Sys2Proof.Machine

/-- The byte at an address. -/
def Memory.read : Memory → Nat → Byte
  | [], a => Memory.unlisted a
  | c :: m, a => if c.1 = a then c.2 else Memory.read m a

/-- Write one byte, keeping the canonical form. -/
def Memory.write : Memory → Nat → Byte → Memory
  | [], a, v => if v = Memory.unlisted a then [] else [(a, v)]
  | c :: m, a, v =>
    if a < c.1 then (if v = Memory.unlisted a then c :: m else (a, v) :: c :: m)
    else if a = c.1 then (if v = Memory.unlisted a then m else (a, v) :: m)
    else c :: Memory.write m a v

/-- Write bytes at consecutive addresses. -/
def Memory.writeBytes (m : Memory) (a : Nat) : List Byte → Memory
  | [] => m
  | b :: bs => Memory.writeBytes (m.write a b) (a + 1) bs

/-- The `n` bytes at consecutive addresses from `a`. -/
def Memory.readBytes (m : Memory) (a : Nat) : Nat → List Byte
  | 0 => []
  | n + 1 => m.read a :: Memory.readBytes m (a + 1) n

/-- The 64-bit value of the MTT entry at `a`, in the byte order of `MTT_ENDIAN` (R25, R26). -/
def Memory.readEntry (c : Config) (m : Memory) (a : Nat) : Word :=
  match c.mttEndian with
  | .little => BitVec.ofNat 64 (natOfBytes (m.readBytes a 8))
  | .big    => BitVec.ofNat 64 (natOfBytes (m.readBytes a 8).reverse)

/-- The physical address space ends here: the largest PAW is 56 (R23, R28). -/
def addressLimit : Nat := 2 ^ 56

/-- Some byte of `[a, a+n)` lies in the region. -/
def Region.meets (r : Region) (a n : Nat) : Bool := decide (a < r.base + r.size ∧ r.base < a + n)

/-- Some byte of `[a, a+n)` is marked as a device (D7). -/
def isDevice (c : Config) (a n : Nat) : Bool := c.devices.any (fun r => Region.meets r a n)

/-- A span of bytes is naturally aligned and at most a 64-bit word: it lands as one access (R27). -/
def landsWhole (a n : Nat) : Bool := (n == 1 || n == 2 || n == 4 || n == 8) && a % n == 0

/-- Replace memory by `m`, keeping the old contents in the history (R18, R73). -/
def setMem (m : Memory) (s : State) : State := { s with mem := m, memPast := s.mem :: s.memPast }

/-- Store bytes one after another, every state of memory on the way being visible to lookups (R115). -/
def storePieces (a : Nat) : List Byte → State → State
  | [], s => s
  | b :: bs, s => storePieces (a + 1) bs (setMem (s.mem.write a b) s)

/-- A store of consecutive bytes by any agent: one change of memory if it is naturally aligned (R27), byte by byte
otherwise (R115, log entry 9). -/
def storeBytes (a : Nat) (bs : List Byte) (s : State) : State :=
  if landsWhole a bs.length then setMem (s.mem.writeBytes a bs) s else storePieces a bs s

end Sys2Proof.Machine
end

