-- ==== Sys2Proof/Machine/Lookup.lean ====
section
/-! DEFINITION. The formats of the MTT entries of both families and the lookup from a physical address to a
permission (R29 to R61), as functions of how an entry is read. -/

namespace Sys2Proof.Machine

/-- A permission: three of the rw family, two of the 1b family (00_scope.md section 6). -/
inductive Permission where
  | none
  | r
  | rw
  | disallow
  | allow
  deriving DecidableEq, Repr

/-- What a lookup returns (00_scope.md section 6). -/
inductive LookupResult where
  | perm (p : Permission)
  | violation
  | unspec (why : UnspecReason)
  deriving DecidableEq, Repr

/-- Why an MTT entry read yields no value: the PMP refuses it (R67), its address is `2^56` or more (R28), or the
environment marks it as a device (R76). -/
inductive EntryStop where
  | pmp
  | beyond
  | device
  deriving DecidableEq, Repr

/-- The three table levels. -/
inductive Level where
  | l3
  | l2
  | l1
  deriving DecidableEq, Repr

/-- How a lookup reads one entry: the level and the entry's address to its 64-bit value. -/
abbrev EntryReader := Level → Nat → Except EntryStop Word

/-- Lowest address bit of the MTTL2 index: an entry spans 32 MiB (rw, R30) or 64 MiB (1b, R43). -/
def spanBit : Family → Nat
  | .rw => 25
  | .oneBit => 26

/-- The number of MTTL2 entries of one 1 GiB group (R36, R48). -/
def groupSize : Family → Nat
  | .rw => 32
  | .oneBit => 16

/-- The ZERO field of an MTTL3 entry, bits 63:44 (R29, R42). -/
def l3Zero (e : Word) : Nat := bitsOf e.toNat 63 44

/-- The MTTL2 PPN of an MTTL3 entry, bits 43:0 (R29, R42). -/
def l3Ppn (e : Word) : Nat := bitsOf e.toNat 43 0

/-- The TYPE of an MTTL2 entry: bits 47:44 (rw, R30) or 45:44 (1b, R43). -/
def l2Type : Family → Word → Nat
  | .rw, e => bitsOf e.toNat 47 44
  | .oneBit, e => bitsOf e.toNat 45 44

/-- The ZERO field of an MTTL2 entry: bits 63:48 (rw, R30) or 63:46 (1b, R43). -/
def l2Zero : Family → Word → Nat
  | .rw, e => bitsOf e.toNat 63 48
  | .oneBit, e => bitsOf e.toNat 63 46

/-- The INFO field of an MTTL2 entry, bits 43:0 (R30, R43). -/
def l2Info (e : Word) : Nat := bitsOf e.toNat 43 0

/-- A TYPE that makes a 1 GiB range (R32, R45; `MTT_WF_1G` of R36). -/
def is1g : Family → Nat → Bool
  | .rw, t => t == 0b0000 || t == 0b0001 || t == 0b0011
  | .oneBit, t => t == 0b00 || t == 0b01

/-- The address of entry `i` of the table whose first page is `ppn` (R28: exact addition). -/
def entryAddr (ppn i : Nat) : Nat := ppn * 4096 + 8 * i

/-- The MTTL2 index of an address: from the span bit up to bit 45, or up to the top bit of the width where there is
no MTTL3 table (R54). -/
def l2Index (f : Family) (paw p : Nat) : Nat := bitsOf p (if paw = 56 then 45 else paw - 1) (spanBit f)

/-- The MTTL3 index of an address, PA[55:46] (R54). -/
def l3Index (p : Nat) : Nat := bitsOf p 55 46

/-- The word of an MTTL1 page: PA[24:16] (rw, R39) or PA[25:17] (1b, R51). -/
def l1Word : Family → Nat → Nat
  | .rw, p => bitsOf p 24 16
  | .oneBit, p => bitsOf p 25 17

/-- The PERM field of an MTTL1 word: number PA[15:12], bits `4k+3` to `4k` (rw, R41), or number PA[16:12], bits
`2k+1` to `2k` (1b, R53). -/
def l1Perm : Family → Nat → Word → Nat
  | .rw, p, w => bitsOf w.toNat (4 * bitsOf p 15 12 + 3) (4 * bitsOf p 15 12)
  | .oneBit, p, w => bitsOf w.toNat (2 * bitsOf p 16 12 + 1) (2 * bitsOf p 16 12)

/-- The meaning of an MTTL1 PERM field (R40, R52). -/
def permOfL1 : Family → Nat → LookupResult
  | .rw, 0b0000 => .perm .none
  | .rw, 0b0001 => .perm .r
  | .rw, 0b0011 => .perm .rw
  | .rw, _ => .violation
  | .oneBit, 0b00 => .perm .disallow
  | .oneBit, 0b01 => .perm .allow
  | .oneBit, _ => .violation

/-- The meaning of a 2M_PAGES sub-field for an address: `INFO[2j+1:2j]` with `j` = PA[24:21] (rw, R38), `INFO[j]` with
`j` = PA[25:21] (1b, R50). -/
def permOf2m (c : Config) : Family → Nat → Nat → LookupResult
  | .rw, p, info =>
    match bitsOf info (2 * bitsOf p 24 21 + 1) (2 * bitsOf p 24 21) with
    | 0b00 => .perm .none
    | 0b01 => .perm .r
    | 0b11 => .perm .rw
    | _ => match c.perm2m10 with
      | .violation => .violation
      | .refuse => .unspec .perm2m10
  | .oneBit, p, info => if bitsOf info (bitsOf p 25 21) (bitsOf p 25 21) = 1 then .perm .allow else .perm .disallow

/-- What an MTTL2 entry's TYPE says (R32, R45). -/
inductive L2Kind where
  | gig (p : Permission)
  | dir
  | pages2m
  | reserved
  deriving DecidableEq, Repr

/-- The TYPE tables of R32 and R45. -/
def l2Kind : Family → Nat → L2Kind
  | .rw, 0b0000 => .gig .none
  | .rw, 0b0001 => .gig .r
  | .rw, 0b0011 => .gig .rw
  | .rw, 0b0100 => .dir
  | .rw, 0b0111 => .pages2m
  | .rw, _ => .reserved
  | .oneBit, 0b00 => .gig .disallow
  | .oneBit, 0b01 => .gig .allow
  | .oneBit, 0b10 => .dir
  | .oneBit, 0b11 => .pages2m
  | .oneBit, _ => .reserved

/-- A must-be-zero field is not zero and `MBZ_POLICY` does not ignore it (R31, D15). -/
def mbzBad (c : Config) (field : Nat) : Bool := field != 0 && c.mbzPolicy != .ignore

/-- The rest of a lookup from an MTTL2 entry (R56, R57, from `e2` on). -/
def lookupL2 (c : Config) (f : Family) (p : Nat) (rd : EntryReader) (e : Word) : Except EntryStop LookupResult :=
  if mbzBad c (l2Zero f e) then .ok (.unspec .zeroNonzero)
  else match l2Kind f (l2Type f e) with
    | .gig q => if mbzBad c (l2Info e) then .ok (.unspec .infoNonzero) else .ok (.perm q)
    | .dir =>
      match rd .l1 (entryAddr (l2Info e) (l1Word f p)) with
      | .error x => .error x
      | .ok w => .ok (permOfL1 f (l1Perm f p w))
    | .pages2m =>
      if mbzBad c (bitsOf (l2Info e) 43 32) then .ok (.unspec .infoNonzero) else .ok (permOf2m c f p (l2Info e))
    | .reserved => .ok .violation

/-- The lookup from the MTTL2 table at page `ppn2` on. `mixed` says that the 1 GiB group of an entry breaks
`MTT_WF_1G` (R36, R48): the premise is tested where the entry is read. -/
def lookupTable2 (c : Config) (f : Family) (paw ppn2 p : Nat) (rd : EntryReader) (mixed : Nat → Nat → Bool) :
    Except EntryStop LookupResult :=
  match rd .l2 (entryAddr ppn2 (l2Index f paw p)) with
  | .error x => .error x
  | .ok e => if mixed ppn2 (l2Index f paw p) then .ok (.unspec .group1gMixed) else lookupL2 c f p rd e

/-- `MTTLookup_rw` and `MTTLookup_1b` (R56, R57): the two differ in the formats only. -/
def lookup (c : Config) (f : Family) (paw root p : Nat) (rd : EntryReader) (mixed : Nat → Nat → Bool) :
    Except EntryStop LookupResult :=
  if p / 2 ^ paw ≠ 0 then .ok .violation
  else if paw = 56 then
    match rd .l3 (entryAddr root (l3Index p)) with
    | .error x => .error x
    | .ok e =>
      if mbzBad c (l3Zero e) then .ok (.unspec .zeroNonzero) else lookupTable2 c f paw (l3Ppn e) p rd mixed
  else lookupTable2 c f paw root p rd mixed

/-- The TYPE of entry `i` of the MTTL2 table at page `ppn2` in memory `m`. -/
def typeAt (c : Config) (f : Family) (m : Memory) (ppn2 i : Nat) : Nat :=
  l2Type f (m.readEntry c (entryAddr ppn2 i))

/-- The group of entry `i` breaks `MTT_WF_1G` in memory `m`: some entry of the group has a 1G type and some entry has
another TYPE (R36, R48). -/
def groupMixed (c : Config) (f : Family) (m : Memory) (ppn2 i : Nat) : Bool :=
  let types := (List.range (groupSize f)).map (fun j => typeAt c f m ppn2 (i / groupSize f * groupSize f + j))
  types.any (fun t => is1g f t && types.any (fun u => u != t))

/-- The number of entries of an MTTL2 table: one for each value of its index (R54). -/
def l2Entries (f : Family) (paw : Nat) : Nat := 2 ^ ((if paw = 56 then 46 else paw) - spanBit f)

/-- `MTT_WF_1G(table, fam)` (R36, R48): no group of the first `n` entries of the table is mixed. -/
def mttWf1g (c : Config) (f : Family) (m : Memory) (ppn2 n : Nat) : Bool :=
  (List.range (n / groupSize f)).all (fun g => !groupMixed c f m ppn2 (g * groupSize f))

/-- Which results let an access through (R59, R60). -/
def passes (c : Config) (r : LookupResult) (t : AccessType) : Bool :=
  match r with
  | .perm .rw => true
  | .perm .r =>
    match t with
    | .read => true
    | .write => false
    | .fetch => c.fetchPerm == .read
  | .perm .allow => true
  | .perm .none => false
  | .perm .disallow => false
  | .violation => false
  | .unspec _ => false

end Sys2Proof.Machine
end

