-- ==== Sys2Proof/Machine/Flags.lean ====
section
/-! DEFINITION. The fields of the status register `mstatus`. The architecture has no condition-code flags
(00_scope.md section 3, 10_state.md section 7), so no instruction computes one; the mode bits and the interrupt
enables that R13 and R111 name are all there is. `MPRV` and `MPP` stand where R13 says; the places of the other bits
are the base architecture's (log entry 6). -/

namespace Sys2Proof.Machine

/-- Bit of `MPRV` (R13). -/
def mprvBit : Nat := 17
/-- Lowest bit of the two bits of `MPP` (R13). -/
def mppLsb : Nat := 11
/-- Bit of `MIE` (log entry 6). -/
def mieBit : Nat := 3
/-- Bit of `MPIE` (log entry 6). -/
def mpieBit : Nat := 7
/-- Bit of `SIE` (log entry 6). -/
def sieBit : Nat := 1
/-- Bit of `SPIE` (log entry 6). -/
def spieBit : Nat := 5
/-- Bit of `SPP` (log entry 6). -/
def sppBit : Nat := 8

/-- Replace the `w` bits of `v` from bit `lsb` on by `f`. -/
def putField (v : Word) (lsb w : Nat) (f : BitVec w) : Word :=
  (v &&& ~~~((BitVec.allOnes w).setWidth 64 <<< lsb)) ||| (f.setWidth 64 <<< lsb)

/-- Replace one bit. -/
def putBit (v : Word) (i : Nat) (b : Bool) : Word := putField v i 1 (BitVec.ofBool b)

/-- `mstatus.MPRV` (R13). -/
def mprv (mstatus : Word) : Bool := mstatus.getLsbD mprvBit

/-- `mstatus.MPP` as two bits (R13). -/
def mppField (mstatus : Word) : BitVec 2 := mstatus.extractLsb' mppLsb 2

/-- The encoding of a mode in `MPP`: 0 is U, 1 is S, 3 is M (R13). -/
def Priv.code : Priv → BitVec 2
  | .u => 0
  | .s => 1
  | .m => 3

/-- The mode that two bits of `MPP` name; 2 names none (R13). -/
def privOfCode (b : BitVec 2) : Option Priv :=
  if b = 0 then some .u else if b = 1 then some .s else if b = 3 then some .m else none

/-- `mstatus.MPP` as a mode. -/
def mpp (mstatus : Word) : Option Priv := privOfCode (mppField mstatus)

/-- `mstatus` after a trap into M-mode from mode `p`: the previous mode in `MPP`, the previous interrupt enable in
`MPIE`, `MIE` cleared (R111). -/
def mstatusAfterTrapM (p : Priv) (v : Word) : Word :=
  putBit (putBit (putField v mppLsb 2 p.code) mpieBit (v.getLsbD mieBit)) mieBit false

/-- `mstatus` after MRET to mode `p`: `MIE` restored from `MPIE` (R111); `MPIE` set, `MPP` set to U and, where the
new mode is not M, `MPRV` cleared (the base architecture's, log entry 7). -/
def mstatusAfterMret (p : Priv) (v : Word) : Word :=
  let w := putField (putBit (putBit v mieBit (v.getLsbD mpieBit)) mpieBit true) mppLsb 2 Priv.u.code
  if p = .m then w else putBit w mprvBit false

/-- `mstatus` after a trap into S-mode from mode `p` (log entry 7). -/
def mstatusAfterTrapS (p : Priv) (v : Word) : Word :=
  putBit (putBit (putBit v sppBit (p == .s)) spieBit (v.getLsbD sieBit)) sieBit false

/-- The mode SRET returns to (log entry 7). -/
def spp (mstatus : Word) : Priv := if mstatus.getLsbD sppBit then .s else .u

/-- `mstatus` after SRET (log entry 7). -/
def mstatusAfterSret (v : Word) : Word :=
  putBit (putBit (putBit (putBit v sieBit (v.getLsbD spieBit)) spieBit true) sppBit false) mprvBit false

end Sys2Proof.Machine
end

