-- ==== Sys2Proof/Machine/Ops.lean ====
section
/-! DEFINITION. The named operations over registers, the pc, free values and the history of fences; taking an
exception, once, and the return from one. -/

namespace Sys2Proof.Machine

/-- A value cut to `XLEN` bits (R15, R16). -/
def wrapX : Xlen → Word → Word
  | .rv32, v => v &&& 0xFFFFFFFF#64
  | .rv64, v => v

/-- Go on with the next state, or stop as the first part stopped. -/
def andThen (o : Host.Outcome State Fault Refusal) (k : State → Host.Outcome State Fault Refusal) :
    Host.Outcome State Fault Refusal :=
  match o with
  | .next s => k s
  | .fault f => .fault f
  | .refused r => .refused r

/-- Replace the moving hart. -/
def setHart (h : Hart) (s : State) : State := { s with hart := h }

/-- The integer register `x[r]`; `x0` reads as zero (R15). -/
def readReg (s : State) (r : RegIdx) : Word := if r = 0 then 0 else s.hart.x[r.toNat]'r.isLt

/-- Write `x[r]`; a write to `x0` is discarded (R15). -/
def setReg (r : RegIdx) (v : Word) (s : State) : State :=
  if r = 0 then s else setHart { s.hart with x := s.hart.x.set r.toNat (wrapX s.cfg.xlen v) r.isLt } s

/-- Set the pc. -/
def setPc (v : Word) (s : State) : State := setHart { s.hart with pc := wrapX s.cfg.xlen v } s

/-- Advance the pc past an instruction of `len` bytes, modulo `2^XLEN` (R16). -/
def advancePc (len : Word) (s : State) : State := setPc (s.hart.pc + len) s

/-- Count one tick of free values. -/
def nextTick (s : State) : State := { s with tick := s.tick + 1 }

/-- The free number of this tick at a place. -/
def free (s : State) (place : List Nat) : Nat := Config.freeNat s.tick place

/-- One element of the non-empty list `a :: l`, the one that `k` picks; `a` where there is no other. -/
def pick {α : Type} (k : Nat) (a : α) (l : List α) : α :=
  match l with
  | [] => a
  | b :: l' => (a :: b :: l').getD (k % (l'.length + 2)) a

/-- The present time of the moving hart's history (R73). -/
def now (s : State) : Horizon := { mem := s.memPast.length, mttp := s.hart.mttpPast.length }

/-- Record `fence(sel) completed` for each of some selectors, with the time `t` that they set (R90, R99). One of every
SDID and address ends what reset left unspecified (R22, log entry 14). -/
def recordFences (sels : List Selector) (t : Horizon) (s : State) : State :=
  setHart { s.hart with
    fences    := sels.map (fun sel => { sel := sel, time := t }) ++ s.hart.fences
    resetOver := s.hart.resetOver || sels.contains .all } s

/-- Record `fence(sel) completed` for an MFENCE.SPA (R90). -/
def recordFence (sel : Selector) (t : Horizon) (s : State) : State := recordFences [sel] t s

/-- Append a pending invalidation (R97). -/
def addPending (sel : Selector) (s : State) : State :=
  setHart { s.hart with pending := { sel := sel, afterMark := s.hart.wInval.isSome } :: s.hart.pending } s

/-- Mark `w_inval` at this point: no invalidation that is already pending stands after the latest mark (R98, R99). -/
def markWInval (s : State) : State :=
  setHart { s.hart with
    wInval := some (now s)
    pending := s.hart.pending.map (fun p => { p with afterMark := false }) } s

/-- The invalidations that SFENCE.INVAL.IR completes: those after the latest mark (R99). -/
def coveredInvals (h : Hart) : List Selector := (h.pending.filter (fun p => p.afterMark)).map (fun p => p.sel)

/-- Forget the pending invalidations (R99). -/
def clearPending (s : State) : State := setHart { s.hart with pending := [] } s

/-- Record a fence for each covered invalidation, at the mark's time, with all that a completed fence does (R99, R100), and
clear the pending ones. -/
def closeInvals (s : State) : State :=
  match s.hart.wInval with
  | none => clearPending s
  | some t => clearPending (recordFences (coveredInvals s.hart) t s)

/-- Replace `mttp`, keeping the old value in the history; nothing is invalidated (R12, R77). -/
def putMttp (m : Mttp) (s : State) : State :=
  setHart { s.hart with mttp := m, mttpPast := s.hart.mttp :: s.hart.mttpPast } s

/-- The mode in `MPP`: the one its bits name, and a free one where they name none (R13, log entry 21). -/
def mppMode (s : State) : Priv := (mpp s.hart.mstatus).getD (pick (free s [10]) .u [.s, .m])

/-- Count a tick where the mode in `MPP` is drawn. -/
def tickMpp (s : State) : State := if mpp s.hart.mstatus = none then nextTick s else s

/-- Write `mstatus`. Where the new value would name no mode in `MPP`, that field takes a free one (R13, log entry 21). -/
def putMstatus (v : Word) (s : State) : State :=
  if mpp v = none then
    nextTick (setHart { s.hart with mstatus := putField v mppLsb 2 (pick (free s [10]) Priv.u [.s, .m]).code } s)
  else setHart { s.hart with mstatus := v } s

/-- The exception codes of R103. -/
def causeInstrAccess : Word := 1
/-- Illegal instruction (R103). -/
def causeIllegal : Word := 2
/-- Load access-fault (R103). -/
def causeLoadAccess : Word := 5
/-- Store/AMO access-fault (R103). -/
def causeStoreAccess : Word := 7

/-- The handler's address in a trap vector register: its base, the two low bits cleared (R111, log entry 7). -/
def vectorBase (v : Word) : Word := v &&& ~~~3#64

/-- `Trap(cause, tval)` into M-mode (R111): the pc in `mepc`, the cause in `mcause`, `tval` in `mtval`, the status as
`mstatusAfterTrapM` says, M-mode, the pc from `mtvec`. -/
def trapM (cause tval : Word) (s : State) : State :=
  setHart { s.hart with
    mepc    := s.hart.pc
    mcause  := wrapX s.cfg.xlen cause
    mtval   := wrapX s.cfg.xlen tval
    mstatus := mstatusAfterTrapM s.hart.priv s.hart.mstatus
    priv    := .m
    pc      := vectorBase s.hart.mtvec } s

/-- The same into S-mode, where `MTT_FAULT_TARGET` is `medeleg` (R107, log entry 7). -/
def trapS (cause tval : Word) (s : State) : State :=
  setHart { s.hart with
    sepc    := s.hart.pc
    scause  := wrapX s.cfg.xlen cause
    stval   := wrapX s.cfg.xlen tval
    mstatus := mstatusAfterTrapS s.hart.priv s.hart.mstatus
    priv    := .s
    pc      := vectorBase s.hart.stvec } s

/-- An access-fault goes to S-mode only where `MTT_FAULT_TARGET` is `medeleg`, the hart runs below M-mode and
`medeleg` has the cause's bit; otherwise M-mode takes it, whatever `medeleg` says (R106, R107). -/
def delegated (s : State) (cause : Word) : Bool :=
  s.cfg.faultTarget == .medeleg && s.hart.priv != .m && s.hart.medeleg.getLsbD cause.toNat

/-- Take an access-fault (R102, R106). -/
def trapAccessFault (cause tval : Word) (s : State) : State :=
  if delegated s cause then trapS cause tval s else trapM cause tval s

/-- Raise illegal-instruction: cause 2, the trap value the instruction bits or 0 (R94, R103). -/
def raiseIllegal (bits : Word) (s : State) : State :=
  nextTick (trapM causeIllegal (pick (free s [0]) bits [0]) s)

/-- Return from a trap into M-mode: the pc from `mepc`, the mode from `MPP`, the status as `mstatusAfterMret` says
(R111). -/
def returnM (p : Priv) (s : State) : State :=
  setHart { s.hart with
    priv    := p
    mstatus := mstatusAfterMret p s.hart.mstatus
    pc      := s.hart.mepc } s

/-- Return from a trap into S-mode (log entry 7). -/
def returnS (s : State) : State :=
  setHart { s.hart with
    priv    := spp s.hart.mstatus
    mstatus := mstatusAfterSret s.hart.mstatus
    pc      := s.hart.sepc } s

end Sys2Proof.Machine
end

