-- ==== Sys2Proof/Machine/Operands.lean ====
section
/-! DEFINITION. The operand forms of MFENCE.SPA and MINVAL.SPA: from two register specifiers to what the fence names
(R85, R91, R96). -/

namespace Sys2Proof.Machine

/-- Physical page number of a physical address (R24). -/
def pageOf (a : Nat) : Nat := a / 4096

/-- `PA(v)`: the physical address that a register value stands for under `PADDR_FMT` (R96). -/
def paddrOf (c : Config) (v : Word) : Nat := v.toNat * 2 ^ c.paddrShift

/-- The SDID operand: the low `SDID_WIDTH` bits of `x[rs2]`, nothing where a higher bit is set (R85, D25). -/
def sdidOperand (s : State) (rs2 : RegIdx) : Option Word :=
  if (readReg s rs2).toNat < 2 ^ s.cfg.sdidWidth then some (readReg s rs2) else none

/-- `Selector(rs1, rs2)` (R91). The specifiers decide the form, not the values (R85). -/
def selector (s : State) (rs1 rs2 : RegIdx) : Except Refusal Selector :=
  if rs2 = 0 then
    if rs1 = 0 then .ok .all
    else match s.cfg.paAllSd with
      | .refuse      => .error .paddrWithoutSdid
      | .everyDomain => .ok (.pageAll (pageOf (paddrOf s.cfg (readReg s rs1))))
      | .everything  => .ok .all
  else match sdidOperand s rs2 with
    | none => .error .sdidTooWide
    | some sdid =>
      if rs1 = 0 then .ok (.domain sdid)
      else .ok (.page sdid (pageOf (paddrOf s.cfg (readReg s rs1))))

/-- The pair (SDID, address) is one the selector matches (R91). -/
def Selector.matches (sel : Selector) (sdid : Word) (a : Nat) : Bool :=
  match sel with
  | .all => true
  | .domain d => d == sdid
  | .page d p => d == sdid && p == pageOf a
  | .pageAll p => p == pageOf a

end Sys2Proof.Machine
end

