-- ==== Sys2Proof/Machine/Check.lean ====
section
/-! DEFINITION. What a check may see (R73) and the check itself (R66, R67, R70, R71). A place where the spec admits
several values draws a free number (log entry 4). -/

namespace Sys2Proof.Machine

/-- The later of two times, each part by itself (both only grow). -/
def Horizon.max (s t : Horizon) : Horizon := { mem := Nat.max s.mem t.mem, mttp := Nat.max s.mttp t.mttp }

/-- `t0` of R73: the latest time that a matching fence of the hart set; none where no fence matched since reset. A fence
of one page sets it whole, for the `mttp` values as for the table words of that page, as R73 and R90 say of every pair a
selector matches; R77 and R119 ask software for the form with `rs1 = x0` after a change of MODE (log entry 35). -/
def latestFence : List FenceRecord → Word → Nat → Option Horizon
  | [], _, _ => none
  | f :: fs, sdid, a =>
    if f.sel.matches sdid a then
      match latestFence fs sdid a with
      | none => some f.time
      | some t => some (Horizon.max f.time t)
    else latestFence fs sdid a

/-- The earlier contents of memory that a check may still see. -/
def visiblePast (s : State) (t0 : Option Horizon) : List Memory :=
  match t0 with
  | none => s.memPast
  | some t => s.memPast.take (s.memPast.length - t.mem)

/-- The earlier values of `mttp` that a check for `sdid` may still be made with: those the hart held since `t0` with
that SDID (`MttpView`, R73). -/
def visibleMttp (s : State) (t0 : Option Horizon) (sdid : Word) : List Mttp :=
  (match t0 with
   | none => s.hart.mttpPast
   | some t => s.hart.mttpPast.take (s.hart.mttpPast.length - t.mttp)).filter (fun m => m.sdid == sdid)

/-- A value of `mttp` that an unspecified cache may hold after reset (R22). -/
def arbitraryMttp (s : State) (place : List Nat) (sdid : Word) : Mttp where
  mode := pick (free s (0 :: place)) .bare s.cfg.supportedModes
  sdid := sdid
  ppn  := BitVec.ofNat 44 (free s (1 :: place))

/-- The `mttp` value a check is made with: one of `MttpView` (R73), and any until the first fence of every SDID and
address after reset (R22, R100). -/
def chooseMttp (s : State) (place : List Nat) (t0 : Option Horizon) : Mttp :=
  let held := pick (free s (2 :: place)) s.hart.mttp (visibleMttp s t0 s.hart.mttp.sdid)
  if s.hart.resetOver || free s (3 :: place) % 2 == 0 then held else arbitraryMttp s place s.hart.mttp.sdid

/-- `MTTRead`: one of the values the aligned word held since `t0` (R73), and any until the first fence of every SDID
and address after reset (R22, R100). -/
def mttRead (s : State) (place : List Nat) (t0 : Option Horizon) (a : Nat) : Word :=
  let held := pick (free s (4 :: place)) (s.mem.readEntry s.cfg a)
    ((visiblePast s t0).map (fun m => m.readEntry s.cfg a))
  if s.hart.resetOver || free s (5 :: place) % 2 == 0 then held else BitVec.ofNat 64 (free s (6 :: place))

/-- `PMPCheck(a, n, type, mode)` of the environment (00_scope.md section 5): no rule denies a byte of the access. -/
def pmpAllows (h : Hart) (a n : Nat) (t : AccessType) (mode : Priv) : Bool :=
  !h.pmp.any (fun d => d.type == t && d.mode == mode && Region.meets d.range a n)

/-- May the hart read the MTT entry at `a`: its address is below `2^56` (R28), the PMP allows it as an implicit M-mode
read (R66), and it lies in no device (R76). -/
def entryAllowed (s : State) (a : Nat) : Except EntryStop Unit :=
  if addressLimit ≤ a then .error .beyond
  else if !pmpAllows s.hart a 8 .read .m then .error .pmp
  else if isDevice s.cfg a 8 then .error .device
  else .ok ()

/-- The place of a level's draw. -/
def Level.place : Level → Nat
  | .l3 => 3
  | .l2 => 2
  | .l1 => 1

/-- The entry reader of a check (R71). -/
def checkReader (s : State) (place : List Nat) (t0 : Option Horizon) : EntryReader := fun level a =>
  match entryAllowed s a with
  | .error e => .error e
  | .ok _ => .ok (mttRead s (level.place :: place) t0 a)

/-- The entry reader that sees the present contents of memory only. -/
def presentReader (s : State) : EntryReader := fun _ a =>
  match entryAllowed s a with
  | .error e => .error e
  | .ok _ => .ok (s.mem.readEntry s.cfg a)

/-- The outcome of a check: PASS, FAIL, or no meaning. -/
inductive CheckOut where
  | pass
  | fail
  | refuse (r : Refusal)
  deriving DecidableEq, Repr

/-- How a check treats `UNSPEC`: must-be-zero fields as `MBZ_POLICY` says (D15), the others refused (D16, D17). -/
def treatUnspec (c : Config) (why : UnspecReason) : CheckOut :=
  match why with
  | .zeroNonzero | .infoNonzero =>
    match c.mbzPolicy with
    | .violation => .fail
    | .refuse | .ignore => .refuse (.unspecLookup why)
  | .group1gMixed | .perm2m10 => .refuse (.unspecLookup why)

/-- From a lookup to the outcome of the check for a type of access (R59, R60, R67, R71). -/
def judge (c : Config) (t : AccessType) (r : Except EntryStop LookupResult) : CheckOut :=
  match r with
  | .error .pmp => .fail
  | .error .beyond => .refuse .entryBeyondSpace
  | .error .device => .refuse .entryInDevice
  | .ok (.unspec why) => treatUnspec c why
  | .ok x => if passes c x t then .pass else .fail

/-- The check of one page at its first touched byte `a`, with a value of `mttp`, an entry reader, and the memories in
which the 1 GiB groups must be uniform (R61, R71). -/
def judgeWith (c : Config) (m : Mttp) (rd : EntryReader) (mems : List Memory) (a : Nat) (t : AccessType) : CheckOut :=
  if m.mode = .bare then .pass
  else judge c t (lookup c m.mode.family m.mode.paw m.ppn.toNat a rd
    (fun ppn2 i => mems.any (fun mem => groupMixed c m.mode.family mem ppn2 i)))

/-- The check of one page as R71 and R73 allow it to come out. -/
def checkPage (s : State) (place : List Nat) (a : Nat) (t : AccessType) : CheckOut :=
  let t0 := latestFence s.hart.fences s.hart.mttp.sdid a
  judgeWith s.cfg (chooseMttp s (0 :: place) t0) (checkReader s place t0) (s.mem :: visiblePast s t0) a t

/-- The check of one page with the present `mttp` and the present memory only: what a check is once everything is
fenced (R73). -/
def checkPageExact (s : State) (a : Nat) (t : AccessType) : CheckOut :=
  judgeWith s.cfg s.hart.mttp (presentReader s) [s.mem] a t

/-- The first byte of `[p, p+n)` in each 4 KiB page it touches, for accesses of at most a page (R70). -/
def touchedPages (p n : Nat) : List Nat :=
  if p % 4096 + n > 4096 then [p, (p / 4096 + 1) * 4096] else [p]

/-- The first outcome that is not PASS. -/
def firstBad : List CheckOut → CheckOut
  | [] => .pass
  | .pass :: l => firstBad l
  | o :: _ => o

/-- `MTTCheck` (R71). -/
def mttCheck (s : State) (place : List Nat) (p n : Nat) (t : AccessType) (eff : Priv) : CheckOut :=
  if eff = .m then .pass
  else firstBad ((touchedPages p n).map (fun a => checkPage s (a :: place) a t))

end Sys2Proof.Machine
end

