-- ==== Sys2Proof/Machine/Access.lean ====
section
/-! DEFINITION. The access path of the environment with the MTT inserted (`Access` of R71): the effective privilege
mode, translation and its implicit accesses, the PMP and MTT checks, the exception, and the bytes an access touches. -/

namespace Sys2Proof.Machine

/-- The kind of check an access needs (R59, D14). -/
def AccessKind.type : AccessKind → AccessType
  | .fetch => .fetch
  | .load | .loadReserved => .read
  | .store | .storeConditional | .amo => .write

/-- The cause of the access-fault of an access (R102, R103). -/
def AccessKind.cause : AccessKind → Word
  | .fetch => causeInstrAccess
  | .load | .loadReserved => causeLoadAccess
  | .store | .storeConditional | .amo => causeStoreAccess

/-- The access is made with the mode in `MPP`: a data access in M-mode with `MPRV` set (R63, R64). -/
def usesMpp (h : Hart) (k : AccessKind) : Bool := k != .fetch && h.priv == .m && mprv h.mstatus

/-- The effective privilege mode of an access (R63, R64): the current mode, or the mode in `MPP`. -/
def effectivePriv (s : State) (k : AccessKind) : Priv := if usesMpp s.hart k then mppMode s else s.hart.priv

/-- One piece of an access inside one virtual page: where it is, how much of it, and how it is translated. -/
structure Part where
  va       : Nat
  pa       : Nat
  size     : Nat
  implicit : List Implicit
  raises   : Option Word
  deriving DecidableEq, Repr

/-- `Translate(va, type)` of the environment for one piece (R65). No translation takes place for an access with
effective mode M (R63), and none for a page without an entry. -/
def translatePart (h : Hart) (eff : Priv) (t : AccessType) (va n : Nat) : Part :=
  if eff = .m then { va := va, pa := va, size := n, implicit := [], raises := none }
  else match h.xlate.find? (fun x => x.vpn == va / 4096 && x.type == t) with
    | none => { va := va, pa := va, size := n, implicit := [], raises := none }
    | some x =>
      match x.ends with
      | .page ppn => { va := va, pa := ppn * 4096 + va % 4096, size := n, implicit := x.implicit, raises := none }
      | .raise cause => { va := va, pa := va, size := n, implicit := x.implicit, raises := some cause }

/-- The pieces of an access: one, or two where it crosses the end of a page (R70); addresses wrap at `2^XLEN`. -/
def accessParts (c : Config) (h : Hart) (eff : Priv) (t : AccessType) (va n : Nat) : List Part :=
  if va % 4096 + n > 4096 then
    let first := 4096 - va % 4096
    [translatePart h eff t va first,
     translatePart h eff t (wrapX c.xlen (BitVec.ofNat 64 (va + first))).toNat (n - first)]
  else [translatePart h eff t va n]

/-- How the checks of one piece end. -/
inductive PartOut where
  | ok
  | accessFault
  | raises (cause : Word)
  | refuse (r : Refusal)
  deriving DecidableEq, Repr

/-- The PMP check and the MTT check of one physical access (R71). -/
def checkPhysical (s : State) (place : List Nat) (a n : Nat) (t : AccessType) (pmpMode eff : Priv) : PartOut :=
  if !pmpAllows s.hart a n t pmpMode then .accessFault
  else match mttCheck s place a n t eff with
    | .pass => .ok
    | .fail => .accessFault
    | .refuse r => .refuse r

/-- Does the hardware make this implicit access: a page-table read always, an A or D write only with Svadu (R65, D35). -/
def implicitMade (c : Config) (i : Implicit) : Bool := i.write.isNone || c.hasSvadu

/-- The kind of check an implicit access needs (R65). -/
def implicitType (i : Implicit) : AccessType := if i.write.isSome then .write else .read

/-- The checks of the implicit accesses of one piece, in the order made: PMP as S-mode accesses, the MTT with the
effective mode of the access (R65, R71). -/
def checkImplicits (s : State) (place : List Nat) (eff : Priv) : List Implicit → PartOut
  | [] => .ok
  | i :: is =>
    match checkPhysical s (is.length :: 7 :: place) i.pa i.size (implicitType i) .s eff with
    | .ok => checkImplicits s place eff is
    | o => o

/-- The checks of one piece: its implicit accesses first, then the environment's own exception if the translation
ends in one (R109), then the access itself. -/
def checkPart (s : State) (eff : Priv) (t : AccessType) (p : Part) : PartOut :=
  match checkImplicits s [p.va] eff (p.implicit.filter (implicitMade s.cfg)) with
  | .ok =>
    match p.raises with
    | some cause => .raises cause
    | none => checkPhysical s [8, p.va] p.pa p.size t eff eff
  | o => o

/-- The implicit writes of the pieces of an access that passed every check. -/
def implicitWrites (c : Config) (ps : List Part) : List (Nat × List Byte) :=
  (ps.flatMap (fun p => p.implicit.filter (implicitMade c))).filterMap
    (fun i => i.write.map (fun v => (i.pa, bytesOf i.size v)))

/-- Store a list of pieces, one after another. -/
def storeAll : List (Nat × List Byte) → State → State
  | [], s => s
  | (a, bs) :: l, s => storeAll l (storeBytes a bs s)

/-- The bytes of `data` that belong to each piece. -/
def dataParts (data : List Byte) : List Part → List (Nat × List Byte)
  | [] => []
  | p :: ps => (p.pa, data.take p.size) :: dataParts (data.drop p.size) ps

/-- Of the pieces of a store that failed, the bytes that may have been written: those of the pieces that passed, each
written or not by a free value (R70, D19). `rs` are the outcomes of the pieces, in order. -/
def partialWrites (s : State) : List (PartOut × (Nat × List Byte)) → List (Nat × List Byte)
  | [] => []
  | (.ok, (a, bs)) :: l =>
    ((List.range bs.length).filterMap (fun i =>
      if free s [9, a + i] % 2 = 1 && decide (a + i < addressLimit) && !isDevice s.cfg (a + i) 1
      then some (a + i, [bs.getD i 0]) else none)) ++ partialWrites s l
  | _ :: l => partialWrites s l

/-- How an access ends: the physical pieces it may touch and the state after its checks, a trap taken, or a stop. -/
inductive AccessOut where
  | ok (parts : List Part) (s : State)
  | trap (s : State)
  | fault (f : Fault)
  | refuse (r : Refusal)
  deriving DecidableEq, Repr

/-- The trap value of an access-fault: the effective address, the address of the piece that failed, or 0 (R104, D27). -/
def drawTval (s : State) (ea partVa : Nat) : Word :=
  pick (free s [1]) (BitVec.ofNat 64 ea) [BitVec.ofNat 64 partVa, 0]

/-- An access uses one tick of free values where it is checked, or its effective mode is drawn; any other M-mode access
draws none. -/
def tickFor (k : AccessKind) (eff : Priv) (s : State) : State :=
  if eff = .m ∧ ¬ (usesMpp s.hart k = true ∧ mpp s.hart.mstatus = none) then s else nextTick s

/-- An access whose every check passed: it must lie in the address space and outside devices, and its implicit writes
are made. -/
def finishAccess (s : State) (k : AccessKind) (eff : Priv) (ps : List Part) : AccessOut :=
  let spans := ps.map (fun p => (p.pa, p.size)) ++ (implicitWrites s.cfg ps).map (fun w => (w.1, w.2.length))
  if spans.any (fun x => decide (addressLimit < x.1 + x.2)) then .fault .outsideAddressSpace
  else if spans.any (fun x => isDevice s.cfg x.1 x.2) then .refuse .deviceAccess
  else .ok ps (storeAll (implicitWrites s.cfg ps) (tickFor k eff s))

/-- Memory and its history as they were when the instruction began. -/
def takeBack (start s : State) : State := { s with mem := start.mem, memPast := start.memPast }

/-- The state in which a failed access takes its trap: of all the instruction did, its fetch included, no write of memory
remains (R108, log entry 24) but what R70 leaves open of a store over two pages. -/
def failedAccess (start s : State) (data : List Byte) (ps : List Part) (outs : List PartOut) : State :=
  storeAll (partialWrites s (outs.zip (dataParts data ps))) (takeBack start s)

/-- `Access(h, va, n, type)` (R71), made in the state `s` by an instruction that began in the state `start`. `ea` is the
effective address to report, `data` the bytes a store would write. Where both pieces of an access over two pages fail, the
exception is that of the piece with the lower address: the model's choice, R109 orders only within one translation (log
entry 37). -/
def access (start s : State) (k : AccessKind) (ea va n : Nat) (data : List Byte) : AccessOut :=
  let eff := effectivePriv s k
  let ps := accessParts s.cfg s.hart eff k.type va n
  let outs := ps.map (checkPart s eff k.type)
  match (ps.zip outs).find? (fun x => x.2 != .ok) with
  | none => finishAccess s k eff ps
  | some (p, .accessFault) =>
    .trap (nextTick (trapAccessFault k.cause (drawTval s ea p.va) (failedAccess start s data ps outs)))
  | some (p, .raises cause) =>
    .trap (nextTick (trapM cause (BitVec.ofNat 64 p.va) (failedAccess start s data ps outs)))
  | some (_, .refuse r) => .refuse r
  | some (_, .ok) => finishAccess s k eff ps

/-- The bytes that the pieces of an access hold. -/
def readParts (m : Memory) (ps : List Part) : List Byte := ps.flatMap (fun p => m.readBytes p.pa p.size)

/-- How a fetch ends. -/
inductive FetchOut where
  | ok (bytes : List Byte) (s : State)
  | trap (s : State)
  | fault (f : Fault)
  | refuse (r : Refusal)
  deriving DecidableEq, Repr

/-- The first byte says that the instruction is longer than 16 bits. -/
def isLong (b : Byte) : Bool := b.extractLsb' 0 2 == 0b11#2

/-- Fetch the instruction at the pc: its first 16 bits, and where they say that it is longer the next 16 (R16, R62,
R80, log entry 10). -/
def fetch (s : State) : FetchOut :=
  let pc := s.hart.pc.toNat
  match access s s .fetch pc pc 2 [] with
  | .fault f => .fault f
  | .refuse r => .refuse r
  | .trap s' => .trap s'
  | .ok ps s' =>
    let low := readParts s'.mem ps
    if isLong (low.getD 0 0) then
      match access s s' .fetch pc (wrapX s.cfg.xlen (s.hart.pc + 2)).toNat 2 [] with
      | .fault f => .fault f
      | .refuse r => .refuse r
      | .trap s'' => .trap s''
      | .ok ps' s'' => .ok (low ++ readParts s''.mem ps') s''
    else .ok low s'

end Sys2Proof.Machine
end

