-- ==== Sys2Proof/Machine/Base.lean ====
section
/-! DEFINITION. The environment's part of a run: what a base instruction does to this machine (the accesses the MTT
checks, the CSR `mttp` and the action `WriteMTTP`, the trap registers, the returns from traps), and what the outside
world does between instructions. The base ISA is outside the spec; the rules here are those the spec states of it. -/

namespace Sys2Proof.Machine

/-- Bytes of an access. -/
def Width.bytes : Width → Nat
  | .byte => 1
  | .half => 2
  | .word => 4
  | .double => 8

/-- The value a load of some bytes leaves in a register. -/
def loadedValue (signed : Bool) (bs : List Byte) : Word :=
  let n := 8 * bs.length
  if signed then ((BitVec.ofNat n (natOfBytes bs)).signExtend 64) else BitVec.ofNat 64 (natOfBytes bs)

/-- Make an access and go on from it. A trap taken is the next state; a stop stops. -/
def afterAccess (o : AccessOut) (k : List Part → State → Host.Outcome State Fault Refusal) :
    Host.Outcome State Fault Refusal :=
  match o with
  | .ok ps s => k ps s
  | .trap s => .next s
  | .fault f => .fault f
  | .refuse r => .refused r

/-- Store `data` into the pieces of an access, the lower page's first, each piece as a store of its own (`storeBytes`): an
access over a page's end lands as two stores, and a naturally aligned one of them lands whole. That is the model's choice;
R115 says that a write in pieces exposes intermediate values and gives no rule for them (log entry 9). -/
def writeParts (data : List Byte) (ps : List Part) (s : State) : State := storeAll (dataParts data ps) s

/-- A load or load-reserved: checked as a read (R59); a failing one writes no register (R68). -/
def runLoad (start : State) (reserved : Bool) (rd : RegIdx) (va : Word) (n : Nat) (signed : Bool) (len : Word)
    (s : State) : Host.Outcome State Fault Refusal :=
  let a := (wrapX s.cfg.xlen va).toNat
  afterAccess (access start s (if reserved then .loadReserved else .load) a a n []) fun ps s' =>
    .next (advancePc len (setReg rd (loadedValue signed (readParts s'.mem ps)) s'))

/-- A store: checked as a write (R59); a failing one writes no memory, but for R70. -/
def runStore (start : State) (va : Word) (n : Nat) (v : Word) (len : Word) (s : State) :
    Host.Outcome State Fault Refusal :=
  let a := (wrapX s.cfg.xlen va).toNat
  let data := bytesOf n v.toNat
  afterAccess (access start s .store a a n data) fun ps s' => .next (advancePc len (writeParts data ps s'))

/-- A store-conditional: checked as a write whether or not it succeeds (D14). -/
def runStoreConditional (start : State) (rd : RegIdx) (va : Word) (n : Nat) (v : Word) (holds : Bool) (len : Word)
    (s : State) : Host.Outcome State Fault Refusal :=
  let a := (wrapX s.cfg.xlen va).toNat
  let data := if holds then bytesOf n v.toNat else []
  afterAccess (access start s .storeConditional a a n data) fun ps s' =>
    if holds then .next (advancePc len (setReg rd 0 (writeParts data ps s')))
    else .next (advancePc len (setReg rd 1 s'))

/-- An atomic memory operation: checked as a write whether or not the value changes (D14). -/
def runAmo (start : State) (rd : RegIdx) (va : Word) (n : Nat) (new : Word) (len : Word) (s : State) :
    Host.Outcome State Fault Refusal :=
  let a := (wrapX s.cfg.xlen va).toNat
  let data := bytesOf n new.toNat
  afterAccess (access start s .amo a a n data) fun ps s' =>
    .next (advancePc len (setReg rd (loadedValue true (readParts s'.mem ps)) (writeParts data ps s')))

/-- The CSRs a base CSR instruction reaches: `mttp` under `MTTP_CSR_ADDR`, `mstatus` under 0x300 (93 G33), the trap
registers under the base architecture's numbers (log entry 7). -/
inductive Csr where
  | mttp
  | mstatus
  | mepc
  | mcause
  | mtval
  | mtvec
  | medeleg
  | sepc
  | scause
  | stval
  | stvec
  deriving DecidableEq, Repr

/-- The CSR of a number. -/
def csrOfNumber (c : Config) (n : BitVec 12) : Option Csr :=
  if n = c.mttpCsrAddr then some .mttp
  else if n = 0x300#12 then some .mstatus
  else if n = 0x341#12 then some .mepc
  else if n = 0x342#12 then some .mcause
  else if n = 0x343#12 then some .mtval
  else if n = 0x305#12 then some .mtvec
  else if n = 0x302#12 then some .medeleg
  else if n = 0x141#12 then some .sepc
  else if n = 0x142#12 then some .scause
  else if n = 0x143#12 then some .stval
  else if n = 0x105#12 then some .stvec
  else none

/-- The CSR may be accessed in the mode: a machine-level CSR in M-mode only (R12), the S-mode trap registers in M and
S. -/
def csrAllowed (r : Csr) (p : Priv) : Bool :=
  match r with
  | .sepc | .scause | .stval | .stvec => p != .u
  | .mttp | .mstatus | .mepc | .mcause | .mtval | .mtvec | .medeleg => p == .m

/-- The numeric code of a mode in `mttp.MODE` (`MODE_ENC`). -/
def modeCode (c : Config) (m : Mode) : Option Nat := (c.modeEnc.find? (fun e => e.1 == m)).map (fun e => e.2)

/-- The mode of a numeric code. -/
def modeOfCode (c : Config) (n : Nat) : Option Mode := (c.modeEnc.find? (fun e => e.2 == n)).map (fun e => e.1)

/-- The value of the register `mttp` for its three fields (`MTTP_LAYOUT`, `MODE_ENC`). Every other bit reads as 0: the
model's choice, the source says nothing of other bits or fields (log entry 34). -/
def packMttp (c : Config) (m : Mttp) : Word :=
  BitVec.ofNat 64 ((modeCode c m.mode).getD 0 * 2 ^ c.modeLsb + m.sdid.toNat * 2 ^ c.sdidLsb +
    m.ppn.toNat * 2 ^ c.ppnLsb)

/-- The three fields of a register value; nothing where MODE holds no code of `MODE_ENC`. Every other bit is dropped: the
model's choice (log entry 34). -/
def unpackMttp (c : Config) (v : Word) : Option Mttp :=
  (modeOfCode c (v.toNat / 2 ^ c.modeLsb % 2 ^ c.modeWidth)).map (fun mode =>
    { mode := mode
      sdid := BitVec.ofNat 64 (v.toNat / 2 ^ c.sdidLsb % 2 ^ c.sdidWidth)
      ppn  := BitVec.ofNat 44 (v.toNat / 2 ^ c.ppnLsb % 2 ^ c.ppnWidth) })

/-- Write the three fields of `mttp` in M-mode: refused for an unsupported mode (R8, D30); otherwise all three are
replaced at once and nothing else happens (R12, R77). The fields keep the bits they have. -/
def writeMttp (mode : Mode) (sdid : Word) (ppn : Ppn) (s : State) : Host.Outcome State Fault Refusal :=
  if s.cfg.supportedModes.contains mode then
    .next (putMttp
      { mode := mode
        sdid := BitVec.ofNat 64 (sdid.toNat % 2 ^ s.cfg.sdidWidth)
        ppn  := BitVec.ofNat 44 (ppn.toNat % 2 ^ s.cfg.ppnWidth) } s)
  else .refused .unsupportedMode

/-- The value of a CSR. -/
def csrRead (s : State) : Csr → Word
  | .mttp    => wrapX s.cfg.xlen (packMttp s.cfg s.hart.mttp)
  | .mstatus => s.hart.mstatus
  | .mepc    => s.hart.mepc
  | .mcause  => s.hart.mcause
  | .mtval   => s.hart.mtval
  | .mtvec   => s.hart.mtvec
  | .medeleg => s.hart.medeleg
  | .sepc    => s.hart.sepc
  | .scause  => s.hart.scause
  | .stval   => s.hart.stval
  | .stvec   => s.hart.stvec

/-- Write a CSR. A write of `mttp` is a write of its three fields (R12). -/
def csrWrite (r : Csr) (v : Word) (s : State) : Host.Outcome State Fault Refusal :=
  match r with
  | .mttp =>
    match unpackMttp s.cfg v with
    | none => .refused .unsupportedMode
    | some m => writeMttp m.mode m.sdid m.ppn s
  | .mstatus => .next (putMstatus v s)
  | .mepc    => .next (setHart { s.hart with mepc := v } s)
  | .mcause  => .next (setHart { s.hart with mcause := v } s)
  | .mtval   => .next (setHart { s.hart with mtval := v } s)
  | .mtvec   => .next (setHart { s.hart with mtvec := v } s)
  | .medeleg => .next (setHart { s.hart with medeleg := v } s)
  | .sepc    => .next (setHart { s.hart with sepc := v } s)
  | .scause  => .next (setHart { s.hart with scause := v } s)
  | .stval   => .next (setHart { s.hart with stval := v } s)
  | .stvec   => .next (setHart { s.hart with stvec := v } s)

/-- The value a CSR instruction writes. -/
def csrNew (op : CsrOp) (old v : Word) : Word :=
  match op with
  | .write => v
  | .set   => old ||| v
  | .clear => old &&& ~~~v

/-- A CSR instruction: illegal-instruction where the mode may not access the CSR (R12); otherwise the old value goes
to `rd` and the new one to the CSR. Setting or clearing no bit is a read and writes nothing. -/
def runCsr (op : CsrOp) (rd : RegIdx) (num : BitVec 12) (v : Word) (bits len : Word) (s : State) :
    Host.Outcome State Fault Refusal :=
  match csrOfNumber s.cfg num with
  | none => .refused .unknownCsr
  | some r =>
    if !csrAllowed r s.hart.priv then .next (raiseIllegal bits s)
    else
      let old := csrRead s r
      let done := fun t => Host.Outcome.next (advancePc len (setReg rd old t))
      if op ≠ .write ∧ v = 0 then done s
      else andThen (csrWrite r (wrapX s.cfg.xlen (csrNew op old v)) s) done

/-- The abstract action `WriteMTTP(MODE, SDID, PPN)` (R12). -/
def runWriteMttp (mode : Mode) (sdid : Word) (ppn : Ppn) (bits len : Word) (s : State) :
    Host.Outcome State Fault Refusal :=
  if s.hart.priv ≠ .m then .next (raiseIllegal bits s)
  else andThen (writeMttp mode sdid ppn s) (fun t => .next (advancePc len t))

/-- MRET: undoes a trap into M-mode (R111). -/
def runMret (bits : Word) (s : State) : Host.Outcome State Fault Refusal :=
  if s.hart.priv ≠ .m then .next (raiseIllegal bits s)
  else .next (returnM (mppMode s) (tickMpp s))

/-- SRET: undoes a trap into S-mode (log entry 7). -/
def runSret (bits : Word) (s : State) : Host.Outcome State Fault Refusal :=
  if s.hart.priv = .u then .next (raiseIllegal bits s) else .next (returnS s)

/-- What a base instruction of `len` bytes does that began in the state `start`; `bits` are its own bits. -/
def runBase (start : State) (op : BaseOp) (bits len : Word) (s : State) : Host.Outcome State Fault Refusal :=
  match op with
  | .advance => .next (advancePc len s)
  | .setReg rd v => .next (advancePc len (setReg rd v s))
  | .jump target => .next (setPc target s)
  | .fence _ => .next (advancePc len s)
  | .load reserved rd va size signed => runLoad start reserved rd va size.bytes signed len s
  | .store va size v => runStore start va size.bytes v len s
  | .storeConditional rd va size v holds => runStoreConditional start rd va size.bytes v holds len s
  | .amo rd va size new => runAmo start rd va size.bytes new len s
  | .csr op rd num v => runCsr op rd num v bits len s
  | .writeMttp mode sdid ppn => runWriteMttp mode sdid ppn bits len s
  | .mret => runMret bits s
  | .sret => runSret bits s
  | .raise cause tval => .next (trapM cause tval s)

/-- The hart at place `k` among the others takes the place of the moving hart, and the moving hart its place. -/
def switchHart (k : Nat) (s : State) : Host.Outcome State Fault Refusal :=
  match s.others[k]? with
  | none => .refused .noSuchHart
  | some h => .next { s with hart := h, others := s.others.set k s.hart }

/-- A store by an agent that is no modelled hart (R73, R78, R115). -/
def externalStore (a : Nat) (bs : List Byte) (s : State) : Host.Outcome State Fault Refusal :=
  if addressLimit < a + bs.length then .fault .outsideAddressSpace
  else if isDevice s.cfg a bs.length then .refused .deviceAccess
  else .next (storeBytes a bs s)

/-- What an event does. -/
def runEvent (e : Event) (s : State) : Host.Outcome State Fault Refusal :=
  match e with
  | .switchHart k => switchHart k s
  | .externalStore a bs => externalStore a bs s
  | .environment pmp xlate => .next (setHart { s.hart with pmp := pmp, xlate := xlate } s)
  | .program ops => .next (setHart { s.hart with baseOps := ops } s)
  | .reset => .next (setHart (Hart.reset s.cfg) s)

/-- Take the next event off the queue. -/
def popEvent (s : State) : State := { s with events := s.events.tail }

/-- Take the next base operation off the moving hart's list. -/
def popBaseOp (s : State) : State := setHart { s.hart with baseOps := s.hart.baseOps.tail } s

/-- What the step does with bytes that are none of the four instructions: refused where they have the shape of one
(R88, D32); otherwise the next operation the environment names, and refused where it names none. The instruction began in
the state `start`. -/
def runUndecoded (start : State) (e : DecodeError) (bytes : List Byte) (s : State) : Host.Outcome State Fault Refusal :=
  if e = .nearShape then .refused .nearShape
  else match s.hart.baseOps with
    | [] => .refused .outsideSpec
    | op :: _ => runBase start op (BitVec.ofNat 64 (natOfBytes bytes)) (BitVec.ofNat 64 bytes.length) (popBaseOp s)

end Sys2Proof.Machine
end

