-- ==== Sys2Proof/Machine/Fence.lean ====
section
/-! DEFINITION. The meaning of MFENCE.SPA (R90 to R96). -/

namespace Sys2Proof.Machine

/-- The bits of an instruction as a trap value (R94). -/
def instrBits (c : Config) (i : Instr) : Word := (encode c i).setWidth 64

/-- `MFENCE.SPA rs1, rs2` (R90): illegal-instruction below M-mode (R94); otherwise the fence the operands name is
recorded as completed now, so that every store already visible and every earlier write of `mttp` is ordered before
the checks it matches (R92), and the pc advances by 4. -/
def execMfenceSpa (rs1 rs2 : RegIdx) (s : State) : Host.Outcome State Fault Refusal :=
  if s.hart.priv ≠ .m then .next (raiseIllegal (instrBits s.cfg (.mfenceSpa rs1 rs2)) s)
  else match selector s rs1 rs2 with
    | .error r => .refused r
    | .ok sel => .next (advancePc 4 (recordFence sel (now s) s))

end Sys2Proof.Machine
end

