-- ==== Sys2Proof/Machine/Invalidate.lean ====
section
/-! DEFINITION. The meanings of MINVAL.SPA, SFENCE.W.INVAL and SFENCE.INVAL.IR, the batched sequence (R97 to R101). -/

namespace Sys2Proof.Machine

/-- `MINVAL.SPA rs1, rs2` (R97): refused without Svinval (R101); illegal-instruction below M-mode; otherwise the
selector joins the pending invalidations and the pc advances by 4. No check sees a difference yet. -/
def execMinvalSpa (rs1 rs2 : RegIdx) (s : State) : Host.Outcome State Fault Refusal :=
  if !s.cfg.hasSvinval then .refused .noSvinval
  else if s.hart.priv ≠ .m then .next (raiseIllegal (instrBits s.cfg (.minvalSpa rs1 rs2)) s)
  else match selector s rs1 rs2 with
    | .error r => .refused r
    | .ok sel => .next (advancePc 4 (addPending sel s))

/-- `SFENCE.W.INVAL` (R98): refused without Svinval; illegal-instruction in U-mode; otherwise the history is marked at
this point and the pc advances by 4. -/
def execSfenceWInval (s : State) : Host.Outcome State Fault Refusal :=
  if !s.cfg.hasSvinval then .refused .noSvinval
  else if s.hart.priv = .u then .next (raiseIllegal (instrBits s.cfg .sfenceWInval) s)
  else .next (advancePc 4 (markWInval s))

/-- `SFENCE.INVAL.IR` (R99): refused without Svinval; illegal-instruction in U-mode; otherwise every invalidation
appended after the latest mark is recorded as a fence completed at the mark's time, the pending invalidations are
cleared, and the pc advances by 4. -/
def execSfenceInvalIr (s : State) : Host.Outcome State Fault Refusal :=
  if !s.cfg.hasSvinval then .refused .noSvinval
  else if s.hart.priv = .u then .next (raiseIllegal (instrBits s.cfg .sfenceInvalIr) s)
  else .next (advancePc 4 (closeInvals s))

end Sys2Proof.Machine
end

