-- ==== Sys2Proof/Machine/Dispatch.lean ====
section
/-! DEFINITION. From an instruction to its meaning, one arm for each constructor of Instr. -/

namespace Sys2Proof.Machine

def exec (i : Instr) (s : State) : Host.Outcome State Fault Refusal :=
  match i with
  | .mfenceSpa rs1 rs2 => Sys2Proof.Machine.execMfenceSpa rs1 rs2 s
  | .minvalSpa rs1 rs2 => Sys2Proof.Machine.execMinvalSpa rs1 rs2 s
  | .sfenceWInval => Sys2Proof.Machine.execSfenceWInval s
  | .sfenceInvalIr => Sys2Proof.Machine.execSfenceInvalIr s

end Sys2Proof.Machine
end

