-- ==== Sys2Proof/Machine/Step.lean ====
section
/-! DEFINITION. One step: an event of the outside world where one waits, else the fetch of the instruction at the pc
(itself a checked access, R62) and its meaning. -/

namespace Sys2Proof.Machine

/-- One step of the machine. -/
def step (s : State) : Host.Outcome State Fault Refusal :=
  match s.events with
  | e :: _ => runEvent e (popEvent s)
  | [] =>
    match fetch s with
    | .trap s' => .next s'
    | .fault f => .fault f
    | .refuse r => .refused r
    | .ok bytes s' =>
      match decode s'.cfg bytes with
      | .ok (i, _) => exec i s'
      | .error e => runUndecoded s e bytes s'

/-- `s` with an instruction stored where an M-mode step fetches next, the bytes at the pc, and no event before it. The
bits are numbered as spec/opcode_table.json numbers them. This stands for the load of a program from outside, which is
no store of the machine's, so the history of memory does not grow (log entry 11). -/
def State.withFetchWord (s : State) (nbits w : Nat) : State :=
  { s with mem := s.mem.writeBytes s.hart.pc.toNat (tableBytes nbits w), events := [] }

end Sys2Proof.Machine
end

