-- ==== Sys2Proof/WellFormed.lean ====
section
/-! DEFINITION. When parameter values are ones the spec allows, and when an instruction is one that the hart has and
whose operand form the spec lists. -/

namespace Sys2Proof

/-- The number of bits of an integer register. -/
def Xlen.bits : Xlen → Nat
  | .rv32 => 32
  | .rv64 => 64

/-- `SUPPORTED_MODES` contains `Bare` (00_scope.md section 4, D3). -/
def Config.bareSupported (c : Config) : Bool := c.supportedModes.contains .bare

/-- The values of funct7 that the privileged architecture uses under SYSTEM with funct3 000 (30_encoding.md section
5 names five of them; `0000000`, the row of ECALL and EBREAK, is the model's addition, log entry 3). -/
def usedFunct7 : List (BitVec 7) :=
  [0b0000000#7, 0b0001000#7, 0b0001001#7, 0b0001011#7, 0b0001100#7, 0b0011000#7]

/-- The two open funct7 values differ from each other (30_encoding.md section 5). -/
def Config.funct7Distinct (c : Config) : Bool := c.funct7Mfence != c.funct7Minval

/-- Neither open funct7 value is one already used (30_encoding.md section 5). -/
def Config.funct7Free (c : Config) : Bool :=
  !usedFunct7.contains c.funct7Mfence && !usedFunct7.contains c.funct7Minval

/-- The fields of `mttp` lie inside the register and do not overlap (R7). -/
def Config.layoutFits (c : Config) : Bool :=
  let fields := [(c.modeLsb, c.modeWidth), (c.sdidLsb, c.sdidWidth), (c.ppnLsb, c.ppnWidth)]
  fields.all (fun f => decide (f.1 + f.2 ≤ c.xlen.bits)) &&
  fields.Pairwise (fun f g => f.1 + f.2 ≤ g.1 ∨ g.1 + g.2 ≤ f.1)

/-- The PPN field is at most the model's 44 bits and at least `PAW - 12` bits for every supported mode (R10). -/
def Config.ppnFits (c : Config) : Bool :=
  decide (c.ppnWidth ≤ 44) && c.supportedModes.all (fun m => decide (m.paw - 12 ≤ c.ppnWidth))

/-- Every supported mode has a code that fits the MODE field (R8). -/
def Config.modesEncoded (c : Config) : Bool :=
  c.supportedModes.all (fun m => c.modeEnc.any (fun e => e.1 == m && decide (e.2 < 2 ^ c.modeWidth)))

/-- No two rows of `MODE_ENC` share a mode or a code (R8). -/
def Config.codesDistinct (c : Config) : Bool :=
  decide (c.modeEnc.Pairwise (fun e f => e.1 ≠ f.1 ∧ e.2 ≠ f.2))

/-- There is at least one hart (R114). -/
def Config.hasHart (c : Config) : Bool := decide (0 < c.nharts)

/-- The reset value of `mttp` holds a supported mode, and an SDID and a PPN of their fields' widths (R22). -/
def Config.resetLegal (c : Config) : Bool :=
  c.supportedModes.contains c.mttpReset.mode && decide (c.mttpReset.sdid.toNat < 2 ^ c.sdidWidth) &&
  decide (c.mttpReset.ppn.toNat < 2 ^ c.ppnWidth)

/-- Parameter values the spec allows. -/
def Config.wf (c : Config) : Bool :=
  c.bareSupported && c.funct7Distinct && c.funct7Free && c.layoutFits && c.ppnFits && c.modesEncoded &&
  c.codesDistinct && c.hasHart && c.resetLegal

/-- The hart has the instruction: the three instructions of 41_minval_spa.md exist only where Svinval does (R101). -/
def Instr.available (c : Config) : Instr → Bool
  | .mfenceSpa _ _ => true
  | .minvalSpa _ _ => c.hasSvinval
  | .sfenceWInval  => c.hasSvinval
  | .sfenceInvalIr => c.hasSvinval

/-- The operand form is one of the three scopes the source lists, or the parameter gives the fourth one a meaning
(R91, `MFENCE_PA_ALLSD`). -/
def Instr.formListed (c : Config) : Instr → Bool
  | .mfenceSpa rs1 rs2 => rs1 == 0 || rs2 != 0 || c.paAllSd != .refuse
  | .minvalSpa rs1 rs2 => rs1 == 0 || rs2 != 0 || c.paAllSd != .refuse
  | .sfenceWInval  => true
  | .sfenceInvalIr => true

/-- An instruction of this hart in an operand form with a meaning. -/
def Instr.wf (c : Config) (i : Instr) : Bool := i.available c && i.formListed c

end Sys2Proof
end

