-- ==== Sys2Proof/Safety.lean ====
section
/-! DEFINITION. What a legal state is, in the terms the claims use: the invariant that every step keeps, where the pieces of
an access lie and when one passes, and runs of instructions one after another. -/

namespace Sys2Proof.Machine

/-- A value of `mttp` the hart can hold: a supported mode, and an SDID and a PPN of their fields' widths (R8 to R10). -/
def Mttp.Legal (c : Config) (m : Mttp) : Prop :=
  m.mode ∈ c.supportedModes ∧ m.sdid.toNat < 2 ^ c.sdidWidth ∧ m.ppn.toNat < 2 ^ c.ppnWidth

/-- A value fits `XLEN` bits (R15, R16). -/
def Fits (c : Config) (v : Word) : Prop := wrapX c.xlen v = v

/-- What holds of each hart, `n` being the length of the history of memory. -/
structure Hart.Legal (c : Config) (n : Nat) (h : Hart) : Prop where
  /-- Registers are `XLEN` bits wide (R15). -/
  regs     : ∀ r : Fin 32, Fits c h.x[r]
  pc       : Fits c h.pc
  mepc     : Fits c h.mepc
  mcause   : Fits c h.mcause
  mtval    : Fits c h.mtval
  mtvec    : Fits c h.mtvec
  medeleg  : Fits c h.medeleg
  sepc     : Fits c h.sepc
  scause   : Fits c h.scause
  stval    : Fits c h.stval
  stvec    : Fits c h.stvec
  /-- `MPP` names a mode (R13). -/
  mppNamed : mpp h.mstatus ≠ none
  /-- `mttp` and every earlier value of it are ones the register can hold (R8). -/
  mttp     : Mttp.Legal c h.mttp
  mttpPast : ∀ m ∈ h.mttpPast, Mttp.Legal c m
  /-- No fence and no mark lies in the future (R73, R98). -/
  fences   : ∀ f ∈ h.fences, f.time.mem ≤ n ∧ f.time.mttp ≤ h.mttpPast.length
  mark     : ∀ t, h.wInval = some t → t.mem ≤ n ∧ t.mttp ≤ h.mttpPast.length
  /-- Once what reset left unspecified is over, some fence matches every pair (R22, R73). -/
  swept    : h.resetOver = true → ∃ f ∈ h.fences, f.sel = .all
  /-- An invalidation counted as after a mark has one before it (R97, R99). -/
  covered  : ∀ p ∈ h.pending, p.afterMark = true → h.wInval ≠ none

/-- The invariant of the machine. -/
structure State.Inv (s : State) : Prop where
  cfgWf   : s.cfg.wf = true
  memWf   : s.mem.wf = true
  pastWf  : ∀ m ∈ s.memPast, Memory.wf m = true
  hart    : Hart.Legal s.cfg s.memPast.length s.hart
  others  : ∀ h ∈ s.others, Hart.Legal s.cfg s.memPast.length h
  nharts  : s.others.length + 1 = s.cfg.nharts

/-- The virtual addresses of an access of `n` bytes, as (first, size), one span in each 4 KiB page (R70). -/
def spans (c : Config) (va n : Nat) : List (Nat × Nat) :=
  if va % 4096 + n ≤ 4096 then [(va, n)]
  else [(va, 4096 - va % 4096),
        ((wrapX c.xlen (BitVec.ofNat 64 (va + (4096 - va % 4096)))).toNat, n - (4096 - va % 4096))]

/-- The piece `p` of an access lies where the environment's translation puts it, which ends in no exception of its own:
at its virtual address where none takes place (R63), else in the physical page that the translation names (R62, R65). -/
def Part.Lies (s : State) (k : AccessKind) (eff : Priv) (p : Part) : Prop :=
  p.raises = none ∧
  ((p.pa = p.va ∧ p.implicit = [] ∧
      (eff = .m ∨ s.hart.xlate.find? (fun x => x.vpn == p.va / 4096 && x.type == k.type) = none)) ∨
    (eff ≠ .m ∧ ∃ x ppn, s.hart.xlate.find? (fun x => x.vpn == p.va / 4096 && x.type == k.type) = some x ∧
      x.ends = .page ppn ∧ p.pa = ppn * 4096 + p.va % 4096 ∧ p.implicit = x.implicit))

/-- The implicit accesses of a piece pass their checks (R65). -/
def Part.Reached (s : State) (eff : Priv) (p : Part) : Prop :=
  checkImplicits s [p.va] eff (p.implicit.filter (implicitMade s.cfg)) = .ok

/-- The piece passes: its implicit accesses, and at its physical address the PMP and the MTT check (R71). -/
def Part.Passes (s : State) (k : AccessKind) (eff : Priv) (p : Part) : Prop :=
  p.Lies s k eff ∧ p.Reached s eff ∧ pmpAllows s.hart p.pa p.size k.type eff = true ∧
    mttCheck s [8, p.va] p.pa p.size k.type eff = .pass

/-- The translation of the piece passes, and at its physical address the PMP or the MTT check refuses it (R62, R71). -/
def Part.Refused (s : State) (k : AccessKind) (eff : Priv) (p : Part) : Prop :=
  p.Lies s k eff ∧ p.Reached s eff ∧
    (pmpAllows s.hart p.pa p.size k.type eff = false ∨
      (pmpAllows s.hart p.pa p.size k.type eff = true ∧ mttCheck s [8, p.va] p.pa p.size k.type eff = .fail))

/-- Every byte that an access touches, in its pieces and in the A and D updates of their translations, lies in the address
space and in no device. -/
def InMemory (c : Config) (ps : List Part) : Prop :=
  ∀ x ∈ ps.map (fun p => (p.pa, p.size)) ++ (implicitWrites c ps).map (fun w => (w.1, w.2.length)),
    x.1 + x.2 ≤ 2 ^ 56 ∧ isDevice c x.1 x.2 = false

/-- Instructions executed one after another, stopping at the first stop. -/
def execAll : List Instr → State → Host.Outcome State Fault Refusal
  | [], s => .next s
  | i :: is, s => andThen (exec i s) (execAll is)

/-- The batched sequence of R100 for a list of operand pairs. -/
def batched (ops : List (RegIdx × RegIdx)) : List Instr :=
  .sfenceWInval :: (ops.map (fun o => Instr.minvalSpa o.1 o.2) ++ [.sfenceInvalIr])

/-- The fences that R100 compares the sequence with. -/
def fenced (ops : List (RegIdx × RegIdx)) : List Instr := ops.map (fun o => Instr.mfenceSpa o.1 o.2)

end Sys2Proof.Machine
end

