-- ==== Sys2Proof/Certificates/Slice0/Obligations.lean ====
section
/-! DEFINITION. The statements for the provers, each a rule of spec/ or a consequence of rules. Free values are never
given a value: a statement in which one is drawn holds whatever is drawn. -/

open Sys2Proof Sys2Proof.Machine

/-! ## Encoding and decoding -/

/-- R83, R84, R87: an encoded instruction, whatever follows it in memory, decodes to itself, for all parameter values
the spec allows and every operand. -/
def Obligations.DecodeInvertsEncode : Prop :=
  ∀ (c : Config) (i : Instr) (rest : List Byte), c.wf = true → decode c (encodeBytes c i ++ rest) = .ok (i, rest)

/-- The other direction: bytes that decode to an instruction are its encoding and the bytes after it. -/
def Obligations.DecodedBytesAreTheEncoding : Prop :=
  ∀ (c : Config) (bytes : List Byte) (i : Instr) (rest : List Byte),
    decode c bytes = .ok (i, rest) → bytes = encodeBytes c i ++ rest

/-- Words written out bit by bit from 30_encoding.md section 5 decode to the instruction they stand for, with the
parameter values of the machine after reset (the two funct7 values are the model's, log entry 3). -/
def Obligations.SampleWordsDecode : Prop :=
  decodeTableWord 32 0b0001100_00000_00000_000_00000_1110011 = some .sfenceWInval ∧
  decodeTableWord 32 0b0001100_00001_00000_000_00000_1110011 = some .sfenceInvalIr ∧
  decodeTableWord 32 0b1011110_01010_01011_000_00000_1110011 = some (.mfenceSpa 11 10) ∧
  decodeTableWord 32 0b1011111_00001_11111_000_00000_1110011 = some (.minvalSpa 31 1)

/-- R87: the words of the two Svinval instructions and their fields. -/
def Obligations.SvinvalEncodings : Prop :=
  ∀ c : Config,
    encode c .sfenceWInval = 0x18000073#32 ∧ encode c .sfenceInvalIr = 0x18100073#32 ∧
    decodeWord c 0x18000073#32 = .ok .sfenceWInval ∧ decodeWord c 0x18100073#32 = .ok .sfenceInvalIr ∧
    ∀ i, i = Instr.sfenceWInval ∨ i = Instr.sfenceInvalIr →
      (encode c i).extractLsb' 0 7 = 0b1110011#7 ∧ (encode c i).extractLsb' 7 5 = 0b00000#5 ∧
      (encode c i).extractLsb' 12 3 = 0b000#3 ∧ (encode c i).extractLsb' 15 5 = 0b00000#5 ∧
      (encode c i).extractLsb' 20 5 = (if i = .sfenceWInval then 0b00000#5 else 0b00001#5) ∧
      (encode c i).extractLsb' 25 7 = 0b0001100#7

/-- R88: a word with the selecting bits of MFENCE.SPA or MINVAL.SPA and `rd` or `funct3` not 0 is neither, and the
step refuses it; every other encoding is outside the spec, and the step refuses it where the environment says nothing
of it and otherwise does what the environment says (the environment's list of operations is the model's, log entry 8). -/
def Obligations.OtherEncodingsAreRefused : Prop :=
  (∀ (c : Config) (w : BitVec 32), c.wf = true → w.extractLsb' 0 7 = 0b1110011#7 →
    (w.extractLsb' 25 7 = c.funct7Mfence ∨ w.extractLsb' 25 7 = c.funct7Minval) →
    (w.extractLsb' 7 5 ≠ 0#5 ∨ w.extractLsb' 12 3 ≠ 0#3) → decodeWord c w = .error .nearShape) ∧
  (∀ (c : Config) (w : BitVec 32), w ≠ 0x18000073#32 → w ≠ 0x18100073#32 →
    (w.extractLsb' 0 7 ≠ 0b1110011#7 ∨
      (w.extractLsb' 25 7 ≠ c.funct7Mfence ∧ w.extractLsb' 25 7 ≠ c.funct7Minval)) →
    decodeWord c w = .error .outside) ∧
  (∀ (s s' : State) (bytes : List Byte) (e : DecodeError), s.events = [] → fetch s = .ok bytes s' →
    decode s'.cfg bytes = .error e →
    (e = .nearShape → step s = .refused .nearShape) ∧
    (e ≠ .nearShape → s'.hart.baseOps = [] → step s = .refused .outsideSpec) ∧
    (∀ op ops, e ≠ .nearShape → s'.hart.baseOps = op :: ops →
      step s = runBase s op (BitVec.ofNat 64 (natOfBytes bytes)) (BitVec.ofNat 64 bytes.length) (popBaseOp s')))

/-! ## The step -/

/-- A step in which no event waits, whose fetch answers and whose bytes decode, is the meaning of the instruction at
the state after the fetch. -/
def Obligations.StepRunsTheDecodedInstruction : Prop :=
  ∀ (s s' : State) (bytes : List Byte) (i : Instr) (rest : List Byte),
    s.events = [] → fetch s = .ok bytes s' → decode s'.cfg bytes = .ok (i, rest) → step s = exec i s'

/-- In M-mode the fetch itself changes nothing (R63: it is not checked against the MTT; D36: `MPRV` does not matter):
where the four bytes at an even pc are the encoding of an instruction, in memory the PMP lets M-mode fetch from and
that is no device, the step is exactly the meaning of the instruction. -/
def Obligations.MachineModeStepRunsStoredInstruction : Prop :=
  ∀ (s : State) (i : Instr), s.cfg.wf = true → s.events = [] → s.hart.priv = .m →
    s.hart.pc.toNat % 2 = 0 → s.hart.pc.toNat + 4 ≤ 2 ^ s.cfg.xlen.bits → s.hart.pc.toNat + 4 ≤ 2 ^ 56 →
    pmpAllows s.hart s.hart.pc.toNat 4 .fetch .m = true → isDevice s.cfg s.hart.pc.toNat 4 = false →
    s.mem.readBytes s.hart.pc.toNat 4 = encodeBytes s.cfg i → step s = exec i s

/-- R62, R80, R102, R103, R104: below M-mode, where the PMP or the MTT check refuses the first 16 bits of a fetch at the
physical address where they lie, translated or not, or passes them and refuses the next 16 of an instruction that has them,
the step is an instruction access-fault: cause 1, the pc of the instruction in `mepc`, that pc, the address of what was
refused or 0 in `mtval`, M-mode, and nothing else changed, memory neither (an A update of the first 16 bits does not remain,
log entry 24). -/
def Obligations.FetchViolationTraps : Prop :=
  ∀ (s : State) (ps : List Part) (p : Part) (rest : List (Nat × Nat)),
    s.events = [] → s.hart.priv ≠ .m → s.cfg.faultTarget = .machine →
    let pc := s.hart.pc.toNat
    let next := (wrapX s.cfg.xlen (s.hart.pc + 2)).toNat
    let first := spans s.cfg pc 2 = ps.map (fun q => (q.va, q.size)) ++ (p.va, p.size) :: rest ∧
      (∀ q ∈ ps, q.Passes s .fetch s.hart.priv) ∧ p.Refused s .fetch s.hart.priv
    let second := fun s' : State => ∃ qs, access s s .fetch pc pc 2 [] = .ok qs s' ∧
      isLong ((readParts s'.mem qs).getD 0 0) = true ∧
      spans s.cfg next 2 = ps.map (fun q => (q.va, q.size)) ++ (p.va, p.size) :: rest ∧
      (∀ q ∈ ps, q.Passes s' .fetch s.hart.priv) ∧ p.Refused s' .fetch s.hart.priv
    ∀ s', (first ∧ s' = s) ∨ second s' →
      ∃ tval : Word, (tval = s.hart.pc ∨ tval = BitVec.ofNat 64 p.va ∨ tval = 0) ∧
        step s = .next { s with
          tick := s'.tick + 1
          hart := { s.hart with
            mepc := s.hart.pc, mcause := 1#64, mtval := wrapX s.cfg.xlen tval, priv := .m
            mstatus := mstatusAfterTrapM s.hart.priv s.hart.mstatus, pc := vectorBase s.hart.mtvec } }

/-! ## MFENCE.SPA -/

/-- R90, R91, R16: in M-mode the fence of the scope that the operands name is recorded as completed now, the pc
advances by 4, and nothing else changes but that the fence of everything ends what reset left unspecified (R22). That
`x[rs1]` is the address shifted right by `paddrShift` bits is the model's reading of the open `PADDR_FMT` (log entry 18);
the last clause is the fourth operand form under the two values of `MFENCE_PA_ALLSD` that give it an effect (the model's
reading of D23, log entry 20). -/
def Obligations.MfenceCompletes : Prop :=
  ∀ (s : State) (rs1 rs2 : RegIdx), s.hart.priv = .m →
    exec (.mfenceSpa 0 0) s = .next { s with hart := { s.hart with
      pc := wrapX s.cfg.xlen (s.hart.pc + 4), fences := { sel := .all, time := now s } :: s.hart.fences
      resetOver := true } } ∧
    (rs2 ≠ 0#5 → (readReg s rs2).toNat < 2 ^ s.cfg.sdidWidth →
      exec (.mfenceSpa 0 rs2) s = .next { s with hart := { s.hart with
        pc := wrapX s.cfg.xlen (s.hart.pc + 4)
        fences := { sel := .domain (readReg s rs2), time := now s } :: s.hart.fences } } ∧
      (rs1 ≠ 0#5 → exec (.mfenceSpa rs1 rs2) s = .next { s with hart := { s.hart with
        pc := wrapX s.cfg.xlen (s.hart.pc + 4)
        fences := { sel := .page (readReg s rs2) ((readReg s rs1).toNat * 2 ^ s.cfg.paddrShift / 4096)
                    time := now s } :: s.hart.fences } })) ∧
    (rs1 ≠ 0#5 → s.cfg.paAllSd ≠ .refuse →
      exec (.mfenceSpa rs1 0) s = .next { s with hart := { s.hart with
        pc := wrapX s.cfg.xlen (s.hart.pc + 4)
        fences := { sel := if s.cfg.paAllSd = .everything then .all
                           else .pageAll ((readReg s rs1).toNat * 2 ^ s.cfg.paddrShift / 4096)
                    time := now s } :: s.hart.fences
        resetOver := if s.cfg.paAllSd = .everything then true else s.hart.resetOver } })

/-- R91 (fourth row, D23) and R85 (D25): in M-mode the form with an address and no SDID is refused under the spec's
policy, and so is an SDID operand with a bit above the SDID width, for both instructions with these operands. -/
def Obligations.UnlistedOperandsAreRefused : Prop :=
  ∀ (s : State) (rs1 rs2 : RegIdx), s.hart.priv = .m →
    (rs1 ≠ 0#5 → s.cfg.paAllSd = .refuse →
      exec (.mfenceSpa rs1 0) s = .refused .paddrWithoutSdid ∧
      (s.cfg.hasSvinval = true → exec (.minvalSpa rs1 0) s = .refused .paddrWithoutSdid)) ∧
    (rs2 ≠ 0#5 → 2 ^ s.cfg.sdidWidth ≤ (readReg s rs2).toNat →
      exec (.mfenceSpa rs1 rs2) s = .refused .sdidTooWide ∧
      (s.cfg.hasSvinval = true → exec (.minvalSpa rs1 rs2) s = .refused .sdidTooWide))

/-- R94, R97, R98, R99, R103: below the mode an instruction needs (M-mode for MFENCE.SPA and MINVAL.SPA, S-mode for the
two others) it raises illegal-instruction: cause 2, trap value the instruction bits or 0, the trap entry of R111, and
nothing else changes. -/
def Obligations.FencesTrapBelowTheirMode : Prop :=
  ∀ (s : State) (i : Instr),
    ((∃ rs1 rs2, i = .mfenceSpa rs1 rs2) ∧ s.hart.priv ≠ .m) ∨
    ((∃ rs1 rs2, i = .minvalSpa rs1 rs2) ∧ s.cfg.hasSvinval = true ∧ s.hart.priv ≠ .m) ∨
    ((i = .sfenceWInval ∨ i = .sfenceInvalIr) ∧ s.cfg.hasSvinval = true ∧ s.hart.priv = .u) →
    ∃ tval : Word, (tval = (encode s.cfg i).setWidth 64 ∨ tval = 0) ∧
      exec i s = .next { s with
        tick := s.tick + 1
        hart := { s.hart with
          mepc := s.hart.pc, mcause := 2#64, mtval := wrapX s.cfg.xlen tval, priv := .m
          mstatus := mstatusAfterTrapM s.hart.priv s.hart.mstatus, pc := vectorBase s.hart.mtvec } }

/-- R73, R90, R91: an MFENCE.SPA that completes sets `t0` to now for every pair (SDID, address) that its selector
matches and leaves it as it was for every other pair; and what each selector matches, an address-specific fence
covering the 4 KiB page and nothing more. -/
def Obligations.MfenceSetsTheTimeOfMatchingPairs : Prop :=
  ∀ (s t : State) (rs1 rs2 : RegIdx) (sel : Selector), s.Inv → s.hart.priv = .m →
    selector s rs1 rs2 = .ok sel → exec (.mfenceSpa rs1 rs2) s = .next t →
    ∀ (sdid : Word) (a : Nat),
      (sel.matches sdid a = true → latestFence t.hart.fences sdid a = some (now s)) ∧
      (sel.matches sdid a = false → latestFence t.hart.fences sdid a = latestFence s.hart.fences sdid a) ∧
      (sel = .all → sel.matches sdid a = true) ∧
      (∀ d, sel = .domain d → (sel.matches sdid a = true ↔ sdid = d)) ∧
      (∀ d p, sel = .page d (p / 4096) → (sel.matches sdid a = true ↔ sdid = d ∧ a / 4096 = p / 4096))

/-- R73 ("immediately after a matching fence with no later change, ... the check is exact"), R92: right after an
MFENCE.SPA, every check of bytes whose pages it matches, for the SDID in force, is the check with the present `mttp`
and the present memory, whatever is drawn; once a fence of everything, this one or an earlier one, has ended what reset left
unspecified (R22). That a fence of one page also ends the staleness of `mttp` for it is log entry 35. -/
def Obligations.MfenceMakesMatchingChecksExact : Prop :=
  ∀ (s t : State) (rs1 rs2 : RegIdx) (sel : Selector), s.Inv → s.hart.priv = .m →
    selector s rs1 rs2 = .ok sel → exec (.mfenceSpa rs1 rs2) s = .next t → sel = .all ∨ s.hart.resetOver = true →
    ∀ (place : List Nat) (p n : Nat) (type : AccessType) (eff : Priv), eff ≠ .m →
      (∀ a ∈ touchedPages p n, sel.matches s.hart.mttp.sdid a = true) →
      mttCheck t place p n type eff = firstBad ((touchedPages p n).map (fun a => checkPageExact s a type))

/-! ## The batched sequence -/

/-- R97, R91: in M-mode MINVAL.SPA appends its selector to the pending invalidations and advances the pc; no fence is
recorded, so no check changes. The format of the address operand and the last clause are as in `MfenceCompletes` (log
entries 18 and 20). -/
def Obligations.MinvalCompletes : Prop :=
  ∀ (s : State) (rs1 rs2 : RegIdx), s.hart.priv = .m → s.cfg.hasSvinval = true →
    exec (.minvalSpa 0 0) s = .next { s with hart := { s.hart with
      pc := wrapX s.cfg.xlen (s.hart.pc + 4)
      pending := { sel := .all, afterMark := s.hart.wInval.isSome } :: s.hart.pending } } ∧
    (rs2 ≠ 0#5 → (readReg s rs2).toNat < 2 ^ s.cfg.sdidWidth →
      exec (.minvalSpa 0 rs2) s = .next { s with hart := { s.hart with
        pc := wrapX s.cfg.xlen (s.hart.pc + 4)
        pending := { sel := .domain (readReg s rs2), afterMark := s.hart.wInval.isSome } :: s.hart.pending } } ∧
      (rs1 ≠ 0#5 → exec (.minvalSpa rs1 rs2) s = .next { s with hart := { s.hart with
        pc := wrapX s.cfg.xlen (s.hart.pc + 4)
        pending := { sel := .page (readReg s rs2) ((readReg s rs1).toNat * 2 ^ s.cfg.paddrShift / 4096)
                     afterMark := s.hart.wInval.isSome } :: s.hart.pending } })) ∧
    (rs1 ≠ 0#5 → s.cfg.paAllSd ≠ .refuse →
      exec (.minvalSpa rs1 0) s = .next { s with hart := { s.hart with
        pc := wrapX s.cfg.xlen (s.hart.pc + 4)
        pending := { sel := if s.cfg.paAllSd = .everything then .all
                            else .pageAll ((readReg s rs1).toNat * 2 ^ s.cfg.paddrShift / 4096)
                     afterMark := s.hart.wInval.isSome } :: s.hart.pending } })

/-- R98: in M-mode or S-mode SFENCE.W.INVAL marks the history at this point (so that what is pending already is no
longer after the latest mark) and advances the pc. -/
def Obligations.SfenceWInvalCompletes : Prop :=
  ∀ s : State, s.cfg.hasSvinval = true → s.hart.priv ≠ .u →
    exec .sfenceWInval s = .next { s with hart := { s.hart with
      pc := wrapX s.cfg.xlen (s.hart.pc + 4), wInval := some (now s)
      pending := s.hart.pending.map (fun p => { p with afterMark := false }) } }

/-- R99: in M-mode or S-mode SFENCE.INVAL.IR completes: the invalidations after the latest mark become fences at the
mark's time, none is pending any more, the pc advances, and one of everything among them ends what reset left unspecified
(R100 with R22, log entry 14); without a mark no fence is recorded. -/
def Obligations.SfenceInvalIrCompletes : Prop :=
  ∀ s : State, s.cfg.hasSvinval = true → s.hart.priv ≠ .u →
    (s.hart.wInval = none → exec .sfenceInvalIr s = .next { s with hart := { s.hart with
      pc := wrapX s.cfg.xlen (s.hart.pc + 4), pending := [] } }) ∧
    (∀ t, s.hart.wInval = some t → exec .sfenceInvalIr s = .next { s with hart := { s.hart with
      pc := wrapX s.cfg.xlen (s.hart.pc + 4), pending := []
      fences := ((s.hart.pending.filter (fun p => p.afterMark)).map (fun p => { sel := p.sel, time := t })) ++
        s.hart.fences
      resetOver := s.hart.resetOver ||
        ((s.hart.pending.filter (fun p => p.afterMark)).map (fun p => p.sel)).contains .all } })

/-- R99, R100: when SFENCE.INVAL.IR completes, `t0` of a pair that a covered invalidation matches becomes the time of
the SFENCE.W.INVAL (or stays later, if a fence has set it later); of any other pair it stays. -/
def Obligations.InvalIrSetsTheTimeOfTheMark : Prop :=
  ∀ (s t : State) (m : Horizon), s.hart.wInval = some m → exec .sfenceInvalIr s = .next t → s.hart.priv ≠ .u →
    ∀ (sdid : Word) (a : Nat),
      ((∃ sel ∈ coveredInvals s.hart, sel.matches sdid a = true) →
        latestFence t.hart.fences sdid a =
          some (match latestFence s.hart.fences sdid a with
                | none => m
                | some old => Horizon.max m old)) ∧
      ((∀ sel ∈ coveredInvals s.hart, sel.matches sdid a = false) →
        latestFence t.hart.fences sdid a = latestFence s.hart.fences sdid a)

/-- R100: executed in M-mode with nothing between its instructions, the batched sequence completes wherever the
corresponding MFENCE.SPAs do, and has their effect: every pair (SDID, address) has the same `t0` as after those fences,
what reset left unspecified (R22) has ended where it has after them, memory and `mttp` are the same, and no invalidation is
pending. -/
def Obligations.BatchedSequenceEqualsFences : Prop :=
  ∀ (s u : State) (ops : List (RegIdx × RegIdx)), s.Inv → s.hart.priv = .m → s.cfg.hasSvinval = true →
    execAll (fenced ops) s = .next u →
    ∃ t, execAll (batched ops) s = .next t ∧
      (∀ (sdid : Word) (a : Nat), latestFence t.hart.fences sdid a = latestFence u.hart.fences sdid a) ∧
      t.hart.resetOver = u.hart.resetOver ∧ t.mem = u.mem ∧ t.memPast = u.memPast ∧ t.hart.mttp = u.hart.mttp ∧
      t.hart.mttpPast = u.hart.mttpPast ∧ t.hart.pending = []

/-- R101: where Svinval is absent the three instructions of 41_minval_spa.md are refused in every mode. -/
def Obligations.WithoutSvinvalRefused : Prop :=
  ∀ (s : State) (rs1 rs2 : RegIdx), s.cfg.hasSvinval = false →
    exec (.minvalSpa rs1 rs2) s = .refused .noSvinval ∧ exec .sfenceWInval s = .refused .noSvinval ∧
    exec .sfenceInvalIr s = .refused .noSvinval

/-- R82, R95: the frame of all four instructions, whether they complete or trap: no integer register, no byte of
memory or of its history, no `mttp`, no other hart, no input changes, and the saved registers and the status only
where a trap is taken. -/
def Obligations.FourInstructionsFrame : Prop :=
  ∀ (i : Instr) (s t : State), exec i s = .next t →
    t.cfg = s.cfg ∧ t.mem = s.mem ∧ t.memPast = s.memPast ∧ t.others = s.others ∧ t.events = s.events ∧
    t.hart.x = s.hart.x ∧ t.hart.mttp = s.hart.mttp ∧ t.hart.mttpPast = s.hart.mttpPast ∧
    t.hart.mtvec = s.hart.mtvec ∧ t.hart.medeleg = s.hart.medeleg ∧ t.hart.sepc = s.hart.sepc ∧
    t.hart.scause = s.hart.scause ∧ t.hart.stval = s.hart.stval ∧ t.hart.stvec = s.hart.stvec ∧
    t.hart.pmp = s.hart.pmp ∧ t.hart.xlate = s.hart.xlate ∧ t.hart.baseOps = s.hart.baseOps ∧
    ((t.hart.mstatus = s.hart.mstatus ∧ t.hart.priv = s.hart.priv ∧ t.hart.mepc = s.hart.mepc ∧
        t.hart.mcause = s.hart.mcause ∧ t.hart.mtval = s.hart.mtval ∧ t.tick = s.tick) ∨
      (s.hart.priv ≠ .m ∧ t.hart.priv = .m ∧ t.hart.mcause = 2#64 ∧ t.hart.fences = s.hart.fences ∧
        t.hart.pending = s.hart.pending ∧ t.hart.wInval = s.hart.wInval ∧ t.hart.resetOver = s.hart.resetOver)) ∧
    ((∀ rs1 rs2, i ≠ .mfenceSpa rs1 rs2) → i ≠ .sfenceInvalIr → t.hart.resetOver = s.hart.resetOver)

/-! ## What a check may see -/

/-- R73, R22: once a fence of everything has completed since reset, for a pair with the time `t0` the `mttp` a check
is made with is the present one or one the hart held since `t0` with the same SDID, and the value of an entry is one the
word held since `t0`. -/
def Obligations.DrawnValuesWereHeldSinceTheFence : Prop :=
  ∀ (s : State) (place : List Nat) (t0 : Horizon) (a : Nat), s.hart.resetOver = true →
    (chooseMttp s place (some t0) = s.hart.mttp ∨
      (chooseMttp s place (some t0) ∈ s.hart.mttpPast.take (s.hart.mttpPast.length - t0.mttp) ∧
        (chooseMttp s place (some t0)).sdid = s.hart.mttp.sdid)) ∧
    (∃ m ∈ s.mem :: s.memPast.take (s.memPast.length - t0.mem),
      mttRead s place (some t0) a = Memory.readEntry s.cfg m a)

/-- R77: WriteMTTP that leaves the SDID does not take the old pair, nor any pair seen before, out of the view, and
records no fence. -/
def Obligations.WriteMttpKeepsTheOldView : Prop :=
  ∀ (s t : State) (mode : Mode) (sdid : Word) (ppn : Ppn) (bits len : Word), s.Inv → s.hart.priv = .m →
    runWriteMttp mode sdid ppn bits len s = .next t → t.hart.mttp.sdid = s.hart.mttp.sdid →
    t.hart.fences = s.hart.fences ∧
    ∀ a : Nat, ∀ m ∈ s.hart.mttp ::
        visibleMttp s (latestFence s.hart.fences s.hart.mttp.sdid a) s.hart.mttp.sdid,
      m ∈ visibleMttp t (latestFence t.hart.fences t.hart.mttp.sdid a) t.hart.mttp.sdid

/-- R73, R118: a store takes no value of an entry that a check could see before it out of the view, and adds the
new one. -/
def Obligations.StoreKeepsTheOldEntriesVisible : Prop :=
  ∀ (s : State) (t0 : Option Horizon) (a : Nat) (bs : List Byte), bs ≠ [] →
    (∀ t, t0 = some t → t.mem ≤ s.memPast.length) →
    (∀ m ∈ s.mem :: visiblePast s t0, m ∈ visiblePast (storeBytes a bs s) t0) ∧
    (storeBytes a bs s).mem = s.mem.writeBytes a bs

/-- R75, R111(b): of all steps that take no event, only MFENCE.SPA and SFENCE.INVAL.IR record a fence, and only
they end what reset left unspecified (R22, R100): no base instruction, CSR write, trap or return from a trap does. -/
def Obligations.OnlyTheFencesSynchronise : Prop :=
  ∀ s t : State, s.events = [] → step s = .next t →
    (t.hart.fences = s.hart.fences ∧ t.hart.resetOver = s.hart.resetOver) ∨
    ∃ bytes s' i rest, fetch s = .ok bytes s' ∧ decode s'.cfg bytes = .ok (i, rest) ∧
      ((∃ rs1 rs2, i = .mfenceSpa rs1 rs2) ∨ i = .sfenceInvalIr)

/-- R12, R21, R78, R95: a step that takes no event changes nothing of what any other hart has of its own, nor the
parameters, and below M-mode not `mttp`. -/
def Obligations.StepStaysWithItsHart : Prop :=
  ∀ s t : State, s.events = [] → step s = .next t →
    t.others = s.others ∧ t.cfg = s.cfg ∧
    (s.hart.priv ≠ .m → t.hart.mttp = s.hart.mttp ∧ t.hart.mttpPast = s.hart.mttpPast)

/-! ## The formats and the lookup -/

/-- R58, D12: an address with a bit set at or above the mode's width violates, and the check of it fails for every
type of access. -/
def Obligations.AddressBeyondWidthViolates : Prop :=
  ∀ (c : Config) (f : Family) (paw root p : Nat) (rd : EntryReader) (mixed : Nat → Nat → Bool) (t : AccessType),
    2 ^ paw ≤ p → lookup c f paw root p rd mixed = .ok .violation ∧ judge c t (lookup c f paw root p rd mixed) = .fail

/-- R61, D5: with MODE Bare no table is read and the check passes for every address and type of access. -/
def Obligations.BarePasses : Prop :=
  ∀ (c : Config) (m : Mttp) (rd : EntryReader) (mems : List Memory) (a : Nat) (t : AccessType),
    m.mode = .bare → judgeWith c m rd mems a t = .pass

/-- R33, R34, R35 (with R30, R32, R54): the three 1G types of the rw family under the widths 34 and 46. -/
def Obligations.RwGigabyteEntries : Prop :=
  ∀ (c : Config) (paw root p : Nat) (rd : EntryReader) (mixed : Nat → Nat → Bool) (e : Word),
    paw = 34 ∨ paw = 46 → p < 2 ^ paw → rd .l2 (root * 4096 + 8 * (p / 2 ^ 25)) = .ok e →
    mixed root (p / 2 ^ 25) = false → e.toNat / 2 ^ 48 = 0 →
    (e.toNat % 2 ^ 44 = 0 →
      (e.toNat / 2 ^ 44 = 0b0000 → lookup c .rw paw root p rd mixed = .ok (.perm .none)) ∧
      (e.toNat / 2 ^ 44 = 0b0001 → lookup c .rw paw root p rd mixed = .ok (.perm .r)) ∧
      (e.toNat / 2 ^ 44 = 0b0011 → lookup c .rw paw root p rd mixed = .ok (.perm .rw))) ∧
    (e.toNat % 2 ^ 44 ≠ 0 → c.mbzPolicy ≠ .ignore →
      e.toNat / 2 ^ 44 = 0b0000 ∨ e.toNat / 2 ^ 44 = 0b0001 ∨ e.toNat / 2 ^ 44 = 0b0011 →
      lookup c .rw paw root p rd mixed = .ok (.unspec .infoNonzero))

/-- R32, R45: what each value of TYPE means, in the rw family (bits 47:44) and in the 1b family (bits 45:44), where none
is reserved; and a lookup under the widths 34 and 46 that reads a reserved TYPE (with a ZERO field of 0, R31, in a group
that is not mixed, R36) violates, so that every type of access fails. -/
def Obligations.TypeEncodings : Prop :=
  ∀ e : Word,
    l2Kind .rw (l2Type .rw e) =
      (if e.toNat / 2 ^ 44 % 16 = 0b0000 then .gig .none
       else if e.toNat / 2 ^ 44 % 16 = 0b0001 then .gig .r
       else if e.toNat / 2 ^ 44 % 16 = 0b0011 then .gig .rw
       else if e.toNat / 2 ^ 44 % 16 = 0b0100 then .dir
       else if e.toNat / 2 ^ 44 % 16 = 0b0111 then .pages2m
       else .reserved) ∧
    l2Kind .oneBit (l2Type .oneBit e) =
      (if e.toNat / 2 ^ 44 % 4 = 0b00 then .gig .disallow
       else if e.toNat / 2 ^ 44 % 4 = 0b01 then .gig .allow
       else if e.toNat / 2 ^ 44 % 4 = 0b10 then .dir
       else .pages2m) ∧
    ∀ (c : Config) (paw root p : Nat) (rd : EntryReader) (mixed : Nat → Nat → Bool) (t : AccessType),
      paw = 34 ∨ paw = 46 → p < 2 ^ paw → rd .l2 (root * 4096 + 8 * (p / 2 ^ 25)) = .ok e →
      mixed root (p / 2 ^ 25) = false → e.toNat / 2 ^ 48 = 0 →
      e.toNat / 2 ^ 44 ∉ [0b0000, 0b0001, 0b0011, 0b0100, 0b0111] →
      lookup c .rw paw root p rd mixed = .ok .violation ∧ judge c t (lookup c .rw paw root p rd mixed) = .fail

/-- R37, R39, R40, R41: an MTT_L1_DIR entry of the rw family leads to the 4-bit PERM field PA[15:12] of the word
PA[24:16] of the page that INFO names. -/
def Obligations.RwDirectoryEntries : Prop :=
  ∀ (c : Config) (paw root p : Nat) (rd : EntryReader) (mixed : Nat → Nat → Bool) (e w : Word),
    paw = 34 ∨ paw = 46 → p < 2 ^ paw → rd .l2 (root * 4096 + 8 * (p / 2 ^ 25)) = .ok e →
    mixed root (p / 2 ^ 25) = false → e.toNat / 2 ^ 44 = 0b0100 →
    rd .l1 (e.toNat % 2 ^ 44 * 4096 + 8 * (p / 2 ^ 16 % 512)) = .ok w →
    lookup c .rw paw root p rd mixed = .ok
      (if w.toNat / 2 ^ (4 * (p / 2 ^ 12 % 16)) % 16 = 0b0000 then .perm .none
       else if w.toNat / 2 ^ (4 * (p / 2 ^ 12 % 16)) % 16 = 0b0001 then .perm .r
       else if w.toNat / 2 ^ (4 * (p / 2 ^ 12 % 16)) % 16 = 0b0011 then .perm .rw
       else .violation)

/-- R38, D11, D16: a 2M_PAGES entry of the rw family gives the 2-bit PERM field PA[24:21] of INFO; INFO[43:32] not 0
is unspecified. -/
def Obligations.RwTwoMegabyteEntries : Prop :=
  ∀ (c : Config) (paw root p : Nat) (rd : EntryReader) (mixed : Nat → Nat → Bool) (e : Word),
    paw = 34 ∨ paw = 46 → p < 2 ^ paw → rd .l2 (root * 4096 + 8 * (p / 2 ^ 25)) = .ok e →
    mixed root (p / 2 ^ 25) = false → e.toNat / 2 ^ 44 = 0b0111 →
    (e.toNat / 2 ^ 32 % 2 ^ 12 = 0 → c.perm2m10 = .violation →
      lookup c .rw paw root p rd mixed = .ok
        (if e.toNat / 2 ^ (2 * (p / 2 ^ 21 % 16)) % 4 = 0b00 then .perm .none
         else if e.toNat / 2 ^ (2 * (p / 2 ^ 21 % 16)) % 4 = 0b01 then .perm .r
         else if e.toNat / 2 ^ (2 * (p / 2 ^ 21 % 16)) % 4 = 0b11 then .perm .rw
         else .violation)) ∧
    (e.toNat / 2 ^ 32 % 2 ^ 12 ≠ 0 → c.mbzPolicy ≠ .ignore →
      lookup c .rw paw root p rd mixed = .ok (.unspec .infoNonzero))

/-- R46, R47 (with R43, R45, R54): the two 1G types of the 1b family under the widths 34 and 46. -/
def Obligations.OneBitGigabyteEntries : Prop :=
  ∀ (c : Config) (paw root p : Nat) (rd : EntryReader) (mixed : Nat → Nat → Bool) (e : Word),
    paw = 34 ∨ paw = 46 → p < 2 ^ paw → rd .l2 (root * 4096 + 8 * (p / 2 ^ 26)) = .ok e →
    mixed root (p / 2 ^ 26) = false → e.toNat / 2 ^ 46 = 0 →
    (e.toNat % 2 ^ 44 = 0 →
      (e.toNat / 2 ^ 44 = 0b00 → lookup c .oneBit paw root p rd mixed = .ok (.perm .disallow)) ∧
      (e.toNat / 2 ^ 44 = 0b01 → lookup c .oneBit paw root p rd mixed = .ok (.perm .allow))) ∧
    (e.toNat % 2 ^ 44 ≠ 0 → c.mbzPolicy ≠ .ignore → e.toNat / 2 ^ 44 = 0b00 ∨ e.toNat / 2 ^ 44 = 0b01 →
      lookup c .oneBit paw root p rd mixed = .ok (.unspec .infoNonzero))

/-- R49, R51, R52, R53: an MTT_L1_DIR entry of the 1b family leads to the 2-bit PERM field PA[16:12] of the word
PA[25:17] of the page that INFO names. -/
def Obligations.OneBitDirectoryEntries : Prop :=
  ∀ (c : Config) (paw root p : Nat) (rd : EntryReader) (mixed : Nat → Nat → Bool) (e w : Word),
    paw = 34 ∨ paw = 46 → p < 2 ^ paw → rd .l2 (root * 4096 + 8 * (p / 2 ^ 26)) = .ok e →
    mixed root (p / 2 ^ 26) = false → e.toNat / 2 ^ 44 = 0b10 →
    rd .l1 (e.toNat % 2 ^ 44 * 4096 + 8 * (p / 2 ^ 17 % 512)) = .ok w →
    lookup c .oneBit paw root p rd mixed = .ok
      (if w.toNat / 2 ^ (2 * (p / 2 ^ 12 % 32)) % 4 = 0b00 then .perm .disallow
       else if w.toNat / 2 ^ (2 * (p / 2 ^ 12 % 32)) % 4 = 0b01 then .perm .allow
       else .violation)

/-- R50, D11: a 2M_PAGES entry of the 1b family gives the bit PA[25:21] of INFO; INFO[43:32] not 0 is unspecified. -/
def Obligations.OneBitTwoMegabyteEntries : Prop :=
  ∀ (c : Config) (paw root p : Nat) (rd : EntryReader) (mixed : Nat → Nat → Bool) (e : Word),
    paw = 34 ∨ paw = 46 → p < 2 ^ paw → rd .l2 (root * 4096 + 8 * (p / 2 ^ 26)) = .ok e →
    mixed root (p / 2 ^ 26) = false → e.toNat / 2 ^ 44 = 0b11 →
    (e.toNat / 2 ^ 32 % 2 ^ 12 = 0 →
      lookup c .oneBit paw root p rd mixed = .ok
        (if e.getLsbD (p / 2 ^ 21 % 32) then .perm .allow else .perm .disallow)) ∧
    (e.toNat / 2 ^ 32 % 2 ^ 12 ≠ 0 → c.mbzPolicy ≠ .ignore →
      lookup c .oneBit paw root p rd mixed = .ok (.unspec .infoNonzero))

/-- R31, R44, D15: a ZERO field that is not 0, in an MTTL3 entry under the width 56 or an MTTL2 entry under the widths 34
and 46 (in a group that is not mixed) of either family, is unspecified, and the check of it is refused, or fails, as
`MBZ_POLICY` says. -/
def Obligations.NonzeroZeroFieldsAreUnspecified : Prop :=
  ∀ (c : Config) (f : Family) (root p : Nat) (rd : EntryReader) (mixed : Nat → Nat → Bool) (e : Word) (t : AccessType),
    c.mbzPolicy ≠ .ignore →
    ((p < 2 ^ 56 ∧ rd .l3 (root * 4096 + 8 * (p / 2 ^ 46)) = .ok e ∧ e.toNat / 2 ^ 44 ≠ 0 →
        lookup c f 56 root p rd mixed = .ok (.unspec .zeroNonzero)) ∧
      (∀ paw, paw = 34 ∨ paw = 46 → p < 2 ^ paw ∧ rd .l2 (root * 4096 + 8 * (p / 2 ^ spanBit f)) = .ok e ∧
          mixed root (p / 2 ^ spanBit f) = false ∧ e.toNat / (if f = .rw then 2 ^ 48 else 2 ^ 46) ≠ 0 →
        lookup c f paw root p rd mixed = .ok (.unspec .zeroNonzero)) ∧
      (c.mbzPolicy = .refuse →
        judge c t (.ok (.unspec .zeroNonzero)) = .refuse (.unspecLookup .zeroNonzero)) ∧
      (c.mbzPolicy = .violation → judge c t (.ok (.unspec .zeroNonzero)) = .fail))

/-- R3, R29, R42, R54: the 56-bit structure is the 46-bit one with one more level above it: the MTTL3 entry PA[55:46]
names the MTTL2 table in which the lookup of the low 46 address bits goes on. -/
def Obligations.ThreeLevelWalk : Prop :=
  ∀ (c : Config) (f : Family) (root p : Nat) (rd : EntryReader) (mixed : Nat → Nat → Bool) (e : Word),
    p < 2 ^ 56 → rd .l3 (root * 4096 + 8 * (p / 2 ^ 46)) = .ok e → e.toNat / 2 ^ 44 = 0 →
    lookup c f 56 root p rd mixed = lookup c f 46 e.toNat (p % 2 ^ 46) rd mixed

/-- R36, R48, D17: a check that reads an MTTL2 entry of a 1 GiB group which is mixed in some memory it may still see
is refused. -/
def Obligations.MixedGroupsAreRefused : Prop :=
  ∀ (c : Config) (m : Mttp) (rd : EntryReader) (mems : List Memory) (mem : Memory) (a : Nat) (t : AccessType) (e : Word),
    m.mode ≠ .bare → m.mode.paw ≠ 56 → a < 2 ^ m.mode.paw → mem ∈ mems →
    rd .l2 (m.ppn.toNat * 4096 + 8 * (a / 2 ^ spanBit m.mode.family)) = .ok e →
    groupMixed c m.mode.family mem m.ppn.toNat (a / 2 ^ spanBit m.mode.family) = true →
    judgeWith c m rd mems a t = .refuse (.unspecLookup .group1gMixed)

/-- R36, R48: a group is mixed exactly where one of its entries has a 1G type and another entry of it a different TYPE;
and a table that meets `MTT_WF_1G` has no mixed group at any address of the mode's width. -/
def Obligations.MixedGroupMeansTwoTypes : Prop :=
  ∀ (c : Config) (f : Family) (m : Memory) (ppn i : Nat),
    (groupMixed c f m ppn i = true ↔
      ∃ j k, j / groupSize f = i / groupSize f ∧ k / groupSize f = i / groupSize f ∧
        is1g f (typeAt c f m ppn j) = true ∧ typeAt c f m ppn k ≠ typeAt c f m ppn j) ∧
    ∀ paw p, paw = 34 ∨ paw = 46 ∨ paw = 56 → mttWf1g c f m ppn (l2Entries f paw) = true →
      groupMixed c f m ppn (l2Index f paw p) = false

/-- R59 (the spec's FETCH_PERM, D13): in an rw mode a read or fetch passes with R or RW, a write with RW only; NONE and
a violation pass nothing; and which type each access is checked as (D14: a load-reserved as a read, a store-conditional
and an AMO as a write). -/
def Obligations.RwPermissionsAgainstAccess : Prop :=
  ∀ (c : Config) (t : AccessType), c.fetchPerm = .read →
    judge c t (.ok (.perm .rw)) = .pass ∧
    judge c t (.ok (.perm .r)) = (if t = .write then .fail else .pass) ∧
    judge c t (.ok (.perm .none)) = .fail ∧ judge c t (.ok .violation) = .fail ∧
    AccessKind.type .fetch = .fetch ∧ AccessKind.type .load = .read ∧ AccessKind.type .loadReserved = .read ∧
    AccessKind.type .store = .write ∧ AccessKind.type .storeConditional = .write ∧ AccessKind.type .amo = .write

/-- R60: in a 1b mode the outcome of a check does not depend on the type of the access: it passes on ALLOW and fails on
DISALLOW and on a violation. -/
def Obligations.OneBitFamilyIgnoresAccessType : Prop :=
  ∀ (c : Config) (m : Mttp) (rd : EntryReader) (mems : List Memory) (a : Nat) (t u : AccessType),
    m.mode.family = .oneBit →
    judgeWith c m rd mems a t = judgeWith c m rd mems a u ∧
    judge c t (.ok (.perm .allow)) = .pass ∧ judge c t (.ok (.perm .disallow)) = .fail ∧
    judge c t (.ok .violation) = .fail

/-! ## Which accesses are checked, and with what end -/

/-- R63, R64, R112, D36: the effective privilege mode of each access; that M is exempt; that the MTT does not tell U from
S. -/
def Obligations.EffectiveModeAndExemption : Prop :=
  ∀ (s : State) (k : AccessKind) (place : List Nat) (p n : Nat) (t : AccessType),
    effectivePriv s .fetch = s.hart.priv ∧
    (k ≠ .fetch → s.hart.priv = .m → mprv s.hart.mstatus = true →
      ∀ q, mpp s.hart.mstatus = some q → effectivePriv s k = q) ∧
    (k ≠ .fetch → s.hart.priv ≠ .m ∨ mprv s.hart.mstatus = false → effectivePriv s k = s.hart.priv) ∧
    mttCheck s place p n t .m = .pass ∧ mttCheck s place p n t .u = mttCheck s place p n t .s

/-- R70: an access whose bytes lie in two 4 KiB pages is checked at its first byte and at the first byte of the next
page, and passes only if both pass. -/
def Obligations.BothPagesAreChecked : Prop :=
  ∀ (s : State) (place : List Nat) (p n : Nat) (t : AccessType) (eff : Priv), eff ≠ .m → p % 4096 + n > 4096 →
    (mttCheck s place p n t eff = .pass ↔
      checkPage s (p :: place) p t = .pass ∧
      checkPage s ((p / 4096 + 1) * 4096 :: place) ((p / 4096 + 1) * 4096) t = .pass)

/-- R28, R66, R67, R76 (D7, D8, D18): a check reads an entry only below `2^56`, where the PMP lets M-mode read its 8
bytes and no device lies; a read the PMP refuses makes the check fail, the two others have no meaning, and the lookup
ends at the entry that could not be read, be it the MTTL3, MTTL2 or MTTL1 entry. -/
def Obligations.EntryReadsAreGuarded : Prop :=
  ∀ (s : State) (place : List Nat) (t0 : Option Horizon) (l : Level) (a : Nat) (t : AccessType),
    (2 ^ 56 ≤ a → checkReader s place t0 l a = .error .beyond) ∧
    (a < 2 ^ 56 → pmpAllows s.hart a 8 .read .m = false → checkReader s place t0 l a = .error .pmp) ∧
    (a < 2 ^ 56 → pmpAllows s.hart a 8 .read .m = true → isDevice s.cfg a 8 = true →
      checkReader s place t0 l a = .error .device) ∧
    judge s.cfg t (.error .pmp) = .fail ∧
    judge s.cfg t (.error .beyond) = .refuse .entryBeyondSpace ∧
    judge s.cfg t (.error .device) = .refuse .entryInDevice ∧
    ∀ (f : Family) (root p : Nat) (rd : EntryReader) (mixed : Nat → Nat → Bool) (x : EntryStop),
      (p < 2 ^ 56 → rd .l3 (root * 4096 + 8 * (p / 2 ^ 46)) = .error x → lookup s.cfg f 56 root p rd mixed = .error x) ∧
      ∀ paw, paw = 34 ∨ paw = 46 → p < 2 ^ paw →
        (rd .l2 (root * 4096 + 8 * (p / 2 ^ spanBit f)) = .error x → lookup s.cfg f paw root p rd mixed = .error x) ∧
        (∀ e : Word, rd .l2 (root * 4096 + 8 * (p / 2 ^ spanBit f)) = .ok e → mixed root (p / 2 ^ spanBit f) = false →
          e.toNat / 2 ^ 44 = (if f = .rw then 0b0100 else 0b10) →
          rd .l1 (e.toNat % 2 ^ 44 * 4096 + 8 * (p / 2 ^ (spanBit f - 9) % 512)) = .error x →
          lookup s.cfg f paw root p rd mixed = .error x)

/-- R65, D35: a page-table read is checked as a read; an A or D update is checked as a write, and made only where the
hardware has Svadu. -/
def Obligations.ImplicitAccessesAreChecked : Prop :=
  ∀ (s : State) (place : List Nat) (eff : Priv) (i : Implicit) (l : List Implicit),
    (i.write = none → implicitType i = .read ∧ implicitMade s.cfg i = true) ∧
    (i.write ≠ none → implicitType i = .write ∧ implicitMade s.cfg i = s.cfg.hasSvadu) ∧
    (pmpAllows s.hart i.pa i.size (implicitType i) .s = true → eff ≠ .m →
      firstBad ((touchedPages i.pa i.size).map
        (fun a => checkPage s (a :: l.length :: 7 :: place) a (implicitType i))) = .fail →
      checkImplicits s place eff (i :: l) = .accessFault)

/-- R62, R70, R102, R103, R104, R105, R106, R108: below effective mode M, an access of one page or two, translated or not, of
which the PMP or the MTT check refuses a piece at the physical address where the piece lies, the pieces before it passing,
raises the access-fault of its kind, the same whichever of the two refused it: the cause of the kind, the pc in `mepc`, the
effective address, the address of the failing piece or 0 in `mtval`, M-mode, and no other register, no fence and no `mttp`
changed. Memory is as it was when the instruction began (log entry 24) where the access has one piece or stores nothing; for
a store over two pages `FailedStoreTouchesPassedPiecesOnly` says more. That the first failing piece decides is log entry 37. -/
def Obligations.RefusedAccessTraps : Prop :=
  ∀ (start s : State) (k : AccessKind) (ea va n : Nat) (data : List Byte) (eff : Priv) (ps : List Part) (p : Part)
    (rest : List (Nat × Nat)),
    s.cfg.faultTarget = .machine → effectivePriv s k = eff → eff ≠ .m →
    spans s.cfg va n = ps.map (fun q => (q.va, q.size)) ++ (p.va, p.size) :: rest →
    (∀ q ∈ ps, q.Passes s k eff) → p.Refused s k eff →
    ∃ (tval : Word) (t : State),
      (tval = BitVec.ofNat 64 ea ∨ tval = BitVec.ofNat 64 p.va ∨ tval = 0) ∧
      access start s k ea va n data = .trap t ∧
      t.hart = { s.hart with
        mepc := s.hart.pc
        mcause := (match k with
          | .fetch => 1#64 | .load => 5#64 | .loadReserved => 5#64 | .store => 7#64 | .storeConditional => 7#64
          | .amo => 7#64)
        mtval := wrapX s.cfg.xlen tval, priv := .m
        mstatus := mstatusAfterTrapM s.hart.priv s.hart.mstatus, pc := vectorBase s.hart.mtvec } ∧
      t.cfg = s.cfg ∧ t.others = s.others ∧ t.events = s.events ∧ t.tick = s.tick + 1 ∧
      ((ps = [] ∧ rest = []) ∨ data = [] → t.mem = start.mem ∧ t.memPast = start.memPast)

/-- R102 (fourth row), R65: an implicit page-table access that fails its check, for a piece of an access of one page or two
whose pieces before it passed, raises the access-fault of the original access. Memory is as it was when the instruction
began where the access has one piece or stores nothing, so no A or D update of it remains: R108 as log entry 24 reads it. -/
def Obligations.ImplicitViolationTrapsAsOriginal : Prop :=
  ∀ (start s : State) (k : AccessKind) (ea va n w m : Nat) (data : List Byte) (eff : Priv) (x : Translation)
    (ps : List Part) (rest : List (Nat × Nat)),
    s.cfg.faultTarget = .machine → effectivePriv s k = eff → eff ≠ .m →
    spans s.cfg va n = ps.map (fun q => (q.va, q.size)) ++ (w, m) :: rest → (∀ q ∈ ps, q.Passes s k eff) →
    s.hart.xlate.find? (fun x => x.vpn == w / 4096 && x.type == k.type) = some x →
    checkImplicits s [w] eff (x.implicit.filter (implicitMade s.cfg)) = .accessFault →
    ∃ t, access start s k ea va n data = .trap t ∧ t.hart.mcause = k.cause ∧ t.hart.mepc = s.hart.pc ∧
      t.hart.priv = .m ∧ t.hart.x = s.hart.x ∧
      ((ps = [] ∧ rest = []) ∨ data = [] → t.mem = start.mem ∧ t.memPast = start.memPast)

/-- R106, R107: with the spec's target every access-fault is taken in M-mode whatever `medeleg` holds; with the other
target it goes to S-mode exactly from below M-mode and where `medeleg` has the cause's bit. -/
def Obligations.AccessFaultTarget : Prop :=
  ∀ (s : State) (cause tval : Word),
    (s.cfg.faultTarget = .machine → trapAccessFault cause tval s = trapM cause tval s) ∧
    (s.cfg.faultTarget = .medeleg →
      trapAccessFault cause tval s =
        if s.hart.priv ≠ .m ∧ s.hart.medeleg.getLsbD cause.toNat = true then trapS cause tval s
        else trapM cause tval s)

/-- R59, R62, R68, R70: a load of one page or two, translated or not, whose pieces all pass (or that is made with effective
mode M) writes its register with the bytes in memory at the physical addresses of its pieces, advances the pc, and changes
nothing else but for the A updates of its translation. -/
def Obligations.PassingLoadCompletes : Prop :=
  ∀ (start s : State) (reserved signed : Bool) (rd : RegIdx) (va len : Word) (n : Nat) (eff : Priv) (ps : List Part),
    wrapX s.cfg.xlen va = va → effectivePriv s .load = eff →
    spans s.cfg va.toNat n = ps.map (fun q => (q.va, q.size)) → (∀ q ∈ ps, q.Passes s .load eff) → InMemory s.cfg ps →
    let u := storeAll (implicitWrites s.cfg ps) (tickFor .load eff s)
    runLoad start reserved rd va n signed len s =
      .next (advancePc len (setReg rd (loadedValue signed (ps.flatMap (fun q => u.mem.readBytes q.pa q.size))) u))

/-- R59, R62, R70, D14: a store, a store-conditional whether or not it succeeds, and an AMO, of one page or two, translated or
not, whose pieces all pass their check as a write (or that is made with effective mode M): each writes its bytes at the
physical addresses of its pieces (the failing store-conditional none; how they land is log entry 9), its register where it
has one (log entry 31), advances the pc, and changes nothing else but for the A and D updates of its translation. -/
def Obligations.PassingStoreCompletes : Prop :=
  ∀ (start s : State) (rd : RegIdx) (va v len : Word) (n : Nat) (eff : Priv) (ps : List Part),
    wrapX s.cfg.xlen va = va → effectivePriv s .store = eff →
    spans s.cfg va.toNat n = ps.map (fun q => (q.va, q.size)) → (∀ q ∈ ps, q.Passes s .store eff) → InMemory s.cfg ps →
    let u := storeAll (implicitWrites s.cfg ps) (tickFor .store eff s)
    let w := storeAll (dataParts (bytesOf n v.toNat) ps) u
    runStore start va n v len s = .next (advancePc len w) ∧
    runStoreConditional start rd va n v true len s = .next (advancePc len (setReg rd 0 w)) ∧
    runStoreConditional start rd va n v false len s = .next (advancePc len (setReg rd 1 u)) ∧
    runAmo start rd va n v len s =
      .next (advancePc len (setReg rd (loadedValue true (ps.flatMap (fun q => u.mem.readBytes q.pa q.size))) w))

/-- R70, D19, R108: an access that traps leaves every byte outside those of its pieces that passed their checks as it was
when the instruction began. That this covers the page-table bytes an A or D update would change is R108 as log entry 24
reads it. -/
def Obligations.FailedStoreTouchesPassedPiecesOnly : Prop :=
  ∀ (start s t : State) (k : AccessKind) (ea va n : Nat) (data : List Byte) (eff : Priv) (a : Nat),
    effectivePriv s k = eff → access start s k ea va n data = .trap t →
    (∀ p ∈ accessParts s.cfg s.hart eff k.type va n, checkPart s eff k.type p = .ok →
      ¬ (p.pa ≤ a ∧ a < p.pa + p.size)) →
    t.mem.read a = start.mem.read a

/-- R108: a trap an access takes leaves every integer register, `mttp`, the history of fences and the other harts as
they were; an access that stores nothing, and a fetch, leave memory and its history as they were when the instruction
began (the fetch's own A updates included, log entry 24). -/
def Obligations.TrappedAccessIsPrecise : Prop :=
  ∀ (start s t : State),
    (∀ (k : AccessKind) (ea va n : Nat) (data : List Byte), access start s k ea va n data = .trap t →
      t.hart.x = s.hart.x ∧ t.hart.mttp = s.hart.mttp ∧ t.hart.mttpPast = s.hart.mttpPast ∧
      t.hart.fences = s.hart.fences ∧ t.hart.resetOver = s.hart.resetOver ∧ t.hart.pending = s.hart.pending ∧
      t.hart.wInval = s.hart.wInval ∧ t.others = s.others ∧ t.cfg = s.cfg ∧
      (data = [] → t.mem = start.mem ∧ t.memPast = start.memPast)) ∧
    (fetch s = .trap t → t.mem = s.mem ∧ t.memPast = s.memPast ∧ t.hart.x = s.hart.x)

/-- R4, R62, R68 over a whole step: below M-mode, a physical page whose check as a write passes for no span of at most 8
bytes inside it, whatever is drawn, keeps every byte through any step that takes no event, whichever instruction it runs,
whichever virtual page the translation maps to it and whatever the other pages permit. The premise on the translation: it
makes no A or D update (with one, the check is made in a memory that the fetch may have changed). -/
def Obligations.DeniedPageIsNeverWritten : Prop :=
  ∀ (s t : State) (page : Nat), s.events = [] → s.hart.priv ≠ .m →
    (∀ x ∈ s.hart.xlate, ∀ i ∈ x.implicit, i.write ≠ none → s.cfg.hasSvadu = false) →
    (∀ (tick : Nat) (place : List Nat) (p n : Nat), 0 < n → n ≤ 8 → p / 4096 = page → p % 4096 + n ≤ 4096 →
      mttCheck { s with tick := tick } place p n .write s.hart.priv ≠ .pass) →
    step s = .next t → ∀ a, a / 4096 = page → t.mem.read a = s.mem.read a

/-! ## Registers, traps, `mttp`, memory -/

/-- R15: a register write cuts the value to `XLEN` bits; `x0` reads as zero and a write to it is discarded; every other
register keeps its value. -/
def Obligations.RegisterWriteThenRead : Prop :=
  ∀ (s : State) (r q : RegIdx) (v : Word),
    readReg (setReg r v s) q = (if q = 0 then 0 else if q = r then wrapX s.cfg.xlen v else readReg s q) ∧
    (setReg 0 v s) = s

/-- R111: what taking a trap does to the status: the previous mode in `MPP`, the previous `MIE` in `MPIE`, `MIE`
cleared, every other bit kept (the places of `MIE` and `MPIE` are the base architecture's, log entry 6). -/
def Obligations.TrapStatusFields : Prop :=
  ∀ (p : Priv) (v : Word),
    mpp (mstatusAfterTrapM p v) = some p ∧
    (mstatusAfterTrapM p v).getLsbD 7 = v.getLsbD 3 ∧ (mstatusAfterTrapM p v).getLsbD 3 = false ∧
    ∀ i, i ≠ 3 → i ≠ 7 → i ≠ 11 → i ≠ 12 → (mstatusAfterTrapM p v).getLsbD i = v.getLsbD i

/-- R111 ("`mret` undoes it"): MRET right after a trap into M-mode completes with the pc, the mode and the interrupt
enable from before the trap; and in M-mode MRET completes from every state, with the pc from `mepc` and the mode from
`MPP` where it names one (a free one where it does not, log entry 21). -/
def Obligations.MretUndoesTheTrap : Prop :=
  ∀ (s : State) (cause tval bits : Word),
    (∃ t, runMret bits (trapM cause tval s) = .next t ∧ t.hart.pc = s.hart.pc ∧ t.hart.priv = s.hart.priv ∧
      t.hart.mstatus.getLsbD 3 = s.hart.mstatus.getLsbD 3 ∧ t.hart.x = s.hart.x ∧ t.mem = s.mem ∧
      t.hart.fences = s.hart.fences) ∧
    (s.hart.priv = .m → ∃ t, runMret bits s = .next t ∧ t.hart.pc = s.hart.mepc ∧
      (∀ p, mpp s.hart.mstatus = some p → t.hart.priv = p) ∧ t.hart.x = s.hart.x ∧ t.mem = s.mem ∧
      t.hart.fences = s.hart.fences)

/-- R8, R12, R77, D2, D30: WriteMTTP in M-mode with a supported mode replaces the three fields at once and nothing else
but the pc and the history of `mttp`; an unsupported mode is refused; below M-mode it is an illegal instruction. A CSR
instruction on `MTTP_CSR_ADDR`, a read or a write, is an illegal instruction below M-mode, its register unwritten; in M-mode
it reads the register value of the three fields (other bits: log entry 34) and writes as WriteMTTP of the fields of the new
value does (set and clear: log entry 22). -/
def Obligations.WriteMttpAction : Prop :=
  ∀ (s : State) (mode : Mode) (sdid : Word) (ppn : Ppn) (op : CsrOp) (rd : RegIdx) (v bits len : Word),
    (s.hart.priv = .m → mode ∈ s.cfg.supportedModes → sdid.toNat < 2 ^ s.cfg.sdidWidth →
      ppn.toNat < 2 ^ s.cfg.ppnWidth →
      runWriteMttp mode sdid ppn bits len s = .next { s with hart := { s.hart with
        mttp := { mode := mode, sdid := sdid, ppn := ppn }, mttpPast := s.hart.mttp :: s.hart.mttpPast
        pc := wrapX s.cfg.xlen (s.hart.pc + len) } }) ∧
    (s.hart.priv = .m → mode ∉ s.cfg.supportedModes →
      runWriteMttp mode sdid ppn bits len s = .refused .unsupportedMode) ∧
    (s.hart.priv ≠ .m → ∀ o, o = runWriteMttp mode sdid ppn bits len s ∨ o = runCsr op rd s.cfg.mttpCsrAddr v bits len s →
      ∃ t, o = .next t ∧ t.hart.mcause = 2#64 ∧ t.hart.mepc = s.hart.pc ∧ t.hart.priv = .m ∧
        t.hart.mttp = s.hart.mttp ∧ t.hart.mttpPast = s.hart.mttpPast ∧ t.hart.x = s.hart.x ∧ t.mem = s.mem) ∧
    (s.hart.priv = .m →
      let old := wrapX s.cfg.xlen (packMttp s.cfg s.hart.mttp)
      let new := wrapX s.cfg.xlen (match op with
        | .write => v
        | .set => old ||| v
        | .clear => old &&& ~~~v)
      (op ≠ .write → v = 0 →
        runCsr op rd s.cfg.mttpCsrAddr v bits len s = .next (advancePc len (setReg rd old s))) ∧
      (op = .write ∨ v ≠ 0 →
        (∀ m, unpackMttp s.cfg new = some m → m.mode ∈ s.cfg.supportedModes →
          runCsr op rd s.cfg.mttpCsrAddr v bits len s = .next (advancePc len (setReg rd old { s with hart := { s.hart with
            mttp := m, mttpPast := s.hart.mttp :: s.hart.mttpPast } }))) ∧
        ((∀ m, unpackMttp s.cfg new = some m → m.mode ∉ s.cfg.supportedModes) →
          runCsr op rd s.cfg.mttpCsrAddr v bits len s = .refused .unsupportedMode)))

/-- R7 to R10: for a layout and mode codes the spec allows, reading `mttp` back into its fields gives the fields that
were put in. -/
def Obligations.MttpLayoutRoundTrip : Prop :=
  ∀ (c : Config) (m : Mttp), c.wf = true → m.mode ∈ c.supportedModes → m.sdid.toNat < 2 ^ c.sdidWidth →
    m.ppn.toNat < 2 ^ c.ppnWidth → unpackMttp c (packMttp c m) = some m

/-- R26, D6: eight bytes stored at an address, least significant first, read back as the same entry where entries are
little-endian; and bytes elsewhere are untouched. -/
def Obligations.StoredEntryReadsBack : Prop :=
  ∀ (c : Config) (m : Memory) (a b : Nat) (v : Word), m.wf = true → c.mttEndian = .little →
    Memory.readEntry c (m.writeBytes a (bytesOf 8 v.toNat)) a = v ∧
    (b < a ∨ a + 8 ≤ b → (m.writeBytes a (bytesOf 8 v.toNat)).read b = m.read b)

/-! ## Reset and the invariant -/

/-- R22, R116: after reset every hart is in M-mode with `MPRV` 0, holds `MTTP_RESET` and counts no fence of everything, for
all parameter values; and the reset state meets the invariant for all parameter values the spec allows (its other values
are the model's, log entry 1). -/
def Obligations.ResetState : Prop :=
  (∀ c : Config, ∀ h ∈ (State.resetWith c).hart :: (State.resetWith c).others,
    h.priv = .m ∧ mprv h.mstatus = false ∧ h.mttp = c.mttpReset ∧ h.resetOver = false) ∧
  (∀ c : Config, c.wf = true → (State.resetWith c).Inv) ∧ State.reset.Inv

/-- Every step keeps the invariant: memory and every memory of the history canonical, registers `XLEN` bits wide,
`MPP` a mode (that a CSR write of 2 leaves one is the model's choice, log entry 21), `mttp` and its earlier values legal, no
fence or mark in the future, a fence of everything once reset is over, an invalidation counted after a mark only where a
mark stands, the number of harts. -/
def Obligations.StepKeepsTheInvariant : Prop :=
  ∀ s t : State, s.Inv → step s = .next t → t.Inv
end

