-- ==== Sys2Proof/Laws/State.lean ====
section
/-! SUPPORT. The named updates of the state, one lemma for each field and each update, so that no proof unfolds a
record update: what each leaves of the state's fields, and the hart it leaves. -/

namespace Sys2Proof.Machine

/-- The exception codes of the spec fit any register. -/
@[simp] theorem wrapX_one (x : Xlen) : wrapX x 1#64 = 1#64 := by cases x <;> decide
@[simp] theorem wrapX_two (x : Xlen) : wrapX x 2#64 = 2#64 := by cases x <;> decide
@[simp] theorem wrapX_five (x : Xlen) : wrapX x 5#64 = 5#64 := by cases x <;> decide
@[simp] theorem wrapX_seven (x : Xlen) : wrapX x 7#64 = 7#64 := by cases x <;> decide

@[simp] theorem setHart_hart (h : Hart) (s : State) : (setHart h s).hart =
    h := rfl
@[simp] theorem setHart_cfg (h : Hart) (s : State) : (setHart h s).cfg = s.cfg := rfl
@[simp] theorem setHart_mem (h : Hart) (s : State) : (setHart h s).mem = s.mem := rfl
@[simp] theorem setHart_memPast (h : Hart) (s : State) : (setHart h s).memPast = s.memPast := rfl
@[simp] theorem setHart_others (h : Hart) (s : State) : (setHart h s).others = s.others := rfl
@[simp] theorem setHart_events (h : Hart) (s : State) : (setHart h s).events = s.events := rfl
@[simp] theorem setHart_tick (h : Hart) (s : State) : (setHart h s).tick = s.tick := rfl

@[simp] theorem setPc_hart (v : Word) (s : State) : (setPc v s).hart =
    { s.hart with pc := wrapX s.cfg.xlen v } := rfl
@[simp] theorem setPc_cfg (v : Word) (s : State) : (setPc v s).cfg = s.cfg := rfl
@[simp] theorem setPc_mem (v : Word) (s : State) : (setPc v s).mem = s.mem := rfl
@[simp] theorem setPc_memPast (v : Word) (s : State) : (setPc v s).memPast = s.memPast := rfl
@[simp] theorem setPc_others (v : Word) (s : State) : (setPc v s).others = s.others := rfl
@[simp] theorem setPc_events (v : Word) (s : State) : (setPc v s).events = s.events := rfl
@[simp] theorem setPc_tick (v : Word) (s : State) : (setPc v s).tick = s.tick := rfl

@[simp] theorem advancePc_hart (len : Word) (s : State) : (advancePc len s).hart =
    { s.hart with pc := wrapX s.cfg.xlen (s.hart.pc + len) } := rfl
@[simp] theorem advancePc_cfg (len : Word) (s : State) : (advancePc len s).cfg = s.cfg := rfl
@[simp] theorem advancePc_mem (len : Word) (s : State) : (advancePc len s).mem = s.mem := rfl
@[simp] theorem advancePc_memPast (len : Word) (s : State) : (advancePc len s).memPast = s.memPast := rfl
@[simp] theorem advancePc_others (len : Word) (s : State) : (advancePc len s).others = s.others := rfl
@[simp] theorem advancePc_events (len : Word) (s : State) : (advancePc len s).events = s.events := rfl
@[simp] theorem advancePc_tick (len : Word) (s : State) : (advancePc len s).tick = s.tick := rfl

@[simp] theorem recordFences_hart (sels : List Selector) (t : Horizon) (s : State) : (recordFences sels t s).hart =
    { s.hart with
      fences := sels.map (fun sel => { sel := sel, time := t }) ++ s.hart.fences
      resetOver := s.hart.resetOver || sels.contains .all } := rfl
@[simp] theorem recordFences_cfg (sels : List Selector) (t : Horizon) (s : State) :
    (recordFences sels t s).cfg = s.cfg := rfl
@[simp] theorem recordFences_mem (sels : List Selector) (t : Horizon) (s : State) :
    (recordFences sels t s).mem = s.mem := rfl
@[simp] theorem recordFences_memPast (sels : List Selector) (t : Horizon) (s : State) :
    (recordFences sels t s).memPast = s.memPast := rfl
@[simp] theorem recordFences_others (sels : List Selector) (t : Horizon) (s : State) :
    (recordFences sels t s).others = s.others := rfl
@[simp] theorem recordFences_events (sels : List Selector) (t : Horizon) (s : State) :
    (recordFences sels t s).events = s.events := rfl
@[simp] theorem recordFences_tick (sels : List Selector) (t : Horizon) (s : State) :
    (recordFences sels t s).tick = s.tick := rfl

@[simp] theorem clearPending_hart (s : State) : (clearPending s).hart = { s.hart with pending := [] } := rfl
@[simp] theorem clearPending_cfg (s : State) : (clearPending s).cfg = s.cfg := rfl
@[simp] theorem clearPending_mem (s : State) : (clearPending s).mem = s.mem := rfl
@[simp] theorem clearPending_memPast (s : State) : (clearPending s).memPast = s.memPast := rfl
@[simp] theorem clearPending_others (s : State) : (clearPending s).others = s.others := rfl
@[simp] theorem clearPending_events (s : State) : (clearPending s).events = s.events := rfl
@[simp] theorem clearPending_tick (s : State) : (clearPending s).tick = s.tick := rfl

@[simp] theorem recordFence_hart (sel : Selector) (t : Horizon) (s : State) : (recordFence sel t s).hart =
    { s.hart with
      fences := { sel := sel, time := t } :: s.hart.fences
      resetOver := s.hart.resetOver || sel == .all } := by
  cases sel <;> rfl
@[simp] theorem recordFence_cfg (sel : Selector) (t : Horizon) (s : State) : (recordFence sel t s).cfg = s.cfg := rfl
@[simp] theorem recordFence_mem (sel : Selector) (t : Horizon) (s : State) : (recordFence sel t s).mem = s.mem := rfl
@[simp] theorem recordFence_memPast (sel : Selector) (t : Horizon) (s : State) : (recordFence sel t s).memPast = s.memPast := rfl
@[simp] theorem recordFence_others (sel : Selector) (t : Horizon) (s : State) : (recordFence sel t s).others = s.others := rfl
@[simp] theorem recordFence_events (sel : Selector) (t : Horizon) (s : State) : (recordFence sel t s).events = s.events := rfl
@[simp] theorem recordFence_tick (sel : Selector) (t : Horizon) (s : State) : (recordFence sel t s).tick = s.tick := rfl

@[simp] theorem addPending_hart (sel : Selector) (s : State) : (addPending sel s).hart =
    { s.hart with
      pending := { sel := sel, afterMark := s.hart.wInval.isSome } :: s.hart.pending } := rfl
@[simp] theorem addPending_cfg (sel : Selector) (s : State) : (addPending sel s).cfg = s.cfg := rfl
@[simp] theorem addPending_mem (sel : Selector) (s : State) : (addPending sel s).mem = s.mem := rfl
@[simp] theorem addPending_memPast (sel : Selector) (s : State) : (addPending sel s).memPast = s.memPast := rfl
@[simp] theorem addPending_others (sel : Selector) (s : State) : (addPending sel s).others = s.others := rfl
@[simp] theorem addPending_events (sel : Selector) (s : State) : (addPending sel s).events = s.events := rfl
@[simp] theorem addPending_tick (sel : Selector) (s : State) : (addPending sel s).tick = s.tick := rfl

@[simp] theorem markWInval_hart (s : State) : (markWInval s).hart =
    { s.hart with
      wInval := some (now s)
      pending := s.hart.pending.map (fun p => { p with afterMark := false }) } := rfl
@[simp] theorem markWInval_cfg (s : State) : (markWInval s).cfg = s.cfg := rfl
@[simp] theorem markWInval_mem (s : State) : (markWInval s).mem = s.mem := rfl
@[simp] theorem markWInval_memPast (s : State) : (markWInval s).memPast = s.memPast := rfl
@[simp] theorem markWInval_others (s : State) : (markWInval s).others = s.others := rfl
@[simp] theorem markWInval_events (s : State) : (markWInval s).events = s.events := rfl
@[simp] theorem markWInval_tick (s : State) : (markWInval s).tick = s.tick := rfl

@[simp] theorem putMttp_hart (m : Mttp) (s : State) : (putMttp m s).hart =
    { s.hart with mttp := m, mttpPast := s.hart.mttp :: s.hart.mttpPast } := rfl
@[simp] theorem putMttp_cfg (m : Mttp) (s : State) : (putMttp m s).cfg = s.cfg := rfl
@[simp] theorem putMttp_mem (m : Mttp) (s : State) : (putMttp m s).mem = s.mem := rfl
@[simp] theorem putMttp_memPast (m : Mttp) (s : State) : (putMttp m s).memPast = s.memPast := rfl
@[simp] theorem putMttp_others (m : Mttp) (s : State) : (putMttp m s).others = s.others := rfl
@[simp] theorem putMttp_events (m : Mttp) (s : State) : (putMttp m s).events = s.events := rfl
@[simp] theorem putMttp_tick (m : Mttp) (s : State) : (putMttp m s).tick = s.tick := rfl

@[simp] theorem trapM_hart (cause tval : Word) (s : State) : (trapM cause tval s).hart =
    { s.hart with
      mepc    := s.hart.pc
      mcause  := wrapX s.cfg.xlen cause
      mtval   := wrapX s.cfg.xlen tval
      mstatus := mstatusAfterTrapM s.hart.priv s.hart.mstatus
      priv    := .m
      pc      := vectorBase s.hart.mtvec } := rfl
@[simp] theorem trapM_cfg (cause tval : Word) (s : State) : (trapM cause tval s).cfg = s.cfg := rfl
@[simp] theorem trapM_mem (cause tval : Word) (s : State) : (trapM cause tval s).mem = s.mem := rfl
@[simp] theorem trapM_memPast (cause tval : Word) (s : State) : (trapM cause tval s).memPast = s.memPast := rfl
@[simp] theorem trapM_others (cause tval : Word) (s : State) : (trapM cause tval s).others = s.others := rfl
@[simp] theorem trapM_events (cause tval : Word) (s : State) : (trapM cause tval s).events = s.events := rfl
@[simp] theorem trapM_tick (cause tval : Word) (s : State) : (trapM cause tval s).tick = s.tick := rfl

@[simp] theorem trapS_hart (cause tval : Word) (s : State) : (trapS cause tval s).hart =
    { s.hart with
      sepc    := s.hart.pc
      scause  := wrapX s.cfg.xlen cause
      stval   := wrapX s.cfg.xlen tval
      mstatus := mstatusAfterTrapS s.hart.priv s.hart.mstatus
      priv    := .s
      pc      := vectorBase s.hart.stvec } := rfl
@[simp] theorem trapS_cfg (cause tval : Word) (s : State) : (trapS cause tval s).cfg = s.cfg := rfl
@[simp] theorem trapS_mem (cause tval : Word) (s : State) : (trapS cause tval s).mem = s.mem := rfl
@[simp] theorem trapS_memPast (cause tval : Word) (s : State) : (trapS cause tval s).memPast = s.memPast := rfl
@[simp] theorem trapS_others (cause tval : Word) (s : State) : (trapS cause tval s).others = s.others := rfl
@[simp] theorem trapS_events (cause tval : Word) (s : State) : (trapS cause tval s).events = s.events := rfl
@[simp] theorem trapS_tick (cause tval : Word) (s : State) : (trapS cause tval s).tick = s.tick := rfl

@[simp] theorem returnM_hart (p : Priv) (s : State) : (returnM p s).hart =
    { s.hart with
      priv    := p
      mstatus := mstatusAfterMret p s.hart.mstatus
      pc      := s.hart.mepc } := rfl
@[simp] theorem returnM_cfg (p : Priv) (s : State) : (returnM p s).cfg = s.cfg := rfl
@[simp] theorem returnM_mem (p : Priv) (s : State) : (returnM p s).mem = s.mem := rfl
@[simp] theorem returnM_memPast (p : Priv) (s : State) : (returnM p s).memPast = s.memPast := rfl
@[simp] theorem returnM_others (p : Priv) (s : State) : (returnM p s).others = s.others := rfl
@[simp] theorem returnM_events (p : Priv) (s : State) : (returnM p s).events = s.events := rfl
@[simp] theorem returnM_tick (p : Priv) (s : State) : (returnM p s).tick = s.tick := rfl

@[simp] theorem returnS_hart (s : State) : (returnS s).hart =
    { s.hart with
      priv    := spp s.hart.mstatus
      mstatus := mstatusAfterSret s.hart.mstatus
      pc      := s.hart.sepc } := rfl
@[simp] theorem returnS_cfg (s : State) : (returnS s).cfg = s.cfg := rfl
@[simp] theorem returnS_mem (s : State) : (returnS s).mem = s.mem := rfl
@[simp] theorem returnS_memPast (s : State) : (returnS s).memPast = s.memPast := rfl
@[simp] theorem returnS_others (s : State) : (returnS s).others = s.others := rfl
@[simp] theorem returnS_events (s : State) : (returnS s).events = s.events := rfl
@[simp] theorem returnS_tick (s : State) : (returnS s).tick = s.tick := rfl

@[simp] theorem popBaseOp_hart (s : State) : (popBaseOp s).hart =
    { s.hart with baseOps := s.hart.baseOps.tail } := rfl
@[simp] theorem popBaseOp_cfg (s : State) : (popBaseOp s).cfg = s.cfg := rfl
@[simp] theorem popBaseOp_mem (s : State) : (popBaseOp s).mem = s.mem := rfl
@[simp] theorem popBaseOp_memPast (s : State) : (popBaseOp s).memPast = s.memPast := rfl
@[simp] theorem popBaseOp_others (s : State) : (popBaseOp s).others = s.others := rfl
@[simp] theorem popBaseOp_events (s : State) : (popBaseOp s).events = s.events := rfl
@[simp] theorem popBaseOp_tick (s : State) : (popBaseOp s).tick = s.tick := rfl

@[simp] theorem nextTick_hart (s : State) : (nextTick s).hart = s.hart := rfl
@[simp] theorem nextTick_cfg (s : State) : (nextTick s).cfg = s.cfg := rfl
@[simp] theorem nextTick_mem (s : State) : (nextTick s).mem = s.mem := rfl
@[simp] theorem nextTick_memPast (s : State) : (nextTick s).memPast = s.memPast := rfl
@[simp] theorem nextTick_others (s : State) : (nextTick s).others = s.others := rfl
@[simp] theorem nextTick_events (s : State) : (nextTick s).events = s.events := rfl
@[simp] theorem nextTick_tick (s : State) : (nextTick s).tick = s.tick + 1 := rfl

@[simp] theorem setMem_hart (m : Memory) (s : State) : (setMem m s).hart = s.hart := rfl
@[simp] theorem setMem_cfg (m : Memory) (s : State) : (setMem m s).cfg = s.cfg := rfl
@[simp] theorem setMem_mem (m : Memory) (s : State) : (setMem m s).mem = m := rfl
@[simp] theorem setMem_memPast (m : Memory) (s : State) : (setMem m s).memPast = s.mem :: s.memPast := rfl
@[simp] theorem setMem_others (m : Memory) (s : State) : (setMem m s).others = s.others := rfl
@[simp] theorem setMem_events (m : Memory) (s : State) : (setMem m s).events = s.events := rfl
@[simp] theorem setMem_tick (m : Memory) (s : State) : (setMem m s).tick = s.tick := rfl

@[simp] theorem popEvent_hart (s : State) : (popEvent s).hart = s.hart := rfl
@[simp] theorem popEvent_cfg (s : State) : (popEvent s).cfg = s.cfg := rfl
@[simp] theorem popEvent_mem (s : State) : (popEvent s).mem = s.mem := rfl
@[simp] theorem popEvent_memPast (s : State) : (popEvent s).memPast = s.memPast := rfl
@[simp] theorem popEvent_others (s : State) : (popEvent s).others = s.others := rfl
@[simp] theorem popEvent_events (s : State) : (popEvent s).events = s.events.tail := rfl
@[simp] theorem popEvent_tick (s : State) : (popEvent s).tick = s.tick := rfl

@[simp] theorem tickMpp_hart (s : State) : (tickMpp s).hart = s.hart := by unfold tickMpp; split <;> rfl
@[simp] theorem tickMpp_cfg (s : State) : (tickMpp s).cfg = s.cfg := by unfold tickMpp; split <;> rfl
@[simp] theorem tickMpp_mem (s : State) : (tickMpp s).mem = s.mem := by unfold tickMpp; split <;> rfl
@[simp] theorem tickMpp_memPast (s : State) : (tickMpp s).memPast = s.memPast := by unfold tickMpp; split <;> rfl
@[simp] theorem tickMpp_others (s : State) : (tickMpp s).others = s.others := by unfold tickMpp; split <;> rfl
@[simp] theorem tickMpp_events (s : State) : (tickMpp s).events = s.events := by unfold tickMpp; split <;> rfl

@[simp] theorem putMstatus_cfg (v : Word) (s : State) : (putMstatus v s).cfg = s.cfg := by
  unfold putMstatus; split <;> rfl
@[simp] theorem putMstatus_mem (v : Word) (s : State) : (putMstatus v s).mem = s.mem := by
  unfold putMstatus; split <;> rfl
@[simp] theorem putMstatus_memPast (v : Word) (s : State) : (putMstatus v s).memPast = s.memPast := by
  unfold putMstatus; split <;> rfl
@[simp] theorem putMstatus_others (v : Word) (s : State) : (putMstatus v s).others = s.others := by
  unfold putMstatus; split <;> rfl
@[simp] theorem putMstatus_events (v : Word) (s : State) : (putMstatus v s).events = s.events := by
  unfold putMstatus; split <;> rfl

/-- A write of `mstatus` touches that register alone. -/
theorem putMstatus_hart (v : Word) (s : State) :
    (putMstatus v s).hart = { s.hart with mstatus := (putMstatus v s).hart.mstatus } := by
  unfold putMstatus; split <;> rfl

/-- Where `MPP` names a mode, that mode is meant. -/
theorem mppMode_named {s : State} {p : Priv} (h : mpp s.hart.mstatus = some p) : mppMode s = p := by
  simp [mppMode, h]

/-- Writing `x0` changes nothing (R15). -/
@[simp] theorem setReg_zero (v : Word) (s : State) : setReg 0 v s = s := rfl

@[simp] theorem setReg_cfg (r : RegIdx) (v : Word) (s : State) : (setReg r v s).cfg = s.cfg := by
  unfold setReg; split <;> rfl
@[simp] theorem setReg_mem (r : RegIdx) (v : Word) (s : State) : (setReg r v s).mem = s.mem := by
  unfold setReg; split <;> rfl
@[simp] theorem setReg_memPast (r : RegIdx) (v : Word) (s : State) : (setReg r v s).memPast = s.memPast := by
  unfold setReg; split <;> rfl
@[simp] theorem setReg_others (r : RegIdx) (v : Word) (s : State) : (setReg r v s).others = s.others := by
  unfold setReg; split <;> rfl
@[simp] theorem setReg_events (r : RegIdx) (v : Word) (s : State) : (setReg r v s).events = s.events := by
  unfold setReg; split <;> rfl
@[simp] theorem setReg_tick (r : RegIdx) (v : Word) (s : State) : (setReg r v s).tick = s.tick := by
  unfold setReg; split <;> rfl

/-- A register write touches the integer registers alone. -/
theorem setReg_hart (r : RegIdx) (v : Word) (s : State) :
    (setReg r v s).hart = { s.hart with x := (setReg r v s).hart.x } := by
  unfold setReg; split <;> rfl

@[simp] theorem closeInvals_cfg (s : State) : (closeInvals s).cfg = s.cfg := by
  unfold closeInvals; split <;> rfl
@[simp] theorem closeInvals_mem (s : State) : (closeInvals s).mem = s.mem := by
  unfold closeInvals; split <;> rfl
@[simp] theorem closeInvals_memPast (s : State) : (closeInvals s).memPast = s.memPast := by
  unfold closeInvals; split <;> rfl
@[simp] theorem closeInvals_others (s : State) : (closeInvals s).others = s.others := by
  unfold closeInvals; split <;> rfl
@[simp] theorem closeInvals_events (s : State) : (closeInvals s).events = s.events := by
  unfold closeInvals; split <;> rfl
@[simp] theorem closeInvals_tick (s : State) : (closeInvals s).tick = s.tick := by
  unfold closeInvals; split <;> rfl

@[simp] theorem trapAccessFault_cfg (cause tval : Word) (s : State) : (trapAccessFault cause tval s).cfg = s.cfg := by
  unfold trapAccessFault; split <;> rfl
@[simp] theorem trapAccessFault_mem (cause tval : Word) (s : State) : (trapAccessFault cause tval s).mem = s.mem := by
  unfold trapAccessFault; split <;> rfl
@[simp] theorem trapAccessFault_memPast (cause tval : Word) (s : State) : (trapAccessFault cause tval s).memPast = s.memPast := by
  unfold trapAccessFault; split <;> rfl
@[simp] theorem trapAccessFault_others (cause tval : Word) (s : State) : (trapAccessFault cause tval s).others = s.others := by
  unfold trapAccessFault; split <;> rfl
@[simp] theorem trapAccessFault_events (cause tval : Word) (s : State) : (trapAccessFault cause tval s).events = s.events := by
  unfold trapAccessFault; split <;> rfl
@[simp] theorem trapAccessFault_tick (cause tval : Word) (s : State) : (trapAccessFault cause tval s).tick = s.tick := by
  unfold trapAccessFault; split <;> rfl

@[simp] theorem raiseIllegal_cfg (bits : Word) (s : State) : (raiseIllegal bits s).cfg = s.cfg := rfl
@[simp] theorem raiseIllegal_mem (bits : Word) (s : State) : (raiseIllegal bits s).mem = s.mem := rfl
@[simp] theorem raiseIllegal_memPast (bits : Word) (s : State) : (raiseIllegal bits s).memPast = s.memPast := rfl
@[simp] theorem raiseIllegal_others (bits : Word) (s : State) : (raiseIllegal bits s).others = s.others := rfl
@[simp] theorem raiseIllegal_events (bits : Word) (s : State) : (raiseIllegal bits s).events = s.events := rfl
@[simp] theorem raiseIllegal_tick (bits : Word) (s : State) : (raiseIllegal bits s).tick = s.tick + 1 := rfl

end Sys2Proof.Machine
end

