-- ==== Sys2Proof/Laws/Memory.lean ====
section
/-! SUPPORT. The laws of memory: a byte written reads back, every other byte is untouched, the canonical form is kept;
bytes and numbers; what the stores of any agent leave of the state. -/

namespace Sys2Proof.Machine

/-! ## One byte -/

/-- A write leaves every other address alone. -/
theorem Memory.read_write_other (m : Memory) (a b : Nat) (v : Byte) (h : b ≠ a) :
    (m.write a v).read b = m.read b := by
  induction m with
  | nil => unfold Memory.write; split <;> simp [Memory.read, h.symm]
  | cons c m ih =>
    unfold Memory.write
    split
    · split <;> simp [Memory.read, h.symm]
    · split
      · rename_i hc
        subst hc
        split <;> simp [Memory.read, h.symm]
      · simp [Memory.read, ih]

/-- An address below every listed one reads as unlisted. -/
theorem Memory.read_below (m : Memory) (a : Nat) (h : ∀ c ∈ m, a < c.1) : m.read a = Memory.unlisted a := by
  induction m with
  | nil => rfl
  | cons c m ih =>
    have h1 : c.1 ≠ a := by have := h c (by simp); omega
    simp [Memory.read, h1, ih (fun d hd => h d (by simp [hd]))]

/-- What the canonical form says of a non-empty memory. -/
theorem Memory.wf_cons (c : Host.Cell) (m : Memory) :
    Memory.wf (c :: m) = true ↔ c.2 ≠ Memory.unlisted c.1 ∧ (∀ d ∈ m, c.1 < d.1) ∧ Memory.wf m = true := by
  simp [Memory.wf, and_assoc]

/-- A byte written reads back. -/
theorem Memory.read_write_same (m : Memory) (a : Nat) (v : Byte) (h : m.wf = true) : (m.write a v).read a = v := by
  induction m with
  | nil => unfold Memory.write; split <;> simp_all [Memory.read]
  | cons c m ih =>
    rw [Memory.wf_cons] at h
    obtain ⟨-, hlt, hm⟩ := h
    unfold Memory.write
    split
    · rename_i hac
      split
      · rename_i hv
        rw [Memory.read_below (c :: m) a, hv]
        intro d hd
        rcases List.mem_cons.mp hd with rfl | hd
        · exact hac
        · exact Nat.lt_trans hac (hlt d hd)
      · simp [Memory.read]
    · split
      · rename_i hac
        split
        · rename_i hv
          rw [Memory.read_below m a (fun d hd => hac ▸ hlt d hd), hv]
        · simp [Memory.read]
      · rename_i _ hac
        simp [Memory.read, Ne.symm hac, ih hm]

/-- A write lists no address but its own and those already listed. -/
theorem Memory.mem_write (m : Memory) (a : Nat) (v : Byte) (d : Host.Cell) (h : d ∈ m.write a v) :
    d = (a, v) ∨ d ∈ m := by
  induction m with
  | nil => unfold Memory.write at h; split at h <;> simp_all
  | cons c m ih =>
    unfold Memory.write at h
    split at h
    · split at h
      · exact .inr h
      · rcases List.mem_cons.mp h with h | h
        · exact .inl h
        · exact .inr h
    · split at h
      · split at h
        · exact .inr (List.mem_cons_of_mem _ h)
        · rcases List.mem_cons.mp h with h | h
          · exact .inl h
          · exact .inr (List.mem_cons_of_mem _ h)
      · rcases List.mem_cons.mp h with h | h
        · exact .inr (h ▸ List.mem_cons_self)
        · rcases ih h with h | h
          · exact .inl h
          · exact .inr (List.mem_cons_of_mem _ h)

/-- A write keeps the canonical form. -/
theorem Memory.write_wf (m : Memory) (a : Nat) (v : Byte) (h : m.wf = true) : (m.write a v).wf = true := by
  induction m with
  | nil => unfold Memory.write; split <;> simp_all [Memory.wf]
  | cons c m ih =>
    have h0 := h
    rw [Memory.wf_cons] at h
    obtain ⟨hv, hlt, hm⟩ := h
    unfold Memory.write
    split
    · rename_i hac
      split
      · exact h0
      · rename_i hne
        rw [Memory.wf_cons]
        refine ⟨hne, fun d hd => ?_, h0⟩
        rcases List.mem_cons.mp hd with rfl | hd
        · exact hac
        · exact Nat.lt_trans hac (hlt d hd)
    · split
      · rename_i hac
        split
        · exact hm
        · rename_i hne
          rw [Memory.wf_cons]
          exact ⟨hne, fun d hd => hac ▸ hlt d hd, hm⟩
      · rename_i hlo hne
        rw [Memory.wf_cons]
        refine ⟨hv, fun d hd => ?_, ih hm⟩
        rcases Memory.mem_write m a v d hd with rfl | hd
        · simp; omega
        · exact hlt d hd

/-! ## Bytes in a row -/

theorem Memory.writeBytes_wf (bs : List Byte) (m : Memory) (a : Nat) (h : m.wf = true) :
    (m.writeBytes a bs).wf = true := by
  induction bs generalizing m a with
  | nil => exact h
  | cons b bs ih => exact ih _ _ (Memory.write_wf m a b h)

/-- Bytes written in a row leave every address outside the row alone. -/
theorem Memory.read_writeBytes_other (bs : List Byte) (m : Memory) (a b : Nat) (h : b < a ∨ a + bs.length ≤ b) :
    (m.writeBytes a bs).read b = m.read b := by
  induction bs generalizing m a with
  | nil => rfl
  | cons c bs ih =>
    simp only [List.length_cons] at h
    rw [Memory.writeBytes, ih _ _ (by omega), Memory.read_write_other _ _ _ _ (by omega)]

/-- Bytes written in a row read back. -/
theorem Memory.readBytes_writeBytes (bs : List Byte) (m : Memory) (a : Nat) (h : m.wf = true) :
    (m.writeBytes a bs).readBytes a bs.length = bs := by
  induction bs generalizing m a with
  | nil => rfl
  | cons b bs ih =>
    simp only [List.length_cons, Memory.readBytes, Memory.writeBytes]
    rw [Memory.read_writeBytes_other _ _ _ _ (by omega), Memory.read_write_same _ _ _ h,
      ih _ _ (Memory.write_wf m a b h)]

@[simp] theorem Memory.readBytes_length (m : Memory) (n a : Nat) : (m.readBytes a n).length = n := by
  induction n generalizing a with
  | zero => rfl
  | succ n ih => simp [Memory.readBytes, ih]

/-- Two reads in a row are one. -/
theorem Memory.readBytes_append (m : Memory) (k n a : Nat) :
    m.readBytes a (k + n) = m.readBytes a k ++ m.readBytes (a + k) n := by
  induction k generalizing a with
  | zero => simp [Memory.readBytes]
  | succ k ih => rw [Nat.succ_add, Memory.readBytes, ih, Memory.readBytes, List.cons_append, Nat.add_assoc, Nat.add_comm 1 k]

@[simp] theorem bytesOf_length (n v : Nat) : (bytesOf n v).length = n := by
  induction n generalizing v with
  | zero => rfl
  | succ n ih => simp [bytesOf, ih]

/-- The number that the low `n` bytes of `v` stand for. -/
theorem natOfBytes_bytesOf (n v : Nat) : natOfBytes (bytesOf n v) = v % 256 ^ n := by
  induction n generalizing v with
  | zero => simp [bytesOf, natOfBytes, Nat.mod_one]
  | succ n ih =>
    simp only [bytesOf, natOfBytes, ih, BitVec.toNat_ofNat]
    rw [show (2 : Nat) ^ 8 = 256 from rfl, Nat.pow_succ, Nat.mul_comm (256 ^ n) 256, Nat.mod_mul]

/-! ## Stores -/

@[simp] theorem storePieces_hart (bs : List Byte) (a : Nat) (s : State) : (storePieces a bs s).hart = s.hart := by
  induction bs generalizing a s with
  | nil => rfl
  | cons b bs ih => simp [storePieces, ih]
@[simp] theorem storePieces_cfg (bs : List Byte) (a : Nat) (s : State) : (storePieces a bs s).cfg = s.cfg := by
  induction bs generalizing a s with
  | nil => rfl
  | cons b bs ih => simp [storePieces, ih]
@[simp] theorem storePieces_others (bs : List Byte) (a : Nat) (s : State) :
    (storePieces a bs s).others = s.others := by
  induction bs generalizing a s with
  | nil => rfl
  | cons b bs ih => simp [storePieces, ih]
@[simp] theorem storePieces_events (bs : List Byte) (a : Nat) (s : State) :
    (storePieces a bs s).events = s.events := by
  induction bs generalizing a s with
  | nil => rfl
  | cons b bs ih => simp [storePieces, ih]
@[simp] theorem storePieces_tick (bs : List Byte) (a : Nat) (s : State) : (storePieces a bs s).tick = s.tick := by
  induction bs generalizing a s with
  | nil => rfl
  | cons b bs ih => simp [storePieces, ih]
@[simp] theorem storePieces_mem (bs : List Byte) (a : Nat) (s : State) :
    (storePieces a bs s).mem = s.mem.writeBytes a bs := by
  induction bs generalizing a s with
  | nil => rfl
  | cons b bs ih => simp [storePieces, ih, Memory.writeBytes]

@[simp] theorem storeBytes_hart (bs : List Byte) (a : Nat) (s : State) : (storeBytes a bs s).hart = s.hart := by
  unfold storeBytes; split <;> simp
@[simp] theorem storeBytes_cfg (bs : List Byte) (a : Nat) (s : State) : (storeBytes a bs s).cfg = s.cfg := by
  unfold storeBytes; split <;> simp
@[simp] theorem storeBytes_others (bs : List Byte) (a : Nat) (s : State) : (storeBytes a bs s).others = s.others := by
  unfold storeBytes; split <;> simp
@[simp] theorem storeBytes_events (bs : List Byte) (a : Nat) (s : State) : (storeBytes a bs s).events = s.events := by
  unfold storeBytes; split <;> simp
@[simp] theorem storeBytes_tick (bs : List Byte) (a : Nat) (s : State) : (storeBytes a bs s).tick = s.tick := by
  unfold storeBytes; split <;> simp
@[simp] theorem storeBytes_mem (bs : List Byte) (a : Nat) (s : State) :
    (storeBytes a bs s).mem = s.mem.writeBytes a bs := by
  unfold storeBytes; split <;> simp

/-- What a change of memory can do to the history: it only grows, and only by memories that are canonical if the
present one is. -/
structure Grows (s t : State) : Prop where
  hart   : t.hart = s.hart
  cfg    : t.cfg = s.cfg
  others : t.others = s.others
  events : t.events = s.events
  memWf  : s.mem.wf = true → t.mem.wf = true
  past   : ∃ l, t.memPast = l ++ s.memPast ∧ (s.mem.wf = true → ∀ m ∈ l, Memory.wf m = true)

theorem Grows.refl (s : State) : Grows s s := ⟨rfl, rfl, rfl, rfl, id, [], rfl, by simp⟩

theorem Grows.trans {s t u : State} (h : Grows s t) (k : Grows t u) : Grows s u := by
  obtain ⟨l, hl, hw⟩ := h.past
  obtain ⟨l', hl', hw'⟩ := k.past
  refine ⟨k.hart.trans h.hart, k.cfg.trans h.cfg, k.others.trans h.others, k.events.trans h.events,
    fun w => k.memWf (h.memWf w), l' ++ l, by rw [hl', hl, List.append_assoc], fun w m hm => ?_⟩
  rcases List.mem_append.mp hm with hm | hm
  · exact hw' (h.memWf w) m hm
  · exact hw w m hm

theorem grows_setMem (m : Memory) (s : State) (h : s.mem.wf = true → m.wf = true) : Grows s (setMem m s) :=
  ⟨rfl, rfl, rfl, rfl, h, [s.mem], rfl, fun w m hm => by simp at hm; exact hm ▸ w⟩

theorem grows_storePieces (bs : List Byte) (a : Nat) (s : State) : Grows s (storePieces a bs s) := by
  induction bs generalizing a s with
  | nil => exact Grows.refl s
  | cons b bs ih => exact (grows_setMem _ s (Memory.write_wf s.mem a b)).trans (ih _ _)

theorem grows_storeBytes (bs : List Byte) (a : Nat) (s : State) : Grows s (storeBytes a bs s) := by
  unfold storeBytes
  split
  · exact grows_setMem _ s (Memory.writeBytes_wf bs s.mem a)
  · exact grows_storePieces bs a s

end Sys2Proof.Machine
end

