-- ==== Sys2Proof/Laws/Access.lean ====
section
/-! SUPPORT. What the access procedure can do: the state a passing access leaves, the trap a failing one takes, and
which bytes either may change. -/

namespace Sys2Proof.Machine

theorem grows_storeAll (l : List (Nat × List Byte)) (s : State) : Grows s (storeAll l s) := by
  induction l generalizing s with
  | nil => exact Grows.refl s
  | cons x l ih => exact (grows_storeBytes x.2 x.1 s).trans (ih _)

@[simp] theorem storeAll_hart (l : List (Nat × List Byte)) (s : State) : (storeAll l s).hart = s.hart :=
  (grows_storeAll l s).hart
@[simp] theorem storeAll_cfg (l : List (Nat × List Byte)) (s : State) : (storeAll l s).cfg = s.cfg :=
  (grows_storeAll l s).cfg
@[simp] theorem storeAll_others (l : List (Nat × List Byte)) (s : State) : (storeAll l s).others = s.others :=
  (grows_storeAll l s).others
@[simp] theorem storeAll_events (l : List (Nat × List Byte)) (s : State) : (storeAll l s).events = s.events :=
  (grows_storeAll l s).events

/-- Stores leave alone every address that lies in none of them. -/
theorem read_storeAll_other (l : List (Nat × List Byte)) (s : State) (a : Nat)
    (h : ∀ x ∈ l, ¬ (x.1 ≤ a ∧ a < x.1 + x.2.length)) : (storeAll l s).mem.read a = s.mem.read a := by
  induction l generalizing s with
  | nil => rfl
  | cons x l ih =>
    have hx := h x (by simp)
    rw [storeAll, ih _ (fun y hy => h y (by simp [hy])), storeBytes_mem,
      Memory.read_writeBytes_other _ _ _ _ (by omega)]

@[simp] theorem tickFor_hart (k : AccessKind) (p : Priv) (s : State) : (tickFor k p s).hart = s.hart := by
  unfold tickFor; split <;> rfl
@[simp] theorem tickFor_cfg (k : AccessKind) (p : Priv) (s : State) : (tickFor k p s).cfg = s.cfg := by
  unfold tickFor; split <;> rfl
@[simp] theorem tickFor_mem (k : AccessKind) (p : Priv) (s : State) : (tickFor k p s).mem = s.mem := by
  unfold tickFor; split <;> rfl
@[simp] theorem tickFor_memPast (k : AccessKind) (p : Priv) (s : State) : (tickFor k p s).memPast = s.memPast := by
  unfold tickFor; split <;> rfl
@[simp] theorem tickFor_others (k : AccessKind) (p : Priv) (s : State) : (tickFor k p s).others = s.others := by
  unfold tickFor; split <;> rfl
@[simp] theorem tickFor_events (k : AccessKind) (p : Priv) (s : State) : (tickFor k p s).events = s.events := by
  unfold tickFor; split <;> rfl

theorem grows_tickFor (k : AccessKind) (p : Priv) (s : State) : Grows s (tickFor k p s) :=
  ⟨by simp, by simp, by simp, by simp, by simp, [], by simp, by simp⟩

/-- An access checked below M-mode counts a tick. -/
@[simp] theorem tickFor_checked (k : AccessKind) (p : Priv) (s : State) (h : p ≠ .m) : tickFor k p s = nextTick s := by
  simp [tickFor, h]

/-- A fetch in M-mode counts none. -/
@[simp] theorem tickFor_fetch (s : State) : tickFor .fetch .m s = s := by simp [tickFor, usesMpp]

@[simp] theorem takeBack_hart (start s : State) : (takeBack start s).hart = s.hart := rfl
@[simp] theorem takeBack_cfg (start s : State) : (takeBack start s).cfg = s.cfg := rfl
@[simp] theorem takeBack_mem (start s : State) : (takeBack start s).mem = start.mem := rfl
@[simp] theorem takeBack_memPast (start s : State) : (takeBack start s).memPast = start.memPast := rfl
@[simp] theorem takeBack_others (start s : State) : (takeBack start s).others = s.others := rfl
@[simp] theorem takeBack_events (start s : State) : (takeBack start s).events = s.events := rfl
@[simp] theorem takeBack_tick (start s : State) : (takeBack start s).tick = s.tick := rfl

/-- The effective mode of an access of a hart below M-mode, and of a fetch, is the current mode. -/
theorem effectivePriv_lower {s : State} {k : AccessKind} (h : s.hart.priv ≠ .m) : effectivePriv s k = s.hart.priv := by
  simp [effectivePriv, usesMpp, h]

@[simp] theorem effectivePriv_fetch (s : State) : effectivePriv s .fetch = s.hart.priv := by
  simp [effectivePriv, usesMpp]

/-- What a finished access is. -/
theorem finishAccess_ok {s s' : State} {k : AccessKind} {eff : Priv} {ps qs : List Part}
    (h : finishAccess s k eff ps = .ok qs s') : qs = ps ∧ s' = storeAll (implicitWrites s.cfg ps) (tickFor k eff s) := by
  unfold finishAccess at h
  simp only at h
  split at h
  · cases h
  · split at h
    · cases h
    · cases h; exact ⟨rfl, rfl⟩

theorem finishAccess_not_trap {s t : State} {k : AccessKind} {eff : Priv} {ps : List Part} :
    finishAccess s k eff ps ≠ .trap t := by
  unfold finishAccess
  simp only
  split
  · simp
  · split <;> simp

/-- The pieces and their outcomes, paired. -/
theorem mem_zip_map {α β : Type} (f : α → β) (l : List α) (x : α × β) (h : x ∈ l.zip (l.map f)) :
    x.1 ∈ l ∧ x.2 = f x.1 := by
  induction l with
  | nil => simp at h
  | cons a l ih =>
    simp only [List.map_cons, List.zip_cons_cons, List.mem_cons] at h
    rcases h with rfl | h
    · simp
    · exact ⟨List.mem_cons_of_mem _ (ih h).1, (ih h).2⟩

theorem find_zip_none (f : Part → PartOut) (l : List Part) :
    (l.zip (l.map f)).find? (fun x => x.2 != .ok) = none ↔ ∀ p ∈ l, f p = .ok := by
  induction l with
  | nil => simp
  | cons a l ih =>
    simp only [List.map_cons, List.zip_cons_cons, List.find?_cons, List.mem_cons, forall_eq_or_imp]
    by_cases h : f a = .ok
    · simp [h, ih]
    · have hb : (f a != PartOut.ok) = true := by simp [h]
      simp [hb, h]

/-- A passing access: every piece passed its checks, and the state is the one with the implicit writes made. -/
theorem access_ok {start s s' : State} {k : AccessKind} {ea va n : Nat} {data : List Byte} {qs : List Part}
    (h : access start s k ea va n data = .ok qs s') :
    qs = accessParts s.cfg s.hart (effectivePriv s k) k.type va n ∧
      (∀ p ∈ qs, checkPart s (effectivePriv s k) k.type p = .ok) ∧
      s' = storeAll (implicitWrites s.cfg qs) (tickFor k (effectivePriv s k) s) := by
  unfold access at h
  simp only at h
  split at h
  · rename_i hf
    obtain ⟨rfl, rfl⟩ := finishAccess_ok h
    exact ⟨rfl, (find_zip_none _ _).mp hf, rfl⟩
  · cases h
  · cases h
  · cases h
  · rename_i hf
    have := List.find?_some hf
    simp at this

/-- A failing access: the trap is taken in the state in which only what R70 leaves open has changed since the
instruction began. -/
theorem access_trap {start s t : State} {k : AccessKind} {ea va n : Nat} {data : List Byte}
    (h : access start s k ea va n data = .trap t) :
    let eff := effectivePriv s k
    let ps := accessParts s.cfg s.hart eff k.type va n
    let u := failedAccess start s data ps (ps.map (checkPart s eff k.type))
    (∃ p ∈ ps, checkPart s eff k.type p = .accessFault ∧
      t = nextTick (trapAccessFault k.cause (drawTval s ea p.va) u)) ∨
    (∃ p ∈ ps, ∃ cause, checkPart s eff k.type p = .raises cause ∧
      t = nextTick (trapM cause (BitVec.ofNat 64 p.va) u)) := by
  unfold access at h
  simp only at h ⊢
  split at h
  · exact absurd h finishAccess_not_trap
  · rename_i p hf
    have hm := mem_zip_map _ _ _ (List.mem_of_find?_eq_some hf)
    cases h
    exact .inl ⟨p, hm.1, hm.2.symm, rfl⟩
  · rename_i p cause hf
    have hm := mem_zip_map _ _ _ (List.mem_of_find?_eq_some hf)
    cases h
    exact .inr ⟨p, hm.1, cause, hm.2.symm, rfl⟩
  · cases h
  · exact absurd h finishAccess_not_trap

theorem grows_failedAccess (start s : State) (data : List Byte) (ps : List Part) (outs : List PartOut) :
    Grows (takeBack start s) (failedAccess start s data ps outs) := grows_storeAll _ _

/-- A passing access only makes memory grow its history. -/
theorem access_ok_grows {start s s' : State} {k : AccessKind} {ea va n : Nat} {data : List Byte} {qs : List Part}
    (h : access start s k ea va n data = .ok qs s') : Grows s s' := by
  obtain ⟨-, -, rfl⟩ := access_ok h
  exact (grows_tickFor k _ s).trans (grows_storeAll _ _)

/-- Without translation an access makes no implicit access. -/
theorem translatePart_plain (h : Hart) (eff : Priv) (t : AccessType) (va n : Nat)
    (hx : eff = .m ∨ h.xlate = []) :
    translatePart h eff t va n = { va := va, pa := va, size := n, implicit := [], raises := none } := by
  unfold translatePart
  by_cases he : eff = .m
  · simp [he]
  · simp [he, hx.resolve_left he]

/-- The pieces of an access without translation lie where their virtual addresses are. -/
theorem accessParts_plain (c : Config) (h : Hart) (eff : Priv) (t : AccessType) (va n : Nat)
    (hx : eff = .m ∨ h.xlate = []) :
    ∀ p ∈ accessParts c h eff t va n, p.pa = p.va ∧ p.implicit = [] ∧ p.raises = none ∧ (0 < n → 0 < p.size) := by
  unfold accessParts
  simp only [translatePart_plain h eff t _ _ hx]
  split
  · simp only [List.mem_cons, List.not_mem_nil, or_false]
    have := Nat.mod_lt va (show 0 < 4096 by omega)
    rintro p (rfl | rfl)
    · exact ⟨rfl, rfl, rfl, fun _ => by simp only; omega⟩
    · exact ⟨rfl, rfl, rfl, fun _ => by simp only; omega⟩
  · simp only [List.mem_singleton]
    rintro p rfl
    exact ⟨rfl, rfl, rfl, id⟩

/-- The one piece of an access that stays in its page. -/
theorem accessParts_single (c : Config) (h : Hart) (eff : Priv) (t : AccessType) (va n : Nat)
    (hp : va % 4096 + n ≤ 4096) : accessParts c h eff t va n = [translatePart h eff t va n] := by
  unfold accessParts
  rw [if_neg (by omega)]

/-- No implicit access, no implicit write. -/
theorem implicitWrites_nil (c : Config) (ps : List Part) (h : ∀ p ∈ ps, p.implicit = []) :
    implicitWrites c ps = [] := by
  unfold implicitWrites
  have : ps.flatMap (fun p => p.implicit.filter (implicitMade c)) = [] := by
    rw [List.flatMap_eq_nil_iff]
    intro p hp
    rw [h p hp]; rfl
  rw [this]; rfl

/-- The data of the pieces of an access stays inside the pieces. -/
theorem mem_dataParts (data : List Byte) (ps : List Part) (x : Nat × List Byte) (h : x ∈ dataParts data ps) :
    ∃ p ∈ ps, x.1 = p.pa ∧ x.2.length ≤ p.size := by
  induction ps generalizing data with
  | nil => simp [dataParts] at h
  | cons p ps ih =>
    rcases List.mem_cons.mp h with rfl | h
    · exact ⟨p, by simp, rfl, by simp⟩
    · obtain ⟨q, hq, h1, h2⟩ := ih _ h
      exact ⟨q, by simp [hq], h1, h2⟩

/-- The bytes a failing store may have written lie in pieces that passed. -/
theorem mem_partialWrites (s : State) (f : Part → PartOut) (data : List Byte) (ps : List Part)
    (x : Nat × List Byte) (h : x ∈ partialWrites s ((ps.map f).zip (dataParts data ps))) :
    x.2.length = 1 ∧ ∃ p ∈ ps, f p = .ok ∧ p.pa ≤ x.1 ∧ x.1 < p.pa + p.size := by
  induction ps generalizing data with
  | nil => simp [dataParts, partialWrites] at h
  | cons p ps ih =>
    simp only [List.map_cons, dataParts, List.zip_cons_cons] at h
    have tail : x ∈ partialWrites s ((ps.map f).zip (dataParts (data.drop p.size) ps)) →
        x.2.length = 1 ∧ ∃ q ∈ p :: ps, f q = .ok ∧ q.pa ≤ x.1 ∧ x.1 < q.pa + q.size := fun h => by
      obtain ⟨h1, q, hq, h2⟩ := ih _ h
      exact ⟨h1, q, by simp [hq], h2⟩
    cases hf : f p <;> simp only [hf, partialWrites] at h
    · rcases List.mem_append.mp h with h | h
      · obtain ⟨i, hi, hx⟩ := List.mem_filterMap.mp h
        split at hx
        · cases hx
          simp only [List.mem_range, List.length_take] at hi
          exact ⟨rfl, p, by simp, hf, by simp only; omega, by simp only; omega⟩
        · cases hx
      · exact tail h
    all_goals exact tail h

/-- With no piece that passed, a failing access leaves memory as the instruction found it. -/
theorem failedAccess_single (start s : State) (data : List Byte) (p : Part) (o : PartOut) (h : o ≠ .ok) :
    failedAccess start s data [p] [o] = takeBack start s := by
  unfold failedAccess
  cases o <;> simp_all [dataParts, partialWrites, storeAll]

/-- A region that meets no byte of a range meets no byte of a part of it. -/
theorem meets_part (r : Region) (a n b k : Nat) (h1 : a ≤ b) (h2 : b + k ≤ a + n) (h : Region.meets r a n = false) :
    Region.meets r b k = false := by
  simp only [Region.meets, decide_eq_false_iff_not] at *
  omega

/-- What the PMP allows for a range it allows for a part of it. -/
theorem pmpAllows_part (h : Hart) (a n b k : Nat) (t : AccessType) (mode : Priv) (h1 : a ≤ b) (h2 : b + k ≤ a + n)
    (hp : pmpAllows h a n t mode = true) : pmpAllows h b k t mode = true := by
  simp only [pmpAllows, Bool.not_eq_true', List.any_eq_false, Bool.and_eq_true, not_and, Bool.not_eq_true] at *
  exact fun d hd x => meets_part _ _ _ _ _ h1 h2 (hp d hd x)

/-- A part of a range outside every device lies outside every device. -/
theorem isDevice_part (c : Config) (a n b k : Nat) (h1 : a ≤ b) (h2 : b + k ≤ a + n) (h : isDevice c a n = false) :
    isDevice c b k = false := by
  simp only [isDevice, List.any_eq_false, Bool.not_eq_true] at *
  exact fun d hd => meets_part _ _ _ _ _ h1 h2 (h d hd)

/-- An untranslated access of one page whose checks pass. -/
theorem access_plain_ok (start s : State) (k : AccessKind) (ea va n : Nat) (data : List Byte) (eff : Priv)
    (he : effectivePriv s k = eff) (hx : eff = .m ∨ s.hart.xlate = []) (hp : va % 4096 + n ≤ 4096)
    (hl : va + n ≤ 2 ^ 56) (hd : isDevice s.cfg va n = false) (hpmp : pmpAllows s.hart va n k.type eff = true)
    (hm : mttCheck s [8, va] va n k.type eff = .pass) :
    access start s k ea va n data =
      .ok [{ va := va, pa := va, size := n, implicit := [], raises := none }] (tickFor k eff s) := by
  unfold access
  simp only [he, accessParts_single _ _ _ _ _ _ hp, translatePart_plain _ _ _ _ _ hx, List.map_cons, List.map_nil,
    List.zip_cons_cons, List.zip_nil_left]
  have hc : checkPart s eff k.type { va := va, pa := va, size := n, implicit := [], raises := none } = .ok := by
    simp [checkPart, checkImplicits, checkPhysical, hpmp, hm]
  have hb : ¬ addressLimit < va + n := by unfold addressLimit; omega
  simp [hc, finishAccess, implicitWrites, storeAll, hd, hb]

/-- An untranslated access of one page that the PMP or the MTT check refuses, with the spec's fault target. -/
theorem access_plain_refused (start s : State) (k : AccessKind) (ea va n : Nat) (data : List Byte) (eff : Priv)
    (he : effectivePriv s k = eff) (ht : s.cfg.faultTarget = .machine) (hx : s.hart.xlate = [])
    (hp : va % 4096 + n ≤ 4096)
    (h : pmpAllows s.hart va n k.type eff = false ∨
      (pmpAllows s.hart va n k.type eff = true ∧ mttCheck s [8, va] va n k.type eff = .fail)) :
    access start s k ea va n data = .trap (nextTick (trapM k.cause (drawTval s ea va) (takeBack start s))) := by
  unfold access
  simp only [he, accessParts_single _ _ _ _ _ _ hp, translatePart_plain _ _ _ _ _ (.inr hx), List.map_cons,
    List.map_nil, List.zip_cons_cons, List.zip_nil_left]
  have hc : checkPart s eff k.type { va := va, pa := va, size := n, implicit := [], raises := none } =
      .accessFault := by
    rcases h with h | ⟨h, h'⟩
    · simp [checkPart, checkImplicits, checkPhysical, h]
    · simp [checkPart, checkImplicits, checkPhysical, h, h']
  simp [hc, failedAccess_single, trapAccessFault, delegated, ht]

/-! ## Accesses below M-mode without translation -/

theorem partialWrites_nil (s : State) (l : List (PartOut × (Nat × List Byte))) (h : ∀ x ∈ l, x.2.2 = []) :
    partialWrites s l = [] := by
  induction l with
  | nil => rfl
  | cons x l ih =>
    have ih := ih (fun y hy => h y (by simp [hy]))
    obtain ⟨o, a, bs⟩ := x
    have hb : bs = [] := h _ List.mem_cons_self
    subst hb
    cases o <;> simp [partialWrites, ih]

theorem dataParts_nil (ps : List Part) : ∀ x ∈ dataParts [] ps, x.2 = [] := by
  induction ps with
  | nil => simp [dataParts]
  | cons p ps ih =>
    intro x hx
    simp only [dataParts, List.take_nil, List.drop_nil, List.mem_cons] at hx
    rcases hx with rfl | h
    · rfl
    · exact ih x h

/-- A failing access that stores nothing leaves memory as the instruction found it. -/
theorem failedAccess_nil (start s : State) (ps : List Part) (outs : List PartOut) :
    failedAccess start s [] ps outs = takeBack start s := by
  unfold failedAccess
  rw [partialWrites_nil]
  · rfl
  · rintro ⟨o, y⟩ hx
    exact dataParts_nil ps y (List.of_mem_zip hx).2

/-- A trap taken by an access that stores nothing changes no memory. -/
theorem access_trap_mem {start s t : State} {k : AccessKind} {ea va n : Nat}
    (h : access start s k ea va n [] = .trap t) : t.mem = start.mem := by
  obtain ⟨p, -, -, rfl⟩ | ⟨p, -, c, -, rfl⟩ := access_trap h <;> simp [failedAccess_nil]

/-- A passing access below M-mode without translation only counts a tick. -/
theorem access_ok_plain {start s t : State} {k : AccessKind} {ea va n : Nat} {data : List Byte} {qs : List Part}
    (hp : s.hart.priv ≠ .m) (hx : s.hart.xlate = []) (h : access start s k ea va n data = .ok qs t) :
    t = nextTick s ∧ qs = accessParts s.cfg s.hart s.hart.priv k.type va n ∧
      ∀ p ∈ qs, checkPart s s.hart.priv k.type p = .ok := by
  obtain ⟨hq, hok, ht⟩ := access_ok h
  rw [effectivePriv_lower hp] at hq hok ht
  refine ⟨?_, hq, hok⟩
  rw [ht, implicitWrites_nil]
  · simp [storeAll, hp]
  · intro p hpm
    rw [hq] at hpm
    exact (accessParts_plain _ _ _ _ _ _ (.inr hx) p hpm).2.1

end Sys2Proof.Machine
end

