-- ==== Sys2Proof/Laws/Instructions.lean ====
section
/-! SUPPORT. What each of the four instructions can do, guards included, said once; and how `execAll` composes. -/

namespace Sys2Proof.Machine

/-- All that MFENCE.SPA can do with a next state. -/
theorem execMfenceSpa_next {s t : State} {rs1 rs2 : RegIdx} (h : execMfenceSpa rs1 rs2 s = .next t) :
    (s.hart.priv ≠ .m ∧ t = raiseIllegal (instrBits s.cfg (.mfenceSpa rs1 rs2)) s) ∨
    (s.hart.priv = .m ∧ ∃ sel, selector s rs1 rs2 = .ok sel ∧ t = advancePc 4 (recordFence sel (now s) s)) := by
  unfold execMfenceSpa at h
  split at h
  · rename_i hp; cases h; exact .inl ⟨hp, rfl⟩
  · rename_i hp
    split at h
    · cases h
    · rename_i sel hs
      cases h
      exact .inr ⟨by simpa using hp, sel, hs, rfl⟩

/-- All that MINVAL.SPA can do with a next state. -/
theorem execMinvalSpa_next {s t : State} {rs1 rs2 : RegIdx} (h : execMinvalSpa rs1 rs2 s = .next t) :
    s.cfg.hasSvinval = true ∧
    ((s.hart.priv ≠ .m ∧ t = raiseIllegal (instrBits s.cfg (.minvalSpa rs1 rs2)) s) ∨
     (s.hart.priv = .m ∧ ∃ sel, selector s rs1 rs2 = .ok sel ∧ t = advancePc 4 (addPending sel s))) := by
  unfold execMinvalSpa at h
  split at h
  · cases h
  · rename_i hv
    refine ⟨by simpa using hv, ?_⟩
    split at h
    · rename_i hp; cases h; exact .inl ⟨hp, rfl⟩
    · rename_i hp
      split at h
      · cases h
      · rename_i sel hs
        cases h
        exact .inr ⟨by simpa using hp, sel, hs, rfl⟩

/-- All that SFENCE.W.INVAL can do with a next state. -/
theorem execSfenceWInval_next {s t : State} (h : execSfenceWInval s = .next t) :
    s.cfg.hasSvinval = true ∧
    ((s.hart.priv = .u ∧ t = raiseIllegal (instrBits s.cfg .sfenceWInval) s) ∨
     (s.hart.priv ≠ .u ∧ t = advancePc 4 (markWInval s))) := by
  unfold execSfenceWInval at h
  split at h
  · cases h
  · rename_i hv
    refine ⟨by simpa using hv, ?_⟩
    split at h
    · rename_i hp; cases h; exact .inl ⟨hp, rfl⟩
    · rename_i hp; cases h; exact .inr ⟨hp, rfl⟩

/-- All that SFENCE.INVAL.IR can do with a next state. -/
theorem execSfenceInvalIr_next {s t : State} (h : execSfenceInvalIr s = .next t) :
    s.cfg.hasSvinval = true ∧
    ((s.hart.priv = .u ∧ t = raiseIllegal (instrBits s.cfg .sfenceInvalIr) s) ∨
     (s.hart.priv ≠ .u ∧ t = advancePc 4 (closeInvals s))) := by
  unfold execSfenceInvalIr at h
  split at h
  · cases h
  · rename_i hv
    refine ⟨by simpa using hv, ?_⟩
    split at h
    · rename_i hp; cases h; exact .inl ⟨hp, rfl⟩
    · rename_i hp; cases h; exact .inr ⟨hp, rfl⟩

/-- All that the four instructions can do, together. -/
theorem exec_next {s t : State} {i : Instr} (h : exec i s = .next t) :
    (∃ rs1 rs2 sel, i = .mfenceSpa rs1 rs2 ∧ s.hart.priv = .m ∧ selector s rs1 rs2 = .ok sel ∧
      t = advancePc 4 (recordFence sel (now s) s)) ∨
    (∃ rs1 rs2 sel, i = .minvalSpa rs1 rs2 ∧ s.hart.priv = .m ∧ selector s rs1 rs2 = .ok sel ∧
      t = advancePc 4 (addPending sel s)) ∨
    (i = .sfenceWInval ∧ s.hart.priv ≠ .u ∧ t = advancePc 4 (markWInval s)) ∨
    (i = .sfenceInvalIr ∧ s.hart.priv ≠ .u ∧ t = advancePc 4 (closeInvals s)) ∨
    (s.hart.priv ≠ .m ∧ t = raiseIllegal (instrBits s.cfg i) s) := by
  cases i with
  | mfenceSpa rs1 rs2 =>
    rcases execMfenceSpa_next h with ⟨hp, rfl⟩ | ⟨hp, sel, hs, rfl⟩
    · exact .inr (.inr (.inr (.inr ⟨hp, rfl⟩)))
    · exact .inl ⟨rs1, rs2, sel, rfl, hp, hs, rfl⟩
  | minvalSpa rs1 rs2 =>
    rcases execMinvalSpa_next h with ⟨-, ⟨hp, rfl⟩ | ⟨hp, sel, hs, rfl⟩⟩
    · exact .inr (.inr (.inr (.inr ⟨hp, rfl⟩)))
    · exact .inr (.inl ⟨rs1, rs2, sel, rfl, hp, hs, rfl⟩)
  | sfenceWInval =>
    rcases execSfenceWInval_next h with ⟨-, ⟨hp, rfl⟩ | ⟨hp, rfl⟩⟩
    · exact .inr (.inr (.inr (.inr ⟨by simp [hp], rfl⟩)))
    · exact .inr (.inr (.inl ⟨rfl, hp, rfl⟩))
  | sfenceInvalIr =>
    rcases execSfenceInvalIr_next h with ⟨-, ⟨hp, rfl⟩ | ⟨hp, rfl⟩⟩
    · exact .inr (.inr (.inr (.inr ⟨by simp [hp], rfl⟩)))
    · exact .inr (.inr (.inr (.inl ⟨rfl, hp, rfl⟩)))

/-- Going on twice is going on once. -/
theorem andThen_assoc (o : Host.Outcome State Fault Refusal) (k l : State → Host.Outcome State Fault Refusal) :
    andThen (andThen o k) l = andThen o (fun s => andThen (k s) l) := by cases o <;> rfl

/-- What comes out of `andThen` came out of its first part. -/
theorem andThen_next {o : Host.Outcome State Fault Refusal} {k : State → Host.Outcome State Fault Refusal}
    {t : State} (h : andThen o k = .next t) : ∃ s, o = .next s ∧ k s = .next t := by
  cases o with
  | next s => exact ⟨s, rfl, h⟩
  | fault f => cases h
  | refused r => cases h

end Sys2Proof.Machine
end

