-- ==== Sys2Proof/Laws/Base.lean ====
section
/-! SUPPORT. What the environment's operations leave alone: the other hart's state, the parameters, the history of
fences, the batched sequence, and but for a write of it `mttp`. -/

namespace Sys2Proof.Machine

/-- What no base instruction changes, but for a write of `mttp`. -/
structure Keeps (s t : State) : Prop where
  cfg      : t.cfg = s.cfg
  others   : t.others = s.others
  events   : t.events = s.events
  fences   : t.hart.fences = s.hart.fences
  resetOver : t.hart.resetOver = s.hart.resetOver
  pending  : t.hart.pending = s.hart.pending
  wInval   : t.hart.wInval = s.hart.wInval
  mttp     : t.hart.mttp = s.hart.mttp
  mttpPast : t.hart.mttpPast = s.hart.mttpPast

theorem Keeps.refl (s : State) : Keeps s s := ⟨rfl, rfl, rfl, rfl, rfl, rfl, rfl, rfl, rfl⟩

theorem Keeps.trans {s t u : State} (h : Keeps s t) (k : Keeps t u) : Keeps s u :=
  ⟨k.cfg.trans h.cfg, k.others.trans h.others, k.events.trans h.events, k.fences.trans h.fences,
    k.resetOver.trans h.resetOver, k.pending.trans h.pending, k.wInval.trans h.wInval, k.mttp.trans h.mttp,
    k.mttpPast.trans h.mttpPast⟩

theorem Grows.keeps {s t : State} (g : Grows s t) : Keeps s t :=
  ⟨g.cfg, g.others, g.events, by rw [g.hart], by rw [g.hart], by rw [g.hart], by rw [g.hart], by rw [g.hart],
    by rw [g.hart]⟩

theorem keeps_setPc (v : Word) (s : State) : Keeps s (setPc v s) := ⟨rfl, rfl, rfl, rfl, rfl, rfl, rfl, rfl, rfl⟩
theorem keeps_advancePc (len : Word) (s : State) : Keeps s (advancePc len s) := keeps_setPc _ s
theorem keeps_trapM (cause tval : Word) (s : State) : Keeps s (trapM cause tval s) :=
  ⟨rfl, rfl, rfl, rfl, rfl, rfl, rfl, rfl, rfl⟩
theorem keeps_trapS (cause tval : Word) (s : State) : Keeps s (trapS cause tval s) :=
  ⟨rfl, rfl, rfl, rfl, rfl, rfl, rfl, rfl, rfl⟩
theorem keeps_nextTick (s : State) : Keeps s (nextTick s) := ⟨rfl, rfl, rfl, rfl, rfl, rfl, rfl, rfl, rfl⟩
theorem keeps_popBaseOp (s : State) : Keeps s (popBaseOp s) := ⟨rfl, rfl, rfl, rfl, rfl, rfl, rfl, rfl, rfl⟩
theorem keeps_returnM (p : Priv) (s : State) : Keeps s (returnM p s) := ⟨rfl, rfl, rfl, rfl, rfl, rfl, rfl, rfl, rfl⟩
theorem keeps_returnS (s : State) : Keeps s (returnS s) := ⟨rfl, rfl, rfl, rfl, rfl, rfl, rfl, rfl, rfl⟩

theorem keeps_setReg (r : RegIdx) (v : Word) (s : State) : Keeps s (setReg r v s) := by
  unfold setReg
  split
  · exact Keeps.refl s
  · exact ⟨rfl, rfl, rfl, rfl, rfl, rfl, rfl, rfl, rfl⟩

theorem keeps_tickMpp (s : State) : Keeps s (tickMpp s) := by
  unfold tickMpp
  split
  · exact keeps_nextTick s
  · exact Keeps.refl s

theorem keeps_putMstatus (v : Word) (s : State) : Keeps s (putMstatus v s) := by
  unfold putMstatus
  split <;> exact ⟨rfl, rfl, rfl, rfl, rfl, rfl, rfl, rfl, rfl⟩

theorem keeps_raiseIllegal (bits : Word) (s : State) : Keeps s (raiseIllegal bits s) :=
  (keeps_trapM _ _ s).trans (keeps_nextTick _)

theorem keeps_trapAccessFault (cause tval : Word) (s : State) : Keeps s (trapAccessFault cause tval s) := by
  unfold trapAccessFault
  split
  · exact keeps_trapS _ _ s
  · exact keeps_trapM _ _ s

theorem keeps_access_ok {start s t : State} {k : AccessKind} {ea va n : Nat} {data : List Byte} {ps : List Part}
    (h : access start s k ea va n data = .ok ps t) : Keeps s t := (access_ok_grows h).keeps

theorem keeps_takeBack (start s : State) : Keeps s (takeBack start s) := ⟨rfl, rfl, rfl, rfl, rfl, rfl, rfl, rfl, rfl⟩

theorem keeps_access_trap {start s t : State} {k : AccessKind} {ea va n : Nat} {data : List Byte}
    (h : access start s k ea va n data = .trap t) : Keeps s t := by
  have g : ∀ ps outs, Keeps s (failedAccess start s data ps outs) := fun ps outs =>
    (keeps_takeBack start s).trans (grows_failedAccess start s data ps outs).keeps
  obtain ⟨p, -, -, rfl⟩ | ⟨p, -, cause, -, rfl⟩ := access_trap h
  · exact ((g _ _).trans (keeps_trapAccessFault _ _ _)).trans (keeps_nextTick _)
  · exact ((g _ _).trans (keeps_trapM _ _ _)).trans (keeps_nextTick _)

theorem keeps_writeParts (data : List Byte) (ps : List Part) (s : State) : Keeps s (writeParts data ps s) :=
  (grows_storeAll _ s).keeps

/-- What follows an access keeps what the access and its continuation keep. -/
theorem keeps_afterAccess {start s t : State} {k : AccessKind} {ea va n : Nat} {data : List Byte}
    {f : List Part → State → Host.Outcome State Fault Refusal}
    (h : afterAccess (access start s k ea va n data) f = .next t) (hf : ∀ ps u, f ps u = .next t → Keeps u t) :
    Keeps s t := by
  cases ha : access start s k ea va n data with
  | ok ps u => rw [ha] at h; exact (keeps_access_ok ha).trans (hf ps u h)
  | trap u => rw [ha] at h; cases h; exact keeps_access_trap ha
  | fault f => rw [ha] at h; cases h
  | refuse r => rw [ha] at h; cases h

/-- A fetch that answers changes memory and its history only, and nothing at all of the hart. -/
theorem fetch_ok_grows {s t : State} {bytes : List Byte} (h : fetch s = .ok bytes t) : Grows s t := by
  unfold fetch at h
  simp only at h
  split at h
  · cases h
  · cases h
  · cases h
  · rename_i ps u ha
    split at h
    · split at h
      · cases h
      · cases h
      · cases h
      · rename_i qs v hb
        cases h
        exact (access_ok_grows ha).trans (access_ok_grows hb)
    · cases h
      exact access_ok_grows ha

/-- A fetch that traps did so in one of its two accesses, with what came before changing memory only. -/
theorem fetch_trap {s t : State} (h : fetch s = .trap t) :
    ∃ u ea va n, Grows s u ∧ access s u .fetch ea va n [] = .trap t := by
  unfold fetch at h
  simp only at h
  split at h
  · cases h
  · cases h
  · rename_i u ha; cases h; exact ⟨s, _, _, _, Grows.refl s, ha⟩
  · rename_i ps u ha
    split at h
    · split at h
      · cases h
      · cases h
      · rename_i v hb; cases h; exact ⟨u, _, _, _, access_ok_grows ha, hb⟩
      · cases h
    · cases h

theorem keeps_fetch_trap {s t : State} (h : fetch s = .trap t) : Keeps s t := by
  obtain ⟨u, ea, va, n, g, ha⟩ := fetch_trap h
  exact g.keeps.trans (keeps_access_trap ha)

/-- A write of `mttp` is refused or replaces its three fields. -/
theorem writeMttp_next {s t : State} {mode : Mode} {sdid : Word} {ppn : Ppn} (h : writeMttp mode sdid ppn s = .next t) :
    mode ∈ s.cfg.supportedModes ∧
    t = putMttp { mode := mode, sdid := BitVec.ofNat 64 (sdid.toNat % 2 ^ s.cfg.sdidWidth)
                  ppn := BitVec.ofNat 44 (ppn.toNat % 2 ^ s.cfg.ppnWidth) } s := by
  unfold writeMttp at h
  split at h
  · rename_i hm; cases h; exact ⟨by simpa using hm, rfl⟩
  · cases h

/-- A write of a CSR keeps all of this, or is a write of `mttp`. -/
theorem csrWrite_next {s t : State} {r : Csr} {v : Word} (h : csrWrite r v s = .next t) :
    Keeps s t ∨ (r = .mttp ∧ ∃ m, t = putMttp m s) := by
  unfold csrWrite at h
  split at h
  · split at h
    · cases h
    · obtain ⟨-, rfl⟩ := writeMttp_next h
      exact .inr ⟨rfl, _, rfl⟩
  · cases h; exact .inl (keeps_putMstatus v s)
  all_goals cases h; exact .inl ⟨rfl, rfl, rfl, rfl, rfl, rfl, rfl, rfl, rfl⟩

/-- A base instruction keeps all of this, or is in M-mode a write of `mttp` and keeps the rest. -/
theorem runBase_next {start s t : State} {op : BaseOp} {bits len : Word} (h : runBase start op bits len s = .next t) :
    Keeps s t ∨ (s.hart.priv = .m ∧ ∃ m, Keeps (putMttp m s) t) := by
  unfold runBase at h
  split at h
  · cases h; exact .inl (keeps_advancePc _ s)
  · cases h; exact .inl ((keeps_setReg _ _ s).trans (keeps_advancePc _ _))
  · cases h; exact .inl (keeps_setPc _ s)
  · cases h; exact .inl (keeps_advancePc _ s)
  · refine .inl (keeps_afterAccess h fun ps u hu => ?_)
    cases hu
    exact (keeps_setReg _ _ u).trans (keeps_advancePc _ _)
  · refine .inl (keeps_afterAccess h fun ps u hu => ?_)
    cases hu
    exact (keeps_writeParts _ _ u).trans (keeps_advancePc _ _)
  · refine .inl (keeps_afterAccess h fun ps u hu => ?_)
    split at hu
    · cases hu
      exact ((keeps_writeParts _ _ u).trans (keeps_setReg _ _ _)).trans (keeps_advancePc _ _)
    · cases hu
      exact (keeps_setReg _ _ u).trans (keeps_advancePc _ _)
  · refine .inl (keeps_afterAccess h fun ps u hu => ?_)
    cases hu
    exact ((keeps_writeParts _ _ u).trans (keeps_setReg _ _ _)).trans (keeps_advancePc _ _)
  · rename_i op rd num v
    unfold runCsr at h
    split at h
    · cases h
    · rename_i r hr
      split at h
      · cases h; exact .inl (keeps_raiseIllegal _ s)
      · rename_i hp
        simp only at h
        split at h
        · cases h; exact .inl ((keeps_setReg _ _ s).trans (keeps_advancePc _ _))
        · obtain ⟨u, hu, hk⟩ := andThen_next h
          cases hk
          rcases csrWrite_next hu with k | ⟨rfl, m, rfl⟩
          · exact .inl ((k.trans (keeps_setReg _ _ u)).trans (keeps_advancePc _ _))
          · refine .inr ⟨?_, m, (keeps_setReg _ _ _).trans (keeps_advancePc _ _)⟩
            simpa [csrAllowed] using hp
  · unfold runWriteMttp at h
    split at h
    · cases h; exact .inl (keeps_raiseIllegal _ s)
    · rename_i hp
      obtain ⟨u, hu, hk⟩ := andThen_next h
      cases hk
      obtain ⟨-, rfl⟩ := writeMttp_next hu
      exact .inr ⟨by simpa using hp, _, keeps_advancePc _ _⟩
  · unfold runMret at h
    split at h
    · cases h; exact .inl (keeps_raiseIllegal _ s)
    · cases h; exact .inl ((keeps_tickMpp s).trans (keeps_returnM _ _))
  · unfold runSret at h
    split at h
    · cases h; exact .inl (keeps_raiseIllegal _ s)
    · cases h; exact .inl (keeps_returnS s)
  · cases h; exact .inl (keeps_trapM _ _ s)

/-- Bytes that are none of the four instructions do what the environment's operation does. -/
theorem runUndecoded_next {start s t : State} {e : DecodeError} {bytes : List Byte}
    (h : runUndecoded start e bytes s = .next t) :
    e ≠ .nearShape ∧ ∃ op rest, s.hart.baseOps = op :: rest ∧
      runBase start op (BitVec.ofNat 64 (natOfBytes bytes)) (BitVec.ofNat 64 bytes.length) (popBaseOp s) = .next t := by
  unfold runUndecoded at h
  split at h
  · cases h
  · rename_i he
    split at h
    · cases h
    · rename_i op rest hb
      exact ⟨he, op, rest, hb, h⟩

/-- All that a step which takes no event can do with a next state: a fetch that traps, one of the four instructions,
or an operation of the environment. -/
theorem step_next {s t : State} (he : s.events = []) (h : step s = .next t) :
    fetch s = .trap t ∨
    (∃ bytes u i rest, fetch s = .ok bytes u ∧ decode u.cfg bytes = .ok (i, rest) ∧ exec i u = .next t) ∨
    (∃ bytes u e, fetch s = .ok bytes u ∧ decode u.cfg bytes = .error e ∧ runUndecoded s e bytes u = .next t) := by
  unfold step at h
  simp only [he] at h
  split at h
  · rename_i hf; cases h; exact .inl hf
  · cases h
  · cases h
  · rename_i bytes u hf
    split at h
    · rename_i i rest hd; exact .inr (.inl ⟨bytes, u, i, rest, hf, hd, h⟩)
    · rename_i e hd; exact .inr (.inr ⟨bytes, u, e, hf, hd, h⟩)

end Sys2Proof.Machine
end

