-- ==== Sys2Proof/Laws/Decode.lean ====
section
/-! SUPPORT. Words, their bytes and their fields: a 32-bit word and its four bytes, the fields of an R-type word, and
what the decoder does on the four bytes of a word. -/

namespace Sys2Proof

/-- The four bytes of a word, least significant first. -/
theorem bytesOf_word (w : BitVec 32) :
    bytesOf 4 w.toNat = [w.extractLsb' 0 8, w.extractLsb' 8 8, w.extractLsb' 16 8, w.extractLsb' 24 8] := by
  simp only [bytesOf, List.cons.injEq, and_true]
  refine ⟨?_, ?_, ?_, ?_⟩ <;> apply BitVec.eq_of_toNat_eq <;>
    simp [BitVec.extractLsb'_toNat, Nat.shiftRight_eq_div_pow, Nat.div_div_eq_div_mul]

/-- Four bytes make the word whose bytes they are. -/
theorem word_of_bytes (w : BitVec 32) :
    w.extractLsb' 24 8 ++ w.extractLsb' 16 8 ++ w.extractLsb' 8 8 ++ w.extractLsb' 0 8 = w := by
  apply BitVec.eq_of_getLsbD_eq
  intro i hi
  simp only [BitVec.getLsbD_append, BitVec.getLsbD_extractLsb']
  by_cases h1 : i < 8
  · simp [h1]
  · by_cases h2 : i - 8 < 8
    · simp [h1, h2]; congr 1; omega
    · by_cases h3 : i - 8 - 8 < 8
      · simp [h1, h2, h3]; congr 1; omega
      · have h4 : i - 8 - 8 - 8 < 8 := by omega
        simp [h1, h2, h3, h4]; congr 1; omega

/-- The bytes of four bytes joined. -/
theorem bytes_of_word (b0 b1 b2 b3 : Byte) : bytesOf 4 (b3 ++ b2 ++ b1 ++ b0).toNat = [b0, b1, b2, b3] := by
  rw [bytesOf_word]
  simp only [List.cons.injEq, and_true]
  refine ⟨?_, ?_, ?_, ?_⟩ <;> apply BitVec.eq_of_getLsbD_eq <;> intro i hi <;>
    simp only [BitVec.getLsbD_append, BitVec.getLsbD_extractLsb', hi, decide_true, Bool.true_and]
  · simp [hi]
  · rw [if_neg (by omega), if_pos (by omega)]; congr 1; omega
  · rw [if_neg (by omega), if_neg (by omega), if_pos (by omega)]; congr 1; omega
  · rw [if_neg (by omega), if_neg (by omega), if_neg (by omega)]; congr 1; omega

/-- The decoder on the four bytes of a word. -/
theorem decode_bytes (c : Config) (w : BitVec 32) (rest : List Byte) :
    decode c (bytesOf 4 w.toNat ++ rest) =
      if isWord32 (w.extractLsb' 0 8) then
        match decodeWord c w with
        | .ok i => .ok (i, rest)
        | .error e => .error e
      else .error .length := by
  rw [bytesOf_word]
  simp only [List.cons_append, List.nil_append, decode, word_of_bytes]
  all_goals rfl

/-- An R-type word and its fields. -/
theorem encodeR_opcode (f : BitVec 7) (rs2 rs1 : RegIdx) : (encodeR f rs2 rs1).extractLsb' 0 7 = opcodeSystem := by
  apply BitVec.eq_of_getLsbD_eq
  intro i hi
  unfold encodeR
  simp only [BitVec.getLsbD_append, BitVec.getLsbD_extractLsb', hi, decide_true, Bool.true_and]
  rw [if_pos (by omega)]
  congr 1; omega

theorem encodeR_rd (f : BitVec 7) (rs2 rs1 : RegIdx) : (encodeR f rs2 rs1).extractLsb' 7 5 = 0 := by
  apply BitVec.eq_of_getLsbD_eq
  intro i hi
  unfold encodeR
  simp only [BitVec.getLsbD_append, BitVec.getLsbD_extractLsb', hi, decide_true, Bool.true_and]
  rw [if_neg (by omega), if_pos (by omega)]
  exact BitVec.getLsbD_zero.trans BitVec.getLsbD_zero.symm

theorem encodeR_funct3 (f : BitVec 7) (rs2 rs1 : RegIdx) : (encodeR f rs2 rs1).extractLsb' 12 3 = 0 := by
  apply BitVec.eq_of_getLsbD_eq
  intro i hi
  unfold encodeR
  simp only [BitVec.getLsbD_append, BitVec.getLsbD_extractLsb', hi, decide_true, Bool.true_and]
  rw [if_neg (by omega), if_neg (by omega), if_pos (by omega)]
  exact BitVec.getLsbD_zero.trans BitVec.getLsbD_zero.symm

theorem encodeR_rs1 (f : BitVec 7) (rs2 rs1 : RegIdx) : (encodeR f rs2 rs1).extractLsb' 15 5 = rs1 := by
  apply BitVec.eq_of_getLsbD_eq
  intro i hi
  unfold encodeR
  simp only [BitVec.getLsbD_append, BitVec.getLsbD_extractLsb', hi, decide_true, Bool.true_and]
  rw [if_neg (by omega), if_neg (by omega), if_neg (by omega), if_pos (by omega)]
  congr 1; omega

theorem encodeR_rs2 (f : BitVec 7) (rs2 rs1 : RegIdx) : (encodeR f rs2 rs1).extractLsb' 20 5 = rs2 := by
  apply BitVec.eq_of_getLsbD_eq
  intro i hi
  unfold encodeR
  simp only [BitVec.getLsbD_append, BitVec.getLsbD_extractLsb', hi, decide_true, Bool.true_and]
  rw [if_neg (by omega), if_neg (by omega), if_neg (by omega), if_neg (by omega), if_pos (by omega)]
  congr 1; omega

theorem encodeR_funct7 (f : BitVec 7) (rs2 rs1 : RegIdx) : (encodeR f rs2 rs1).extractLsb' 25 7 = f := by
  apply BitVec.eq_of_getLsbD_eq
  intro i hi
  unfold encodeR
  simp only [BitVec.getLsbD_append, BitVec.getLsbD_extractLsb', hi, decide_true, Bool.true_and]
  rw [if_neg (by omega), if_neg (by omega), if_neg (by omega), if_neg (by omega), if_neg (by omega)]
  congr 1; omega

/-- A word is its fields. -/
theorem encodeR_of_fields (w : BitVec 32) (h0 : w.extractLsb' 0 7 = opcodeSystem) (h1 : w.extractLsb' 7 5 = 0)
    (h2 : w.extractLsb' 12 3 = 0) :
    encodeR (w.extractLsb' 25 7) (w.extractLsb' 20 5) (w.extractLsb' 15 5) = w := by
  apply BitVec.eq_of_getLsbD_eq
  intro i hi
  unfold encodeR
  rw [← h0]
  simp only [BitVec.getLsbD_append, BitVec.getLsbD_extractLsb']
  have e1 : ∀ j, j < 5 → w.getLsbD (7 + j) = false := fun j hj => by
    have := congrArg (fun v => v.getLsbD j) h1
    simpa [BitVec.getLsbD_extractLsb', hj] using this
  have e2 : ∀ j, j < 3 → w.getLsbD (12 + j) = false := fun j hj => by
    have := congrArg (fun v => v.getLsbD j) h2
    simpa [BitVec.getLsbD_extractLsb', hj] using this
  split
  · simp [*]
  split
  · rename_i a b
    have h := e1 (i - 7) b
    rw [show 7 + (i - 7) = i by omega] at h
    rw [h]; simp
  split
  · rename_i a b d
    have h := e2 (i - 7 - 5) d
    rw [show 12 + (i - 7 - 5) = i by omega] at h
    rw [h]; simp
  split
  · rename_i d
    rw [decide_eq_true d, Bool.true_and]; congr 1; omega
  split
  · rename_i d
    rw [decide_eq_true d, Bool.true_and]; congr 1; omega
  · rw [decide_eq_true (by omega), Bool.true_and]; congr 1; omega

/-- A word whose opcode is SYSTEM is a 32-bit instruction by its first byte (R83). -/
theorem isWord32_of_system (w : BitVec 32) (h : w.extractLsb' 0 7 = opcodeSystem) :
    isWord32 (w.extractLsb' 0 8) = true := by
  have hbit : ∀ j, j < 7 → w.getLsbD j = opcodeSystem.getLsbD j := fun j hj => by
    have := congrArg (fun v => v.getLsbD j) h
    simpa [BitVec.getLsbD_extractLsb', hj] using this
  have e1 : (w.extractLsb' 0 8).extractLsb' 0 2 = 0b11#2 := by
    apply BitVec.eq_of_getLsbD_eq
    intro i hi
    simp only [BitVec.getLsbD_extractLsb', hi, decide_true, Bool.true_and]
    rw [decide_eq_true (by omega), Bool.true_and, hbit _ (by omega)]
    have : i = 0 ∨ i = 1 := by omega
    rcases this with rfl | rfl <;> rfl
  have e2 : (w.extractLsb' 0 8).extractLsb' 2 3 = 0b100#3 := by
    apply BitVec.eq_of_getLsbD_eq
    intro i hi
    simp only [BitVec.getLsbD_extractLsb', hi, decide_true, Bool.true_and]
    rw [decide_eq_true (by omega), Bool.true_and, hbit _ (by omega)]
    have : i = 0 ∨ i = 1 ∨ i = 2 := by omega
    rcases this with rfl | rfl | rfl <;> rfl
  simp [isWord32, e1, e2]

end Sys2Proof
end

