-- ==== Sys2Proof/Laws/Lookup.lean ====
section
/-! SUPPORT. Fields of numbers, the indexes of a lookup, how a lookup ends at each kind of entry, and what drawing one
of several values can give. -/

namespace Sys2Proof.Machine

/-- A field that reaches the top of a number. -/
theorem bitsOf_top (v hi lo n : Nat) (hn : hi + 1 = n) (h : v < 2 ^ n) (hl : lo ≤ n) : bitsOf v hi lo = v / 2 ^ lo := by
  subst hn
  unfold bitsOf
  apply Nat.mod_eq_of_lt
  rw [Nat.div_lt_iff_lt_mul (Nat.two_pow_pos lo), ← Nat.pow_add, Nat.sub_add_cancel hl]
  exact h

/-- The low field of a number. -/
theorem bitsOf_zero (v hi : Nat) : bitsOf v hi 0 = v % 2 ^ (hi + 1) := by simp [bitsOf]

/-- A field below bit `n` sees only the number modulo `2^n`. -/
theorem bitsOf_mod (v hi lo n : Nat) (h : hi + 1 ≤ n) (hl : lo ≤ hi + 1) :
    bitsOf (v % 2 ^ n) hi lo = bitsOf v hi lo := by
  unfold bitsOf
  obtain ⟨k, rfl⟩ := Nat.exists_eq_add_of_le (Nat.le_trans hl h)
  rw [Nat.pow_add, Nat.mod_mul_right_div_self]
  exact Nat.mod_mod_of_dvd _ (Nat.pow_dvd_pow 2 (by omega))

theorem spanBit_cases (f : Family) : spanBit f = 25 ∨ spanBit f = 26 := by cases f <;> simp [spanBit]

/-- The MTTL2 index under the widths 34 and 46 (R54). -/
theorem l2Index_root (f : Family) (paw p : Nat) (hw : paw = 34 ∨ paw = 46) (hp : p < 2 ^ paw) :
    l2Index f paw p = p / 2 ^ spanBit f := by
  unfold l2Index
  have h56 : paw ≠ 56 := by omega
  rw [if_neg h56]
  exact bitsOf_top p (paw - 1) _ paw (by omega) hp (by rcases spanBit_cases f with h | h <;> omega)

/-- A lookup under the widths 34 and 46 goes straight to the MTTL2 table (R55, R56, R57). -/
theorem lookup_two_level (c : Config) (f : Family) (paw root p : Nat) (rd : EntryReader) (mixed : Nat → Nat → Bool)
    (e : Word) (hw : paw = 34 ∨ paw = 46) (hp : p < 2 ^ paw)
    (hr : rd .l2 (root * 4096 + 8 * (p / 2 ^ spanBit f)) = .ok e) (hm : mixed root (p / 2 ^ spanBit f) = false) :
    lookup c f paw root p rd mixed = lookupL2 c f p rd e := by
  have h0 : ¬ p / 2 ^ paw ≠ 0 := by simp [Nat.div_eq_of_lt hp]
  have h56 : paw ≠ 56 := by omega
  unfold lookup lookupTable2
  rw [if_neg h0, if_neg h56, l2Index_root f paw p hw hp]
  unfold entryAddr
  simp [hr, hm]

/-- What lies above bit 12 is the same for every address of a page. -/
theorem div_page (p q k : Nat) (hk : 12 ≤ k) (h : p / 4096 = q / 4096) : p / 2 ^ k = q / 2 ^ k := by
  have key : ∀ x, x / 2 ^ k = x / 4096 / 2 ^ (k - 12) := fun x => by
    rw [Nat.div_div_eq_div_mul, show 4096 = 2 ^ 12 from rfl, ← Nat.pow_add, Nat.add_sub_cancel' hk]
  rw [key p, key q, h]

theorem bitsOf_page (p q hi lo : Nat) (hl : 12 ≤ lo) (h : p / 4096 = q / 4096) : bitsOf p hi lo = bitsOf q hi lo := by
  rw [bitsOf, bitsOf, div_page p q lo hl h]

/-- A lookup gives one result for every address of a 4 KiB page (R41, R53). -/
theorem lookup_page (c : Config) (f : Family) (paw root p q : Nat) (rd : EntryReader) (mixed : Nat → Nat → Bool)
    (hw : 12 ≤ paw) (h : p / 4096 = q / 4096) :
    lookup c f paw root p rd mixed = lookup c f paw root q rd mixed := by
  have i3 : l3Index p = l3Index q := bitsOf_page _ _ _ _ (by omega) h
  have i2 : l2Index f paw p = l2Index f paw q :=
    bitsOf_page _ _ _ _ (by rcases spanBit_cases f with h | h <;> omega) h
  have w1 : l1Word f p = l1Word f q := by cases f <;> exact bitsOf_page _ _ _ _ (by omega) h
  have p1 : l1Perm f p = l1Perm f q := by
    funext w
    cases f <;> simp only [l1Perm, bitsOf_page p q _ 12 (by omega) h]
  have p2 : permOf2m c f p = permOf2m c f q := by
    funext i
    cases f <;> simp only [permOf2m, bitsOf_page p q _ 21 (by omega) h]
  simp only [lookup, lookupTable2, lookupL2, div_page p q paw hw h, i3, i2, w1, p1, p2]

/-- Picking gives one of the values. -/
theorem pick_mem {α : Type} (k : Nat) (a : α) (l : List α) : pick k a l = a ∨ pick k a l ∈ l := by
  unfold pick
  cases l with
  | nil => exact .inl rfl
  | cons b l =>
    have hlt : k % (l.length + 2) < (a :: b :: l).length := by
      simp only [List.length_cons]; exact Nat.mod_lt _ (Nat.succ_pos _)
    have hm : (a :: b :: l).getD (k % (l.length + 2)) a ∈ a :: b :: l := by
      rw [List.getD_eq_getElem _ _ hlt]; exact List.getElem_mem hlt
    rcases List.mem_cons.mp hm with h | h
    · exact .inl h
    · exact .inr h

@[simp] theorem pick_nil {α : Type} (k : Nat) (a : α) : pick k a [] = a := rfl

/-- The first outcome that is not PASS is PASS exactly where all are. -/
theorem firstBad_eq_pass (l : List CheckOut) : firstBad l = .pass ↔ ∀ o ∈ l, o = .pass := by
  induction l with
  | nil => simp [firstBad]
  | cons o l ih =>
    cases o <;> simp [firstBad, ih]

/-- A check depends on the state only through the parameters, memory and its history, the tick, and the hart's `mttp`,
history and PMP. -/
theorem checkPage_congr (s t : State) (place : List Nat) (a : Nat) (ty : AccessType)
    (hc : t.cfg = s.cfg) (hm : t.mem = s.mem) (hp : t.memPast = s.memPast) (ht : t.tick = s.tick)
    (h1 : t.hart.mttp = s.hart.mttp) (h2 : t.hart.mttpPast = s.hart.mttpPast) (h3 : t.hart.fences = s.hart.fences)
    (h4 : t.hart.pmp = s.hart.pmp) (h5 : t.hart.resetOver = s.hart.resetOver) :
    checkPage t place a ty = checkPage s place a ty := by
  obtain ⟨_, _, _, hart, _, _, _⟩ := s
  obtain ⟨_, _, _, hart', _, _, _⟩ := t
  cases hart
  cases hart'
  simp only at hc hm hp ht h1 h2 h3 h4 h5
  subst hc hm hp ht h1 h2 h3 h4 h5
  rfl

theorem mttCheck_congr (s t : State) (place : List Nat) (p n : Nat) (ty : AccessType) (eff : Priv)
    (hc : t.cfg = s.cfg) (hm : t.mem = s.mem) (hp : t.memPast = s.memPast) (ht : t.tick = s.tick)
    (h1 : t.hart.mttp = s.hart.mttp) (h2 : t.hart.mttpPast = s.hart.mttpPast) (h3 : t.hart.fences = s.hart.fences)
    (h4 : t.hart.pmp = s.hart.pmp) (h5 : t.hart.resetOver = s.hart.resetOver) :
    mttCheck t place p n ty eff = mttCheck s place p n ty eff := by
  simp only [mttCheck, checkPage_congr s t _ _ _ hc hm hp ht h1 h2 h3 h4 h5]

/-- With nothing older visible and reset over, a check is the exact one (R22, R73). -/
theorem checkPage_exact (s : State) (place : List Nat) (a : Nat) (ty : AccessType) (t0 : Horizon)
    (ho : s.hart.resetOver = true)
    (h : latestFence s.hart.fences s.hart.mttp.sdid a = some t0) (hm : s.memPast.length ≤ t0.mem)
    (ht : s.hart.mttpPast.length ≤ t0.mttp) : checkPage s place a ty = checkPageExact s a ty := by
  have hv : visiblePast s (some t0) = [] := by simp [visiblePast, Nat.sub_eq_zero_of_le hm]
  have hw : visibleMttp s (some t0) s.hart.mttp.sdid = [] := by simp [visibleMttp, Nat.sub_eq_zero_of_le ht]
  have hr : checkReader s place (some t0) = presentReader s := by
    funext l b
    simp only [checkReader, presentReader, mttRead, hv, List.map_nil, pick_nil, ho, Bool.true_or, if_true]
  simp only [checkPage, checkPageExact, h, hr, hv, chooseMttp, hw, pick_nil, ho, Bool.true_or, if_true]

/-- The exact check gives one outcome for every address of a 4 KiB page. -/
theorem checkPageExact_page (s : State) (a b : Nat) (ty : AccessType) (h : a / 4096 = b / 4096) :
    checkPageExact s a ty = checkPageExact s b ty := by
  unfold checkPageExact judgeWith
  split
  · rfl
  · rename_i hb
    rw [lookup_page _ _ _ _ a b _ _ (by revert hb; cases s.hart.mttp.mode <;> simp [Mode.paw]) h]

/-! ## The fields of an MTTL2 entry -/

/-- TYPE, ZERO and INFO of an rw entry whose ZERO field is 0 (R30). -/
theorem l2Fields_rw (e : Word) (h : e.toNat / 2 ^ 48 = 0) :
    l2Type .rw e = e.toNat / 2 ^ 44 ∧ l2Zero .rw e = 0 ∧ l2Info e = e.toNat % 2 ^ 44 := by
  have := e.isLt
  refine ⟨?_, ?_, ?_⟩ <;> simp only [l2Type, l2Zero, l2Info, bitsOf] <;> omega

/-- TYPE, ZERO and INFO of a 1b entry whose ZERO field is 0 (R43). -/
theorem l2Fields_oneBit (e : Word) (h : e.toNat / 2 ^ 46 = 0) :
    l2Type .oneBit e = e.toNat / 2 ^ 44 ∧ l2Zero .oneBit e = 0 ∧ l2Info e = e.toNat % 2 ^ 44 := by
  have := e.isLt
  refine ⟨?_, ?_, ?_⟩ <;> simp only [l2Type, l2Zero, l2Info, bitsOf] <;> omega

/-- The table of R40. -/
theorem permOfL1_rw (x : Nat) :
    permOfL1 .rw x =
      if x = 0 then .perm .none else if x = 1 then .perm .r else if x = 3 then .perm .rw else .violation := by
  unfold permOfL1
  split <;> simp_all

/-- The table of R52. -/
theorem permOfL1_oneBit (x : Nat) :
    permOfL1 .oneBit x = if x = 0 then .perm .disallow else if x = 1 then .perm .allow else .violation := by
  unfold permOfL1
  split <;> simp_all

/-! ## The latest matching fence -/

theorem Horizon.max_eq_left (s t : Horizon) (h1 : t.mem ≤ s.mem) (h2 : t.mttp ≤ s.mttp) : Horizon.max s t = s := by
  cases s; cases t; simp_all [Horizon.max]

/-- The latest fence lies where its records do. -/
theorem latestFence_le (fs : List FenceRecord) (sdid : Word) (a n k : Nat) (t : Horizon)
    (hf : ∀ f ∈ fs, f.time.mem ≤ n ∧ f.time.mttp ≤ k) (h : latestFence fs sdid a = some t) :
    t.mem ≤ n ∧ t.mttp ≤ k := by
  induction fs generalizing t with
  | nil => cases h
  | cons f fs ih =>
    have h0 := hf f (by simp)
    have ih' := fun t => ih t (fun g hg => hf g (by simp [hg]))
    unfold latestFence at h
    split at h
    · split at h
      · cases h; exact h0
      · rename_i t' ht'
        cases h
        have := ih' _ ht'
        simp only [Horizon.max]
        exact ⟨Nat.max_le.mpr ⟨h0.1, this.1⟩, Nat.max_le.mpr ⟨h0.2, this.2⟩⟩
    · exact ih' _ h

end Sys2Proof.Machine
end

