-- ==== Sys2Proof/Laws/Fences.lean ====
section
/-! SUPPORT. The time `t0` of R73 as a function of the fences a hart completed: what one more fence or
a list of them does to it. -/

namespace Sys2Proof.Machine

/-- A fence completed now sets the time of the pairs it matches, and of no other. -/
theorem latestFence_now (s : State) (hi : s.Inv) (sel : Selector) (sdid : Word) (a : Nat) :
    latestFence ({ sel := sel, time := now s } :: s.hart.fences) sdid a =
      if sel.matches sdid a then some (now s) else latestFence s.hart.fences sdid a := by
  rw [latestFence]
  simp only
  split
  · split
    · rfl
    · rename_i t ht
      have := latestFence_le _ _ _ _ _ _ hi.hart.fences ht
      simp [now, Horizon.max, Nat.max_eq_left this.1, Nat.max_eq_left this.2]
  · rfl

/-- The time over two lists of fences is the later of the two. -/
theorem latestFence_append (A B : List FenceRecord) (sdid : Word) (a : Nat) :
    latestFence (A ++ B) sdid a =
      (match latestFence A sdid a, latestFence B sdid a with
       | none, x => x
       | some t, none => some t
       | some t, some u => some (Horizon.max t u)) := by
  induction A with
  | nil => simp [latestFence]
  | cons f A ih =>
    rw [List.cons_append, latestFence, latestFence, ih]
    split
    · cases latestFence A sdid a <;> cases latestFence B sdid a <;> simp [Horizon.max, Nat.max_assoc]
    · rfl

/-- The time over fences that all set the same time. -/
theorem latestFence_const (l : List Selector) (m : Horizon) (sdid : Word) (a : Nat) :
    latestFence (l.map (fun sel => { sel := sel, time := m })) sdid a =
      if ∃ sel ∈ l, sel.matches sdid a = true then some m else none := by
  induction l with
  | nil => simp [latestFence]
  | cons f A ih =>
    rw [List.map_cons, latestFence, ih]
    by_cases h : f.matches sdid a <;> by_cases h2 : ∃ sel ∈ A, sel.matches sdid a = true
    · simp [h, h2, Horizon.max]
    · rw [if_neg h2, if_pos (by simp [h]), if_pos (by simp [h])]
    · rw [if_pos h2, if_neg (by simp [h]), if_pos (by simpa [h] using h2)]
    · rw [if_neg h2, if_neg (by simp [h]), if_neg (by simpa [h] using h2)]

end Sys2Proof.Machine
end

