-- ==== Sys2Proof/Laws/Flags.lean ====
section
/-! SUPPORT. The fields of `mstatus`: what replacing a field does to each bit, and what the traps and returns leave in
`MPP`. -/

namespace Sys2Proof.Machine

/-- A replaced field holds the new bits and every other bit is kept. -/
theorem putField_getLsbD (v : Word) (lsb w : Nat) (f : BitVec w) (i : Nat) (h : lsb + w ≤ 64) :
    (putField v lsb w f).getLsbD i =
      if lsb ≤ i ∧ i < lsb + w then f.getLsbD (i - lsb) else v.getLsbD i := by
  unfold putField
  simp only [BitVec.getLsbD_or, BitVec.getLsbD_and, BitVec.getLsbD_not, BitVec.getLsbD_shiftLeft,
    BitVec.getLsbD_setWidth, BitVec.getLsbD_allOnes]
  by_cases hi : i < 64
  · by_cases h1 : lsb ≤ i
    · by_cases h2 : i < lsb + w
      · have h3 : i - lsb < w := by omega
        have h4 : i - lsb < 64 := by omega
        simp [h1, h2, h3, h4, hi, Nat.not_lt.mpr h1]
      · have h3 : ¬ i - lsb < w := by omega
        have h4 : (BitVec.getLsbD f (i - lsb)) = false := BitVec.getLsbD_of_ge f _ (by omega)
        simp only [h2, h3, h4, hi, decide_true, decide_false, Bool.and_false, Bool.not_false, Bool.true_and,
          Bool.and_true, Bool.or_false, and_false, if_false]
    · simp [h1, hi, Nat.lt_of_not_le h1]
  · have h1 : ¬ (lsb ≤ i ∧ i < lsb + w) := by omega
    simp [h1, hi, BitVec.getLsbD_of_ge v i (by omega)]

theorem putBit_getLsbD (v : Word) (k : Nat) (b : Bool) (i : Nat) (h : k + 1 ≤ 64) :
    (putBit v k b).getLsbD i = if i = k then b else v.getLsbD i := by
  unfold putBit
  rw [putField_getLsbD _ _ _ _ _ h]
  by_cases hk : i = k
  · subst hk; simp
  · rw [if_neg (by omega), if_neg hk]

/-- The bits of `MPP`. -/
theorem mppField_getLsbD (v : Word) (i : Nat) (h : i < 2) : (mppField v).getLsbD i = v.getLsbD (11 + i) := by
  unfold mppField mppLsb
  rw [BitVec.getLsbD_extractLsb', decide_eq_true h, Bool.true_and]

/-- The two bits of `MPP` decide it. -/
theorem mppField_eq_iff (v : Word) (b : BitVec 2) :
    mppField v = b ↔ v.getLsbD 11 = b.getLsbD 0 ∧ v.getLsbD 12 = b.getLsbD 1 := by
  constructor
  · rintro rfl
    exact ⟨(mppField_getLsbD v 0 (by omega)).symm, (mppField_getLsbD v 1 (by omega)).symm⟩
  · rintro ⟨h0, h1⟩
    apply BitVec.eq_of_getLsbD_eq
    intro i hi
    have : i = 0 ∨ i = 1 := by omega
    rcases this with rfl | rfl
    · rw [mppField_getLsbD v 0 (by omega)]; exact h0
    · rw [mppField_getLsbD v 1 (by omega)]; exact h1

/-- `MPP` is the same in two words that agree in its bits. -/
theorem mpp_congr (v w : Word) (h0 : v.getLsbD 11 = w.getLsbD 11) (h1 : v.getLsbD 12 = w.getLsbD 12) :
    mpp v = mpp w := by
  have : mppField v = mppField w := by
    rw [mppField_eq_iff, mppField_getLsbD w 0 (by omega), mppField_getLsbD w 1 (by omega)]
    exact ⟨h0, h1⟩
  simp only [mpp, this]

@[simp] theorem privOfCode_code (p : Priv) : privOfCode p.code = some p := by cases p <;> rfl

/-- A mode's code put into `MPP` names that mode. -/
theorem mpp_putCode (p : Priv) (v : Word) : mpp (putField v mppLsb 2 p.code) = some p := by
  have : mppField (putField v mppLsb 2 p.code) = p.code := by
    rw [mppField_eq_iff, mppLsb, putField_getLsbD _ _ _ _ _ (by omega), putField_getLsbD _ _ _ _ _ (by omega)]; simp
  simp [mpp, this]

/-- What a trap into M-mode leaves in each bit of `mstatus` (R111). -/
theorem mstatusAfterTrapM_getLsbD (p : Priv) (v : Word) (i : Nat) :
    (mstatusAfterTrapM p v).getLsbD i =
      if i = 3 then false else if i = 7 then v.getLsbD 3
      else if 11 ≤ i ∧ i < 13 then p.code.getLsbD (i - 11) else v.getLsbD i := by
  simp only [mstatusAfterTrapM, mieBit, mpieBit, mppLsb]
  rw [putBit_getLsbD _ _ _ _ (by omega), putBit_getLsbD _ _ _ _ (by omega), putField_getLsbD _ _ _ _ _ (by omega)]

/-- After a trap into M-mode `MPP` names the mode it came from. -/
theorem mpp_afterTrapM (p : Priv) (v : Word) : mpp (mstatusAfterTrapM p v) = some p := by
  have : mppField (mstatusAfterTrapM p v) = p.code := by
    rw [mppField_eq_iff, mstatusAfterTrapM_getLsbD, mstatusAfterTrapM_getLsbD]; simp
  simp [mpp, this]

/-- What MRET leaves in each bit of `mstatus`. -/
theorem mstatusAfterMret_getLsbD (p : Priv) (v : Word) (i : Nat) :
    (mstatusAfterMret p v).getLsbD i =
      if i = 17 ∧ p ≠ .m then false else if 11 ≤ i ∧ i < 13 then false
      else if i = 7 then true else if i = 3 then v.getLsbD 7 else v.getLsbD i := by
  simp only [mstatusAfterMret, mieBit, mpieBit, mppLsb, mprvBit]
  split
  · rename_i h
    rw [putField_getLsbD _ _ _ _ _ (by omega), putBit_getLsbD _ _ _ _ (by omega), putBit_getLsbD _ _ _ _ (by omega)]
    simp [h, Priv.code]
  · rename_i h
    rw [putBit_getLsbD _ _ _ _ (by omega), putField_getLsbD _ _ _ _ _ (by omega), putBit_getLsbD _ _ _ _ (by omega),
      putBit_getLsbD _ _ _ _ (by omega)]
    simp [h, Priv.code]

/-- After MRET `MPP` names U. -/
theorem mpp_afterMret (p : Priv) (v : Word) : mpp (mstatusAfterMret p v) = some .u := by
  have : mppField (mstatusAfterMret p v) = Priv.u.code := by
    rw [mppField_eq_iff, mstatusAfterMret_getLsbD, mstatusAfterMret_getLsbD]; simp [Priv.code]
  simp [mpp, this]

/-- A trap into S-mode touches bits 1, 5 and 8 only. -/
theorem mstatusAfterTrapS_getLsbD_other (p : Priv) (v : Word) (i : Nat) (h1 : i ≠ 1) (h5 : i ≠ 5) (h8 : i ≠ 8) :
    (mstatusAfterTrapS p v).getLsbD i = v.getLsbD i := by
  unfold mstatusAfterTrapS sieBit spieBit sppBit
  rw [putBit_getLsbD _ _ _ _ (by omega), putBit_getLsbD _ _ _ _ (by omega), putBit_getLsbD _ _ _ _ (by omega),
    if_neg h1, if_neg h5, if_neg h8]

/-- SRET touches bits 1, 5, 8 and 17 only. -/
theorem mstatusAfterSret_getLsbD_other (v : Word) (i : Nat) (h1 : i ≠ 1) (h5 : i ≠ 5) (h8 : i ≠ 8) (h17 : i ≠ 17) :
    (mstatusAfterSret v).getLsbD i = v.getLsbD i := by
  unfold mstatusAfterSret sieBit spieBit sppBit mprvBit
  rw [putBit_getLsbD _ _ _ _ (by omega), putBit_getLsbD _ _ _ _ (by omega), putBit_getLsbD _ _ _ _ (by omega),
    putBit_getLsbD _ _ _ _ (by omega), if_neg h17, if_neg h8, if_neg h5, if_neg h1]

/-- A trap into S-mode leaves `MPP` alone. -/
theorem mpp_afterTrapS (p : Priv) (v : Word) : mpp (mstatusAfterTrapS p v) = mpp v := by
  apply mpp_congr <;> exact mstatusAfterTrapS_getLsbD_other _ _ _ (by omega) (by omega) (by omega)

/-- SRET leaves `MPP` alone. -/
theorem mpp_afterSret (v : Word) : mpp (mstatusAfterSret v) = mpp v := by
  apply mpp_congr <;> exact mstatusAfterSret_getLsbD_other _ _ (by omega) (by omega) (by omega) (by omega)

end Sys2Proof.Machine
end

