-- ==== Sys2Proof/Laws/Invariant.lean ====
section
/-! SUPPORT. The invariant through each named operation: what a hart or a machine may be after one of them. -/

namespace Sys2Proof.Machine

/-! ## Values cut to `XLEN` bits -/

@[simp] theorem wrapX_wrapX (x : Xlen) (v : Word) : wrapX x (wrapX x v) = wrapX x v := by
  cases x
  · simp [wrapX, BitVec.and_assoc]
  · rfl

theorem fits_wrapX (c : Config) (v : Word) : Fits c (wrapX c.xlen v) := wrapX_wrapX _ _

theorem fits_zero (c : Config) : Fits c 0 := by
  unfold Fits; cases c.xlen <;> simp [wrapX]

theorem fits_vectorBase (c : Config) (v : Word) (h : Fits c v) : Fits c (vectorBase v) := by
  unfold Fits vectorBase at *
  revert h
  cases c.xlen
  · simp only [wrapX]
    intro h
    rw [BitVec.and_assoc, BitVec.and_comm (~~~3#64), ← BitVec.and_assoc, h]
  · simp [wrapX]

/-! ## One hart -/

/-- A longer history of memory keeps a hart legal. -/
theorem Hart.Legal.mono {c : Config} {n n' : Nat} {h : Hart} (l : Hart.Legal c n h) (hn : n ≤ n') :
    Hart.Legal c n' h :=
  { l with
    fences := fun f hf => ⟨Nat.le_trans (l.fences f hf).1 hn, (l.fences f hf).2⟩
    mark := fun t ht => ⟨Nat.le_trans (l.mark t ht).1 hn, (l.mark t ht).2⟩ }

/-- What a hart's legality does not depend on. -/
theorem Hart.Legal.environment {c : Config} {n : Nat} {h : Hart} (l : Hart.Legal c n h) (p : List PmpDeny)
    (x : List Translation) (b : List BaseOp) : Hart.Legal c n { h with pmp := p, xlate := x, baseOps := b } := { l with }

theorem Hart.Legal.setPriv {c : Config} {n : Nat} {h : Hart} (l : Hart.Legal c n h) (p : Priv) :
    Hart.Legal c n { h with priv := p } := { l with }

/-- Each register that a trap, a return or a CSR write replaces may take any value that fits. -/
theorem Hart.Legal.setTrapM {c : Config} {n : Nat} {h : Hart} (l : Hart.Legal c n h) (p : Priv)
    (pc mepc mcause mtval st : Word) (h1 : Fits c pc) (h2 : Fits c mepc) (h3 : Fits c mcause) (h4 : Fits c mtval)
    (h5 : mpp st ≠ none) :
    Hart.Legal c n { h with priv := p, pc := pc, mepc := mepc, mcause := mcause, mtval := mtval, mstatus := st } :=
  { l with pc := h1, mepc := h2, mcause := h3, mtval := h4, mppNamed := h5 }

theorem Hart.Legal.setTrapS {c : Config} {n : Nat} {h : Hart} (l : Hart.Legal c n h) (p : Priv)
    (pc sepc scause stval st : Word) (h1 : Fits c pc) (h2 : Fits c sepc) (h3 : Fits c scause) (h4 : Fits c stval)
    (h5 : mpp st ≠ none) :
    Hart.Legal c n { h with priv := p, pc := pc, sepc := sepc, scause := scause, stval := stval, mstatus := st } :=
  { l with pc := h1, sepc := h2, scause := h3, stval := h4, mppNamed := h5 }

theorem Hart.Legal.setVectors {c : Config} {n : Nat} {h : Hart} (l : Hart.Legal c n h) (mtvec medeleg stvec : Word)
    (h1 : Fits c mtvec) (h2 : Fits c medeleg) (h3 : Fits c stvec) :
    Hart.Legal c n { h with mtvec := mtvec, medeleg := medeleg, stvec := stvec } :=
  { l with mtvec := h1, medeleg := h2, stvec := h3 }

/-- A hart after reset is legal (R22, R116). -/
theorem legal_hart_reset (c : Config) (n : Nat) (hc : c.resetLegal = true) : Hart.Legal c n (Hart.reset c) where
  regs r := by simp [Hart.reset]; exact fits_zero c
  pc := fits_zero c
  mepc := fits_zero c
  mcause := fits_zero c
  mtval := fits_zero c
  mtvec := fits_zero c
  medeleg := fits_zero c
  sepc := fits_zero c
  scause := fits_zero c
  stval := fits_zero c
  stvec := fits_zero c
  mppNamed := by simp [Hart.reset]; decide
  mttp := by simpa [Config.resetLegal, Mttp.Legal, Hart.reset, and_assoc] using hc
  mttpPast := by simp [Hart.reset]
  fences := by simp [Hart.reset]
  mark := by simp [Hart.reset]
  swept := by simp [Hart.reset]
  covered := by simp [Hart.reset]

/-! ## The machine -/

/-- Replacing the moving hart by a legal one. -/
theorem State.Inv.setHart {s : State} (i : s.Inv) {h : Hart} (l : Hart.Legal s.cfg s.memPast.length h) :
    (Machine.setHart h s).Inv :=
  ⟨i.cfgWf, i.memWf, i.pastWf, l, i.others, i.nharts⟩

theorem State.Inv.nextTick {s : State} (i : s.Inv) : (Machine.nextTick s).Inv :=
  ⟨i.cfgWf, i.memWf, i.pastWf, i.hart, i.others, i.nharts⟩

theorem State.Inv.popEvent {s : State} (i : s.Inv) : (Machine.popEvent s).Inv :=
  ⟨i.cfgWf, i.memWf, i.pastWf, i.hart, i.others, i.nharts⟩

/-- A state an instruction is in while it runs: of the state it began in, all but memory and its history, the operations
the environment named, and the counter. -/
structure Began (start s : State) : Prop where
  cfg    : s.cfg = start.cfg
  others : s.others = start.others
  hart   : ∃ b, s.hart = { start.hart with baseOps := b }

/-- Going back to the memory an instruction began with keeps the invariant. -/
theorem State.Inv.takeBack {start s : State} (i : start.Inv) (g : Began start s) : (Machine.takeBack start s).Inv := by
  obtain ⟨b, hb⟩ := g.hart
  refine ⟨by simpa [g.cfg] using i.cfgWf, i.memWf, i.pastWf, ?_, ?_, by simpa [g.cfg, g.others] using i.nharts⟩
  · simp only [takeBack_hart, takeBack_cfg, takeBack_memPast, hb, g.cfg]
    exact i.hart.environment _ _ b
  · simpa [g.cfg, g.others] using i.others

/-- A change of memory by stores keeps the invariant. -/
theorem State.Inv.grows {s t : State} (i : s.Inv) (g : Grows s t) : t.Inv := by
  obtain ⟨l, hl, hw⟩ := g.past
  have hn : s.memPast.length ≤ t.memPast.length := by rw [hl]; simp
  refine ⟨g.cfg ▸ i.cfgWf, g.memWf i.memWf, fun m hm => ?_, ?_, ?_, ?_⟩
  · rw [hl] at hm
    rcases List.mem_append.mp hm with hm | hm
    · exact hw i.memWf m hm
    · exact i.pastWf m hm
  · rw [g.hart, g.cfg]; exact i.hart.mono hn
  · rw [g.others, g.cfg]; exact fun h hh => (i.others h hh).mono hn
  · rw [g.others, g.cfg]; exact i.nharts

theorem State.Inv.setPc {s : State} (i : s.Inv) (v : Word) : (Machine.setPc v s).Inv :=
  i.setHart { i.hart with pc := fits_wrapX _ _ }

theorem State.Inv.advancePc {s : State} (i : s.Inv) (len : Word) : (Machine.advancePc len s).Inv := i.setPc _

theorem State.Inv.setReg {s : State} (i : s.Inv) (r : RegIdx) (v : Word) : (Machine.setReg r v s).Inv := by
  unfold Machine.setReg
  split
  · exact i
  · refine i.setHart { i.hart with regs := fun q => ?_ }
    show Fits s.cfg ((s.hart.x.set r.toNat (wrapX s.cfg.xlen v) r.isLt)[q.val])
    rw [Vector.getElem_set]
    split
    · exact fits_wrapX _ _
    · exact i.hart.regs q

theorem State.Inv.recordFences {s : State} (i : s.Inv) (sels : List Selector) {t : Horizon}
    (ht : t.mem ≤ s.memPast.length ∧ t.mttp ≤ s.hart.mttpPast.length) : (Machine.recordFences sels t s).Inv :=
  i.setHart { i.hart with
    fences := fun f hf => by
      rcases List.mem_append.mp hf with hf | hf
      · obtain ⟨sel, -, rfl⟩ := List.mem_map.mp hf
        exact ht
      · exact i.hart.fences f hf
    swept := fun h => by
      rcases (Bool.or_eq_true ..).mp h with h | h
      · obtain ⟨f, hf, hs⟩ := i.hart.swept h
        exact ⟨f, List.mem_append_right _ hf, hs⟩
      · exact ⟨_, List.mem_append_left _ (List.mem_map_of_mem (List.contains_iff_mem.mp h)), rfl⟩ }

theorem State.Inv.recordFence {s : State} (i : s.Inv) (sel : Selector) :
    (Machine.recordFence sel (now s) s).Inv := i.recordFences [sel] ⟨Nat.le_refl _, Nat.le_refl _⟩

theorem State.Inv.clearPending {s : State} (i : s.Inv) : (Machine.clearPending s).Inv :=
  i.setHart { i.hart with covered := by simp }

theorem State.Inv.addPending {s : State} (i : s.Inv) (sel : Selector) : (Machine.addPending sel s).Inv :=
  i.setHart { i.hart with
    covered := fun p hp hm => by
      rcases List.mem_cons.mp hp with rfl | hp
      · simp only at hm
        intro hn
        rw [show s.hart.wInval = none from hn] at hm
        cases hm
      · exact i.hart.covered p hp hm }

theorem State.Inv.markWInval {s : State} (i : s.Inv) : (Machine.markWInval s).Inv :=
  i.setHart { i.hart with
    mark := fun t ht => by cases ht; exact ⟨Nat.le_refl _, Nat.le_refl _⟩
    covered := fun p hp hm => by simp }

theorem State.Inv.closeInvals {s : State} (i : s.Inv) : (Machine.closeInvals s).Inv := by
  unfold Machine.closeInvals
  split
  · exact i.clearPending
  · rename_i t ht
    exact (i.recordFences _ (i.hart.mark t ht)).clearPending

theorem State.Inv.putMttp {s : State} (i : s.Inv) {m : Mttp} (hm : Mttp.Legal s.cfg m) : (Machine.putMttp m s).Inv :=
  i.setHart { i.hart with
    mttp := hm
    mttpPast := fun q hq => by
      rcases List.mem_cons.mp hq with rfl | hq
      · exact i.hart.mttp
      · exact i.hart.mttpPast q hq
    fences := fun f hf => ⟨(i.hart.fences f hf).1, Nat.le_succ_of_le (i.hart.fences f hf).2⟩
    mark := fun t ht => ⟨(i.hart.mark t ht).1, Nat.le_succ_of_le (i.hart.mark t ht).2⟩ }

theorem State.Inv.trapM {s : State} (i : s.Inv) (cause tval : Word) : (Machine.trapM cause tval s).Inv :=
  i.setHart (i.hart.setTrapM .m _ _ _ _ _ (fits_vectorBase _ _ i.hart.mtvec) i.hart.pc (fits_wrapX _ _)
    (fits_wrapX _ _) (by rw [mpp_afterTrapM]; simp))

theorem State.Inv.trapS {s : State} (i : s.Inv) (cause tval : Word) : (Machine.trapS cause tval s).Inv :=
  i.setHart (i.hart.setTrapS .s _ _ _ _ _ (fits_vectorBase _ _ i.hart.stvec) i.hart.pc (fits_wrapX _ _)
    (fits_wrapX _ _) (by rw [mpp_afterTrapS]; exact i.hart.mppNamed))

theorem State.Inv.trapAccessFault {s : State} (i : s.Inv) (cause tval : Word) :
    (Machine.trapAccessFault cause tval s).Inv := by
  unfold Machine.trapAccessFault
  split
  · exact i.trapS _ _
  · exact i.trapM _ _

theorem State.Inv.raiseIllegal {s : State} (i : s.Inv) (bits : Word) : (Machine.raiseIllegal bits s).Inv :=
  (i.trapM _ _).nextTick

theorem State.Inv.tickMpp {s : State} (i : s.Inv) : (Machine.tickMpp s).Inv := by
  unfold Machine.tickMpp
  split
  · exact i.nextTick
  · exact i

theorem State.Inv.putMstatus {s : State} (i : s.Inv) (v : Word) : (Machine.putMstatus v s).Inv := by
  unfold Machine.putMstatus
  split
  · apply State.Inv.nextTick
    exact i.setHart { i.hart with mppNamed := by rw [mpp_putCode]; simp }
  · rename_i h
    exact i.setHart { i.hart with mppNamed := h }

theorem State.Inv.returnM {s : State} (i : s.Inv) (p : Priv) : (Machine.returnM p s).Inv :=
  i.setHart { i.hart with pc := i.hart.mepc, mppNamed := by rw [mpp_afterMret]; simp }

theorem State.Inv.returnS {s : State} (i : s.Inv) : (Machine.returnS s).Inv :=
  i.setHart { i.hart with pc := i.hart.sepc, mppNamed := by rw [mpp_afterSret]; exact i.hart.mppNamed }

theorem State.Inv.popBaseOp {s : State} (i : s.Inv) : (Machine.popBaseOp s).Inv :=
  i.setHart (i.hart.environment _ _ _)

end Sys2Proof.Machine
end

