-- ==== Sys2Proof/Laws/PerInstr.lean ====
section
/-! SUPPORT. Statements about every instruction as syntax, one lemma for each constructor. -/

namespace Sys2Proof.Laws.SystemWord

/-- The word of an instruction has the bits that spec/opcode_table.json fixes for its row: 14 down to 0 are `0x73`
(opcode SYSTEM, `rd` and `funct3` 0; R84, R87), whatever the parameters. -/
def Statement (i : Instr) : Prop := ∀ c : Config, (encode c i).extractLsb' 0 15 = 0x0073#15

theorem encodeR_low (f : BitVec 7) (rs2 rs1 : RegIdx) : (encodeR f rs2 rs1).extractLsb' 0 15 = 0x0073#15 := by
  unfold encodeR
  apply BitVec.eq_of_getLsbD_eq
  intro i hi
  simp only [BitVec.getLsbD_extractLsb', hi, decide_true, Bool.true_and, Nat.zero_add, BitVec.getLsbD_append]
  interval_cases i <;> rfl

theorem mfenceSpa (rs1 rs2 : RegIdx) : Statement (.mfenceSpa rs1 rs2) := fun _ => encodeR_low _ _ _
theorem minvalSpa (rs1 rs2 : RegIdx) : Statement (.minvalSpa rs1 rs2) := fun _ => encodeR_low _ _ _
theorem sfenceWInval : Statement .sfenceWInval := fun _ => encodeR_low _ _ _
theorem sfenceInvalIr : Statement .sfenceInvalIr := fun _ => encodeR_low _ _ _

end Sys2Proof.Laws.SystemWord
end

