-- ==== Sys2Proof/Laws/Pieces.lean ====
section
/-! SUPPORT. What an access does by its pieces, translated or not, in one page or two: the pieces that pass, and the first
one that fails. -/

namespace Sys2Proof.Machine

/-- The pieces of an access are its spans, each translated. -/
theorem accessParts_spans (c : Config) (h : Hart) (eff : Priv) (t : AccessType) (va n : Nat) :
    accessParts c h eff t va n = (spans c va n).map (fun x => translatePart h eff t x.1 x.2) := by
  unfold accessParts spans
  by_cases hp : va % 4096 + n ≤ 4096
  · rw [if_neg (Nat.not_lt.mpr hp), if_pos hp]; rfl
  · rw [if_pos (Nat.lt_of_not_le hp), if_neg hp]; rfl

/-- A piece that lies somewhere is the translation of its span. -/
theorem Part.Lies.translated {s : State} {k : AccessKind} {eff : Priv} {p : Part} (h : p.Lies s k eff) :
    translatePart s.hart eff k.type p.va p.size = p := by
  obtain ⟨va, pa, size, implicit, raises⟩ := p
  obtain ⟨hr, ⟨h1, h2, h3⟩ | ⟨h1, x, ppn, h2, h3, h4, h5⟩⟩ := h
  · simp only at hr h1 h2 h3
    subst hr h1 h2
    unfold translatePart
    rcases h3 with h3 | h3
    · rw [if_pos h3]
    · split
      · rfl
      · rw [h3]
  · simp only at hr h2 h3 h4 h5
    subst hr h4 h5
    unfold translatePart
    rw [if_neg h1, h2]
    simp only [h3]

theorem Part.Passes.checked {s : State} {k : AccessKind} {eff : Priv} {p : Part} (h : p.Passes s k eff) :
    checkPart s eff k.type p = .ok := by
  obtain ⟨hl, hi, hp, hm⟩ := h
  simp only [checkPart, show checkImplicits s [p.va] eff (p.implicit.filter (implicitMade s.cfg)) = .ok from hi, hl.1,
    checkPhysical, hp, hm]
  rfl

theorem Part.Refused.checked {s : State} {k : AccessKind} {eff : Priv} {p : Part} (h : p.Refused s k eff) :
    checkPart s eff k.type p = .accessFault := by
  obtain ⟨hl, hi, h⟩ := h
  simp only [checkPart, show checkImplicits s [p.va] eff (p.implicit.filter (implicitMade s.cfg)) = .ok from hi, hl.1,
    checkPhysical]
  rcases h with h | ⟨h, h'⟩
  · rw [h]; rfl
  · rw [h, h']; rfl

/-- The pieces of spans that pass. -/
theorem translated_spans {s : State} {k : AccessKind} {eff : Priv} {ps : List Part} (h : ∀ q ∈ ps, q.Passes s k eff) :
    (ps.map (fun q => (q.va, q.size))).map (fun x => translatePart s.hart eff k.type x.1 x.2) = ps := by
  rw [List.map_map]
  exact (List.map_congr_left fun q hq => (h q hq).1.translated).trans (List.map_id ps)

/-- An access whose pieces all pass. -/
theorem access_passes {start s : State} {k : AccessKind} {ea va n : Nat} {data : List Byte} {eff : Priv} {ps : List Part}
    (he : effectivePriv s k = eff) (hs : spans s.cfg va n = ps.map (fun q => (q.va, q.size)))
    (hp : ∀ q ∈ ps, q.Passes s k eff) (hm : InMemory s.cfg ps) :
    access start s k ea va n data = .ok ps (storeAll (implicitWrites s.cfg ps) (tickFor k eff s)) := by
  have hparts : accessParts s.cfg s.hart eff k.type va n = ps := by
    rw [accessParts_spans, hs, translated_spans hp]
  have hnone := (find_zip_none (checkPart s eff k.type) ps).mpr fun q hq => (hp q hq).checked
  have hfit : ¬ (ps.map (fun p => (p.pa, p.size)) ++ (implicitWrites s.cfg ps).map (fun w => (w.1, w.2.length))).any
      (fun x => decide (addressLimit < x.1 + x.2)) = true := by
    rw [List.any_eq_true]
    rintro ⟨x, hx, h⟩
    have h := of_decide_eq_true h
    have := (hm x hx).1
    unfold addressLimit at h
    omega
  have hdev : ¬ (ps.map (fun p => (p.pa, p.size)) ++ (implicitWrites s.cfg ps).map (fun w => (w.1, w.2.length))).any
      (fun x => isDevice s.cfg x.1 x.2) = true := by
    rw [List.any_eq_true]
    rintro ⟨x, hx, h⟩
    rw [(hm x hx).2] at h
    cases h
  unfold access
  simp only [he, hparts, hnone, finishAccess]
  rw [if_neg hfit, if_neg hdev]

/-- The first piece that does not pass is the one found. -/
theorem find_zip_first (f : Part → PartOut) (l : List Part) (p : Part) (r : List Part) (h : ∀ q ∈ l, f q = .ok)
    (hp : f p ≠ .ok) :
    ((l ++ p :: r).zip ((l ++ p :: r).map f)).find? (fun x => x.2 != .ok) = some (p, f p) := by
  induction l with
  | nil => simp [hp]
  | cons a l ih =>
    have ha : f a = .ok := h a (by simp)
    simp only [List.cons_append, List.map_cons, List.zip_cons_cons, List.find?_cons, ha]
    exact ih fun q hq => h q (by simp [hq])

@[simp] theorem storeAll_tick (l : List (Nat × List Byte)) (s : State) : (storeAll l s).tick = s.tick := by
  induction l generalizing s with
  | nil => rfl
  | cons x l ih => rw [storeAll, ih, storeBytes_tick]

/-- An access whose first piece that does not pass ends in an access-fault: the trap is taken in a state that differs from
memory as the instruction found it at most in what R70 leaves open. -/
theorem access_fails {start s : State} {k : AccessKind} {ea va n w m : Nat} {data : List Byte} {eff : Priv} {ps : List Part}
    {rest : List (Nat × Nat)} (he : effectivePriv s k = eff)
    (hs : spans s.cfg va n = ps.map (fun q => (q.va, q.size)) ++ (w, m) :: rest) (hp : ∀ q ∈ ps, q.Passes s k eff)
    (hf : checkPart s eff k.type (translatePart s.hart eff k.type w m) = .accessFault)
    (hw : (translatePart s.hart eff k.type w m).va = w) :
    ∃ u, access start s k ea va n data = .trap (nextTick (trapAccessFault k.cause (drawTval s ea w) u)) ∧
      Grows (takeBack start s) u ∧ u.tick = s.tick ∧
      ((ps = [] ∧ rest = []) ∨ data = [] → u = takeBack start s) := by
  have hparts : accessParts s.cfg s.hart eff k.type va n =
      ps ++ translatePart s.hart eff k.type w m :: rest.map (fun x => translatePart s.hart eff k.type x.1 x.2) := by
    rw [accessParts_spans, hs, List.map_append, translated_spans hp, List.map_cons]
  have hfind := find_zip_first (checkPart s eff k.type) ps (translatePart s.hart eff k.type w m)
    (rest.map (fun x => translatePart s.hart eff k.type x.1 x.2)) (fun q hq => (hp q hq).checked) (by rw [hf]; simp)
  generalize hl : ps ++ translatePart s.hart eff k.type w m ::
    rest.map (fun x => translatePart s.hart eff k.type x.1 x.2) = l at hparts hfind
  refine ⟨failedAccess start s data l (l.map (checkPart s eff k.type)), ?_, grows_failedAccess start s data _ _,
    storeAll_tick _ _, ?_⟩
  · unfold access
    simp only [he, hparts, hfind, hf, hw]
  · rintro (⟨rfl, rfl⟩ | rfl)
    · subst hl
      exact failedAccess_single _ _ _ _ _ (by rw [hf]; simp)
    · exact failedAccess_nil _ _ _ _

end Sys2Proof.Machine
end

