-- ==== Sys2Proof/Tests/Slice0.lean ====
section
/-! SUPPORT. The model's own tests: what WellFormed refuses, words written out bit by bit from 30_encoding.md section 5,
one-step tests of each instruction, the vectors of 95_test_vectors.md, and for every obligation with hypotheses a
witness that meets them. Expected results come from the spec, never from the model. -/

namespace Sys2Proof.Tests

open Sys2Proof Sys2Proof.Machine

/-! ## Small states -/

/-- A check on the next state of an outcome. -/
def nextIs (o : Host.Outcome State Fault Refusal) (p : State → Bool) : Bool :=
  match o with
  | .next s => p s
  | _ => false

/-- The reference parameters with another one changed. -/
def ref : Config := Config.reference

/-- A hart in a mode with a value of `mttp`, everything fenced at time 0, `x10` = 1, `x11` = 0x82003010. -/
def hartIn (p : Priv) (m : Mttp) : Hart :=
  { Hart.reset ref with
    priv := p, mttp := m, x := ((Hart.reset ref).x.set 10 1).set 11 0x82003010
    fences := [{ sel := .all, time := { mem := 0, mttp := 0 } }], resetOver := true }

/-- A state in which that hart moves. -/
def st (p : Priv) (m : Mttp) : State := { State.reset with hart := hartIn p m }

/-- `mttp` = (Smmtt46rw, SDID 1, PPN 0): with memory all 0, every address has the permission NONE. -/
def noneRw : Mttp := { mode := .smmtt46rw, sdid := 1, ppn := 0 }

/-- `mttp` = (Bare, SDID 1, PPN 0). -/
def bare1 : Mttp := { mode := .bare, sdid := 1, ppn := 0 }

/-- An S-mode state in which every check fails. -/
def sNone : State := st .s noneRw
/-- An S-mode state in which every check passes. -/
def sBare : State := st .s bare1
/-- The same two in M-mode. -/
def mNone : State := st .m noneRw

/-- Memory with an rw MTTL2 table at page 0x10 (a group of directory and 2M_PAGES entries) whose first entry leads to
the MTTL1 page 0x11: of its first 16 pages, page 2 alone has the permission NONE, every other RW. -/
def onePageDenied : Memory :=
  (0x10000, 0x11#8) :: (0x10005, 0x40#8) :: ((List.range 31).map (fun i => (0x1000D + 8 * i, 0x70#8)) ++
    (List.range 8).map (fun i => (0x11000 + i, if i = 1 then 0x30#8 else 0x33#8)))

/-- An S-mode state over that table, everything fenced. -/
def sOne : State := { st .s { mode := .smmtt46rw, sdid := 1, ppn := 0x10 } with mem := onePageDenied }

/-- The same with a translation: the pages 5 and 6 to the pages 3 and 2 for loads and fetches, the page 2 to the page 3 for
stores, with a page-table read in each page walked and with an A or D update for the store. -/
def sMap : State :=
  setHart { sOne.hart with xlate := [
    { vpn := 5, type := .read, implicit := [{ pa := 0x1010, size := 8, write := none }], ends := .page 3 },
    { vpn := 6, type := .read, implicit := [{ pa := 0x1018, size := 8, write := none }], ends := .page 2 },
    { vpn := 2, type := .write, implicit := [{ pa := 0x1010, size := 8, write := none },
      { pa := 0x1010, size := 8, write := some 0xC7 }], ends := .page 3 },
    { vpn := 5, type := .fetch, implicit := [{ pa := 0x1010, size := 8, write := none }], ends := .page 3 },
    { vpn := 6, type := .fetch, implicit := [], ends := .page 2 }] } sOne

/-- The first page-table read of `sMap`. -/
def walk1 : Implicit := { pa := 0x1010, size := 8, write := none }

/-- The pieces of a load of 8 bytes at 0x5FFC in `sMap`. -/
def loadLow : Part := { va := 0x5FFC, pa := 0x3FFC, size := 4, implicit := [walk1], raises := none }
def loadHigh : Part :=
  { va := 0x6000, pa := 0x2000, size := 4, implicit := [{ pa := 0x1018, size := 8, write := none }], raises := none }

theorem loadLow_passes : loadLow.Passes sMap .load .s :=
  ⟨⟨rfl, .inr ⟨by decide, _, 3, rfl, rfl, rfl, rfl⟩⟩, by unfold Part.Reached; decide, by decide, by decide⟩

theorem loadHigh_refused : loadHigh.Refused sMap .load .s :=
  ⟨⟨rfl, .inr ⟨by decide, _, 2, rfl, rfl, rfl, rfl⟩⟩, by unfold Part.Reached; decide, .inr ⟨by decide, by decide⟩⟩

/-! ## What WellFormed refuses -/

theorem test_reference_wf : ref.wf = true := by decide
theorem test_bad_bare : { ref with supportedModes := [.smmtt46rw] }.bareSupported = false := by decide
theorem test_bad_funct7_same : { ref with funct7Minval := 0b1011110#7 }.funct7Distinct = false := by decide
theorem test_bad_funct7_used : { ref with funct7Mfence := 0b0001001#7 }.funct7Free = false := by decide
theorem test_bad_layout_overlap : { ref with sdidLsb := 43 }.layoutFits = false := by decide
theorem test_bad_layout_outside : { ref with xlen := .rv32 }.layoutFits = false := by decide
theorem test_bad_ppn : { ref with ppnWidth := 43 }.ppnFits = false := by decide
theorem test_bad_mode_code : { ref with modeWidth := 2 }.modesEncoded = false := by decide
theorem test_bad_codes : { ref with modeEnc := [(.bare, 0), (.smmtt34, 0)] }.codesDistinct = false := by decide
theorem test_bad_nharts : { ref with nharts := 0 }.hasHart = false := by decide
theorem test_bad_reset : { ref with mttpReset := { mode := .bare, sdid := 64, ppn := 0 } }.resetLegal = false := by
  decide
theorem test_bad_absent : (Instr.sfenceWInval).wf { ref with hasSvinval := false } = false := by decide
theorem test_bad_form : (Instr.mfenceSpa 11 0).wf ref = false ∧ (Instr.minvalSpa 11 0).wf ref = false := by decide

/-! ## Words bit by bit (30_encoding.md section 5) -/

theorem test_word_w_inval : decodeTableWord 32 0b0001100_00000_00000_000_00000_1110011 = some .sfenceWInval := by decide
theorem test_word_inval_ir : decodeTableWord 32 0b0001100_00001_00000_000_00000_1110011 = some .sfenceInvalIr := by
  decide
theorem test_word_mfence : decodeTableWord 32 0b1011110_01010_01011_000_00000_1110011 = some (.mfenceSpa 11 10) := by
  decide
theorem test_word_minval : decodeTableWord 32 0b1011111_11111_00001_000_00000_1110011 = some (.minvalSpa 1 31) := by
  decide
theorem test_word_near : decodeTableWord 32 0b1011110_01010_01011_000_00001_1110011 = none ∧
    decodeTableWord 32 0b1011111_01010_01011_001_00000_1110011 = none ∧ decodeTableWord 32 0x00000073 = none ∧
    decodeTableWord 16 0x0001 = none := by decide

/-! ## One step of each instruction -/

theorem test_w_inval_step : nextIs (step (State.reset.withFetchWord 32 0x18000073))
    (fun s => s.hart.pc == 4 && s.hart.wInval == some { mem := 0, mttp := 0 }) = true := by decide
theorem test_inval_ir_step : nextIs (step ((markWInval State.reset).withFetchWord 32 0x18100073))
    (fun s => s.hart.pc == 4 && s.hart.pending == [] && s.hart.fences == []) = true := by decide
theorem test_mfence_step : nextIs (step (State.reset.withFetchWord 32 0xBC000073))
    (fun s => s.hart.pc == 4 && s.hart.fences == [{ sel := .all, time := { mem := 0, mttp := 0 } }]) = true := by decide
theorem test_minval_step : nextIs (step (State.reset.withFetchWord 32 0xBE000073))
    (fun s => s.hart.pc == 4 && s.hart.pending == [{ sel := .all, afterMark := false }]) = true := by decide
/-- 95_test_vectors.md section 3.7, third row. -/
theorem test_mfence_page : nextIs (execMfenceSpa 11 10 mNone)
    (fun s => s.hart.pc == 4 && latestFence s.hart.fences 1 0x82003000 == some { mem := 0, mttp := 0 } &&
      (s.hart.fences.headD { sel := .all, time := { mem := 0, mttp := 0 } }).sel == .page 1 0x82003) = true := by
  decide
/-- 95_test_vectors.md section 3.7, fourth row: a register that holds 0 names SDID 0, not all of them. -/
theorem test_mfence_sdid_zero : nextIs (execMfenceSpa 0 12 mNone)
    (fun s => (s.hart.fences.headD { sel := .all, time := { mem := 0, mttp := 0 } }).sel == .domain 0) = true := by decide
theorem test_mfence_s_mode : nextIs (execMfenceSpa 0 0 sNone)
    (fun s => s.hart.mcause == 2 && s.hart.priv == .m && s.hart.fences == sNone.hart.fences) = true := by decide
theorem test_minval_pending : nextIs (execMinvalSpa 0 10 mNone)
    (fun s => s.hart.pending == [{ sel := .domain 1, afterMark := false }] && s.hart.pc == 4) = true := by decide

/-! ## The vectors of 95_test_vectors.md -/

/-- A reader of entries written down as (address, value) pairs; an address not listed holds 0 (section 3). -/
def entries (l : List (Nat × Word)) : EntryReader := fun _ a =>
  .ok (((l.find? (fun e => e.1 == a)).map (fun e => e.2)).getD 0)

/-- A lookup over such a table; the tables of section 3 satisfy `MTT_WF_1G`. -/
def look (m : Mode) (root : Nat) (l : List (Nat × Word)) (p : Nat) : Except EntryStop LookupResult :=
  lookup ref m.family m.paw root p (entries l) (fun _ _ => false)

/-- The outcome is this permission. -/
def gives (o : Except EntryStop LookupResult) (r : LookupResult) : Bool :=
  match o with
  | .ok x => x == r
  | .error _ => false

/-- Section 2.1: an rw MTTL2 entry decoded for the address 0. -/
def rwEntry (e : Word) : Except EntryStop LookupResult := look .smmtt46rw 0x90000 [(0x90000000, e)] 0

/-- Section 2.1. -/
theorem test_rw_types :
    gives (rwEntry 0) (.perm .none) && gives (rwEntry 0x0000100000000000) (.perm .r) &&
    gives (rwEntry 0x0000300000000000) (.perm .rw) && gives (rwEntry 0x0000200000000000) .violation &&
    gives (rwEntry 0x0000500000000000) .violation && gives (rwEntry 0x0000600000000000) .violation &&
    gives (rwEntry 0x0000800000000000) .violation && gives (rwEntry 0x0000F00000000000) .violation &&
    gives (rwEntry 0x0001000000000000) (.unspec .zeroNonzero) &&
    gives (rwEntry 0x0000100000000005) (.unspec .infoNonzero) &&
    gives (rwEntry 0x0000700100000000) (.unspec .infoNonzero) = true := by decide

/-- Section 2.2: the entry 0x00007000C00000B4 at index 0x60. -/
def rw2m (p : Nat) : Except EntryStop LookupResult := look .smmtt46rw 0x90000 [(0x90000300, 0x00007000C00000B4)] p

theorem test_rw_2m :
    gives (rw2m 0xC0001234) (.perm .none) && gives (rw2m 0xC0201234) (.perm .r) &&
    gives (rw2m 0xC0401234) (.perm .rw) && gives (rw2m 0xC0601234) .violation &&
    gives (rw2m 0xC0801234) (.perm .none) && gives (rw2m 0xC1E01234) (.perm .rw) = true := by decide

/-- Section 3.1, Smmtt46rw. -/
def rw46 (p : Nat) : Except EntryStop LookupResult :=
  look .smmtt46rw 0x90000 [(0x90000208, 0x0000400000091000), (0x91000000, 0xF000000000231000),
    (0x90000210, 0x0000700000000000), (0x90000400, 0x0000100000000000), (0x900004F8, 0x0000100000000000)] p

theorem test_rw46 :
    gives (rw46 0x82003000) (.perm .r) && gives (rw46 0x82003FFF) (.perm .r) && gives (rw46 0x82004000) (.perm .rw) &&
    gives (rw46 0x82005008) .violation && gives (rw46 0x82002000) (.perm .none) && gives (rw46 0x8200F000) .violation &&
    gives (rw46 0x82010000) (.perm .none) && gives (rw46 0x83FFF000) (.perm .none) &&
    gives (rw46 0x84000000) (.perm .none) && gives (rw46 0x100000000) (.perm .r) &&
    gives (rw46 0x13FFFFFFF) (.perm .r) && gives (rw46 0x140000000) (.perm .none) &&
    gives (rw46 0x400000000000) .violation = true := by decide

/-- Section 3.2, Smmtt34rw. -/
theorem test_rw34 :
    gives (look .smmtt34rw 0x80100 [(0x80100E00, 0x0000300000000000)] 0x381ABC000) (.perm .rw) &&
    gives (look .smmtt34rw 0x80100 [] 0x400000000) .violation = true := by decide

/-- Section 3.3, Smmtt56rw. -/
def rw56 (e : Word) (p : Nat) : Except EntryStop LookupResult :=
  look .smmtt56rw 0xA0000 [(0xA0000008, 0x00000000000B0000), (0xB0000200, 0x0000300000000000), (0xA0001FF8, e),
    (0xB1FFFFF8, 0x00004000000B2000), (0xB2000FF8, 0x1000000000000000)] p

theorem test_rw56 :
    gives (rw56 0x00000000000B1000 0x0000400080001000) (.perm .rw) &&
    gives (rw56 0x00000000000B1000 0x00FFFFFFFFFFF000) (.perm .r) &&
    gives (rw56 0x00001000000B1000 0x00FFFFFFFFFFF000) (.unspec .zeroNonzero) &&
    gives (rw56 0x00000000000B1000 0) (.perm .none) = true := by decide

/-- Sections 2.4, 2.5 and 3.4, Smmtt46. -/
def ob46 (p : Nat) : Except EntryStop LookupResult :=
  look .smmtt46 0x90000 [(0x90000108, 0x0000300000000006), (0x90000110, 0x0000200000092000),
    (0x92000008, 0x4000000000000E40), (0x90000080, 0x0000100000000000), (0x90000000, 0x0000500000000000),
    (0x90000008, 0x0000300180000000)] p

theorem test_ob46 :
    gives (ob46 0x84000000) (.perm .disallow) && gives (ob46 0x84200000) (.perm .allow) &&
    gives (ob46 0x845FFFFF) (.perm .allow) && gives (ob46 0x84600000) (.perm .disallow) &&
    gives (ob46 0x87E00000) (.perm .disallow) && gives (ob46 0x88020000) (.perm .disallow) &&
    gives (ob46 0x88023000) (.perm .allow) && gives (ob46 0x88023FFF) (.perm .allow) &&
    gives (ob46 0x88024000) .violation && gives (ob46 0x88025000) .violation && gives (ob46 0x8803F000) (.perm .allow) &&
    gives (ob46 0x88040000) (.perm .disallow) && gives (ob46 0x40000000) (.perm .allow) &&
    gives (ob46 0) (.unspec .zeroNonzero) && gives (ob46 0x4000000) (.unspec .infoNonzero) = true := by decide

/-- Section 3.5, Smmtt34 and Smmtt56. -/
theorem test_ob34_ob56 :
    gives (look .smmtt34 0x80100 [(0x80100498, 0x0000100000000000)] 0x24C000000) (.perm .allow) &&
    gives (look .smmtt56 0xA0000 [(0xA0001000, 0x00000000000B0000), (0xB0000008, 0x0000300000000002)]
      0x0080000004200000) (.perm .allow) = true := by decide

/-- Bytes of an entry in memory, little-endian (R26, and the example at the head of 95_test_vectors.md). -/
theorem test_entry_bytes :
    Memory.readEntry ref [(0x90000209, 0x10), (0x9000020A, 0x09), (0x9000020D, 0x40)] 0x90000208 =
      0x0000400000091000 := by decide

/-! ## Which accesses are checked (section 3.6) -/

/-- An access trapped into M-mode with this cause, or not at all. -/
def traps (o : Host.Outcome State Fault Refusal) (cause : Word) : Bool :=
  nextIs o (fun s => s.hart.priv == .m && s.hart.mcause == cause && s.hart.mepc == 0)

theorem test_s_load_fails : traps (runLoad sNone false 5 0x2000 8 true 4 sNone) 5 = true := by decide
theorem test_s_store_fails : traps (runStore sNone 0x2000 8 7 4 sNone) 7 = true := by decide
theorem test_s_fetch_fails : traps (step sNone) 1 = true := by decide
/-- `mNone` with a value of `mstatus`. -/
def mWith (v : Word) : State := setHart { mNone.hart with mstatus := v } mNone

theorem test_mprv_load_fails : traps (runLoad mNone false 5 0x2000 8 true 4 (mWith 0x20800)) 5 = true := by decide
theorem test_mprv_fetch_passes : nextIs (step ((mWith 0x20800).withFetchWord 32 0x18000073))
    (fun s => s.hart.pc == 4 && s.hart.mcause == 0) = true := by decide
/-- `MPP` = 2 names no mode: MRET completes all the same, from `mepc` and with its other effects. -/
theorem test_mret_unnamed_mpp :
    ∃ t, runMret 0x30200073 (mWith 0x1000) = .next t ∧ t.hart.pc = 0 ∧ t.hart.mstatus.getLsbD 7 = true :=
  ⟨_, rfl, rfl, by simp [mstatusAfterMret_getLsbD]⟩
/-- A write that would leave 2 in `MPP` completes, leaves a mode there and writes the other bits. -/
theorem test_csr_unnamed_mpp :
    ∃ t, runCsr .write 0 0x300 0x21008 0x30031073 4 mNone = .next t ∧ t.hart.pc = 4 ∧ mpp t.hart.mstatus ≠ none ∧
      t.hart.mstatus.getLsbD 3 = true ∧ t.hart.mstatus.getLsbD 17 = true := by
  refine ⟨_, rfl, rfl, ?_, ?_, ?_⟩
  · exact fun h => Option.some_ne_none _ ((mpp_putCode _ 0x21008).symm.trans h)
  · exact (putField_getLsbD _ _ _ _ _ (by decide)).trans (by decide)
  · exact (putField_getLsbD _ _ _ _ _ (by decide)).trans (by decide)
/-- csrrw x0, mttp, x6 (95_test_vectors.md section 4, with this model's CSR number): the step runs the operation that the
environment names, and the three fields are replaced. -/
theorem test_csrrw_mttp :
    nextIs (step ((setHart { State.reset.hart with baseOps := [.csr .write 0 0x7C0 0x2000100000090000] }
      State.reset).withFetchWord 32 0x7C031073))
      (fun s => s.hart.pc == 4 && s.hart.mttp == { mode := .smmtt46rw, sdid := 1, ppn := 0x90000 }) = true := by decide
/-- A read of `mttp` from U-mode and from S-mode is an illegal instruction and writes no register (R12). -/
theorem test_csr_read_mttp_below_m :
    nextIs (runCsr .set 5 0x7C0 0 0x7C0022F3 4 (st .u noneRw)) (fun s => s.hart.mcause == 2 && s.hart.x[5] == 0) &&
      nextIs (runCsr .set 5 0x7C0 0 0x7C0022F3 4 sNone) (fun s => s.hart.mcause == 2 && s.hart.x[5] == 0) = true := by decide
/-- Only a fence of everything ends what reset left unspecified (R22). -/
theorem test_reset_over :
    nextIs (execMfenceSpa 0 10 State.reset) (fun s => !s.hart.resetOver) &&
      nextIs (execMfenceSpa 0 0 State.reset) (fun s => s.hart.resetOver) = true := by decide
/-- The batched sequence with MINVAL.SPA of everything ends it as MFENCE.SPA of everything does, and with MINVAL.SPA of one
domain it does not (R100 with R22). -/
theorem test_reset_over_batched :
    nextIs (execAll (batched [(0, 0)]) State.reset) (fun s => s.hart.resetOver) &&
      nextIs (execAll (batched [(0, 10)]) State.reset) (fun s => !s.hart.resetOver) = true := by decide

/-- An A update of the fetch, and the load of the same instruction refused: the update is taken back (R108). -/
theorem test_fetch_update_taken_back :
    traps (runLoad sNone false 5 0x2000 8 true 4 { sNone with mem := [(0x3000, 0xC0)] }) 5 &&
      nextIs (runLoad sNone false 5 0x2000 8 true 4 { sNone with mem := [(0x3000, 0xC0)] }) (fun s => s.mem == sNone.mem) =
      true := by decide
theorem test_m_store_passes : nextIs (runStore mNone 0x2000 8 7 4 mNone)
    (fun s => s.mem == [(0x2000, 7)] && s.hart.pc == 4 && s.memPast == [[]]) = true := by decide
theorem test_bare_store_passes : nextIs (runStore sBare 0x2000 8 7 4 sBare)
    (fun s => s.mem == [(0x2000, 7)] && s.hart.pc == 4) = true := by decide

/-- A whole group of 16 MTTL2 entries 1G_allow of the 1b family, at the page 0. -/
def allowGroup : Memory := (List.range 16).map (fun i => (8 * i + 5, 0x10#8))

/-- `mttp` = (Smmtt46, SDID 1, PPN 0). -/
def allow1b : Mttp := { mode := .smmtt46, sdid := 1, ppn := 0 }

theorem test_group_uniform : checkPage { st .s allow1b with mem := allowGroup } [] 0x1234 .write = .pass := by decide
/-- One entry of the group is 2M_PAGES and the others 1G_allow (D17). -/
theorem test_group_mixed : checkPage { st .s allow1b with mem := allowGroup.write 13 0x30 } [] 0x1234 .write =
    .refuse (.unspecLookup .group1gMixed) := by decide

/-! ## Witnesses: for each obligation with hypotheses, a state and operands that meet them -/

theorem wit_DecodeInvertsEncode : ref.wf = true := by decide
theorem wit_DecodedBytesAreTheEncoding : decode ref [0x73, 0, 0, 0x18] = .ok (.sfenceWInval, []) := rfl

/-- A word with `rd` = 1, one with `funct3` = 1, one of another opcode, and one of SYSTEM with another `funct7`. -/
theorem wit_OtherEncodingsAreRefused_words :
    ref.wf = true ∧
    (let w := 0b1011110_00000_00000_000_00001_1110011#32
     w.extractLsb' 0 7 = 0b1110011#7 ∧ w.extractLsb' 25 7 = ref.funct7Mfence ∧ w.extractLsb' 7 5 ≠ 0#5) ∧
    (let w := 0b1011111_00000_00000_001_00000_1110011#32
     w.extractLsb' 0 7 = 0b1110011#7 ∧ w.extractLsb' 25 7 = ref.funct7Minval ∧ w.extractLsb' 12 3 ≠ 0#3) ∧
    (let w := 0x00000013#32
     w ≠ 0x18000073#32 ∧ w ≠ 0x18100073#32 ∧ w.extractLsb' 0 7 ≠ 0b1110011#7) ∧
    (let w := 0x00000073#32
     w ≠ 0x18000073#32 ∧ w ≠ 0x18100073#32 ∧ w.extractLsb' 25 7 ≠ ref.funct7Mfence ∧
       w.extractLsb' 25 7 ≠ ref.funct7Minval) := by decide

/-- The word 0xBC0000F3 (`rd` = 1) at the pc, and no word at all with one base operation named and with none. -/
theorem wit_OtherEncodingsAreRefused_steps :
    (∃ s' bytes, (State.reset.withFetchWord 32 0xBC0000F3).events = [] ∧
      fetch (State.reset.withFetchWord 32 0xBC0000F3) = .ok bytes s' ∧ decode s'.cfg bytes = .error .nearShape) ∧
    (∃ s' bytes, (setHart { State.reset.hart with baseOps := [.advance] } State.reset).events = [] ∧
      fetch (setHart { State.reset.hart with baseOps := [.advance] } State.reset) = .ok bytes s' ∧
      decode s'.cfg bytes = .error .length ∧ s'.hart.baseOps = [.advance]) ∧
    (∃ s' bytes, State.reset.events = [] ∧ fetch State.reset = .ok bytes s' ∧ decode s'.cfg bytes = .error .length ∧
      s'.hart.baseOps = []) :=
  ⟨⟨_, _, rfl, rfl, rfl⟩, ⟨_, _, rfl, rfl, rfl, rfl⟩, ⟨_, _, rfl, rfl, rfl, rfl⟩⟩

/-- SFENCE.W.INVAL at the pc of the reset state. -/
def fetchW : State := State.reset.withFetchWord 32 0x18000073

theorem wit_StepRunsTheDecodedInstruction :
    ∃ s' bytes, fetchW.events = [] ∧ fetch fetchW = .ok bytes s' ∧
      decode s'.cfg bytes = .ok (.sfenceWInval, []) := ⟨_, _, rfl, rfl, rfl⟩

theorem wit_MachineModeStepRunsStoredInstruction :
    fetchW.cfg.wf = true ∧ fetchW.events = [] ∧ fetchW.hart.priv = .m ∧ fetchW.hart.pc.toNat % 2 = 0 ∧
    fetchW.hart.pc.toNat + 4 ≤ 2 ^ fetchW.cfg.xlen.bits ∧ fetchW.hart.pc.toNat + 4 ≤ 2 ^ 56 ∧
    pmpAllows fetchW.hart fetchW.hart.pc.toNat 4 .fetch .m = true ∧
    isDevice fetchW.cfg fetchW.hart.pc.toNat 4 = false ∧
    fetchW.mem.readBytes fetchW.hart.pc.toNat 4 = encodeBytes fetchW.cfg .sfenceWInval := by decide

/-- The first 16 bits refused, untranslated and at the page that a translation names. -/
theorem wit_FetchViolationTraps :
    (sNone.events = [] ∧ sNone.hart.priv ≠ .m ∧ sNone.cfg.faultTarget = .machine ∧
      spans sNone.cfg sNone.hart.pc.toNat 2 = [(0, 2)] ∧
      ({ va := 0, pa := 0, size := 2, implicit := [], raises := none } : Part).Refused sNone .fetch .s) ∧
    (spans sMap.cfg (0x6000#64).toNat 2 = [(0x6000, 2)] ∧
      ({ va := 0x6000, pa := 0x2000, size := 2, implicit := [], raises := none } : Part).Refused
        (setPc 0x6000 sMap) .fetch .s) :=
  ⟨⟨rfl, by decide, rfl, rfl, ⟨rfl, .inl ⟨rfl, rfl, .inr rfl⟩⟩, rfl, .inr ⟨by decide, by decide⟩⟩, rfl,
    ⟨rfl, .inr ⟨by decide, _, 2, rfl, rfl, rfl, rfl⟩⟩, rfl, .inr ⟨by decide, by decide⟩⟩

/-- `sMap` with a first 16 bits that want more at the end of the virtual page 5, whose next page is refused. -/
def sHalf : State := setPc 0x5FFE { sMap with mem := onePageDenied.write 0x3FFE 0x73 }

theorem wit_FetchViolationTraps_second :
    sHalf.events = [] ∧ sHalf.hart.priv ≠ .m ∧ sHalf.cfg.faultTarget = .machine ∧
    (∃ qs, access sHalf sHalf .fetch sHalf.hart.pc.toNat sHalf.hart.pc.toNat 2 [] = .ok qs (nextTick sHalf) ∧
      isLong ((readParts (nextTick sHalf).mem qs).getD 0 0) = true) ∧
    spans sHalf.cfg (wrapX sHalf.cfg.xlen (sHalf.hart.pc + 2)).toNat 2 = [(0x6000, 2)] ∧
    ({ va := 0x6000, pa := 0x2000, size := 2, implicit := [], raises := none } : Part).Refused
      (nextTick sHalf) .fetch .s := by
  refine ⟨rfl, by decide, rfl, ⟨[{ va := 0x5FFE, pa := 0x3FFE, size := 2, implicit := [walk1], raises := none }],
    access_passes (eff := .s) rfl rfl ?_ (by unfold InMemory; decide), by decide⟩, by decide,
    ⟨rfl, .inr ⟨by decide, _, 2, rfl, rfl, rfl, rfl⟩⟩, rfl, .inr ⟨by decide, by decide⟩⟩
  intro q hq
  cases List.mem_singleton.mp hq
  exact ⟨⟨rfl, .inr ⟨by decide, _, 3, rfl, rfl, rfl, rfl⟩⟩, by unfold Part.Reached; decide, by decide, by decide⟩

/-- The same M-mode state with the greatest SDID of 6 bits in `x10`. -/
def mTop : State := setReg 10 63 mNone

/-- The three operand forms the source lists, at an SDID of 1 and at the greatest one, and the fourth under each policy
that gives it an effect. -/
theorem wit_MfenceCompletes :
    mTop.hart.priv = .m ∧ (readReg mTop 10).toNat = 2 ^ mTop.cfg.sdidWidth - 1 ∧
    (readReg mTop 10).toNat < 2 ^ mTop.cfg.sdidWidth ∧
    mNone.hart.priv = .m ∧ (10#5 : RegIdx) ≠ 0#5 ∧ (readReg mNone 10).toNat < 2 ^ mNone.cfg.sdidWidth ∧
    (11#5 : RegIdx) ≠ 0#5 ∧
    (∀ p, p = PaAllSdPolicy.everything ∨ p = PaAllSdPolicy.everyDomain →
      { mNone with cfg := { ref with paAllSd := p } }.cfg.paAllSd ≠ .refuse ∧
      { mNone with cfg := { ref with paAllSd := p } }.hart.priv = .m) :=
  ⟨rfl, by decide, by decide, rfl, by decide, by decide, by decide, fun p hp => by rcases hp with rfl | rfl <;> decide⟩

theorem wit_MinvalCompletes :
    mNone.hart.priv = .m ∧ mNone.cfg.hasSvinval = true ∧ (10#5 : RegIdx) ≠ 0#5 ∧
    (readReg mNone 10).toNat < 2 ^ mNone.cfg.sdidWidth ∧ (11#5 : RegIdx) ≠ 0#5 ∧
    mTop.hart.priv = .m ∧ mTop.cfg.hasSvinval = true ∧ (readReg mTop 10).toNat < 2 ^ mTop.cfg.sdidWidth ∧
    (∀ p, p = PaAllSdPolicy.everything ∨ p = PaAllSdPolicy.everyDomain →
      { mNone with cfg := { ref with paAllSd := p } }.cfg.paAllSd ≠ .refuse ∧
      { mNone with cfg := { ref with paAllSd := p } }.cfg.hasSvinval = true ∧
      { mNone with cfg := { ref with paAllSd := p } }.hart.priv = .m) :=
  ⟨rfl, rfl, by decide, by decide, by decide, rfl, rfl, by decide,
    fun p hp => by rcases hp with rfl | rfl <;> decide⟩

/-- `x11` = 0x82003010 is wider than a 6-bit SDID. -/
theorem wit_UnlistedOperandsAreRefused :
    mNone.hart.priv = .m ∧ mNone.cfg.hasSvinval = true ∧ (11#5 : RegIdx) ≠ 0#5 ∧ mNone.cfg.paAllSd = .refuse ∧
    2 ^ mNone.cfg.sdidWidth ≤ (readReg mNone 11).toNat := by decide

theorem wit_FencesTrapBelowTheirMode :
    sNone.hart.priv ≠ .m ∧ sNone.cfg.hasSvinval = true ∧ (st .u noneRw).cfg.hasSvinval = true ∧
    (st .u noneRw).hart.priv = .u := by decide

/-- SFENCE.W.INVAL and SFENCE.INVAL.IR complete in S-mode and in M-mode, with and without a mark. -/
theorem wit_SfenceCompletes :
    sNone.cfg.hasSvinval = true ∧ sNone.hart.priv ≠ .u ∧ mNone.hart.priv ≠ .u ∧ sNone.hart.wInval = none ∧
    (markWInval sNone).hart.wInval = some { mem := 0, mttp := 0 } ∧ (markWInval sNone).hart.priv ≠ .u := by decide

/-- A legal M-mode state in which SDID 1 is in force, with registers and a fence. -/
theorem mNone_inv : mNone.Inv where
  cfgWf := by decide
  memWf := rfl
  pastWf m hm := by simp [mNone, st, State.reset, State.resetWith] at hm
  hart :=
    { legal_hart_reset ref 0 (by decide) with
      regs := by
        have h : ∀ v, Fits mNone.cfg v := fun v => rfl
        exact fun r => h _
      mttp := ⟨by decide, by decide, by decide⟩
      swept := fun _ => ⟨{ sel := .all, time := { mem := 0, mttp := 0 } }, by simp [mNone, st, hartIn], rfl⟩
      fences := fun f hf => by
        have : f = { sel := .all, time := { mem := 0, mttp := 0 } } := by simpa [mNone, st, hartIn] using hf
        subst this
        exact ⟨Nat.le_refl _, Nat.le_refl _⟩ }
  others h hh := by
    have hr : h = Hart.reset ref := (List.mem_replicate.mp hh).2
    subst hr
    exact legal_hart_reset ref 0 (by decide)
  nharts := rfl

/-- A fence of the page in force, and what it matches (both clauses, and every form of selector). -/
theorem wit_MfenceSetsTheTimeOfMatchingPairs :
    mNone.Inv ∧ mNone.hart.priv = .m ∧ selector mNone 11 10 = .ok (.page 1 0x82003) ∧
    (∃ t, exec (.mfenceSpa 11 10) mNone = .next t) ∧
    (Selector.page 1 0x82003).matches 1 0x82003FFF = true ∧ (Selector.page 1 0x82003).matches 1 0x82004000 = false ∧
    selector mNone 0 10 = .ok (.domain 1) ∧ selector mNone 0 0 = .ok .all ∧ Selector.all.matches 5 7 = true :=
  ⟨mNone_inv, rfl, rfl, ⟨_, rfl⟩, by decide, by decide, rfl, rfl, rfl⟩

theorem wit_MfenceMakesMatchingChecksExact :
    mNone.Inv ∧ mNone.hart.priv = .m ∧ selector mNone 11 10 = .ok (.page 1 0x82003) ∧
    (∃ t, exec (.mfenceSpa 11 10) mNone = .next t) ∧ mNone.hart.resetOver = true ∧ Priv.s ≠ .m ∧
    ∀ a ∈ touchedPages 0x82003FF8 8, (Selector.page 1 0x82003).matches mNone.hart.mttp.sdid a = true :=
  ⟨mNone_inv, rfl, rfl, ⟨_, rfl⟩, rfl, by decide, by decide⟩

/-- The first fence after reset, of everything. -/
theorem wit_MfenceMakesMatchingChecksExact_first :
    State.reset.hart.priv = .m ∧ selector State.reset 0 0 = .ok .all ∧
    (∃ t, exec (.mfenceSpa 0 0) State.reset = .next t) ∧
    ∀ a ∈ touchedPages 0xFFC 8, Selector.all.matches State.reset.hart.mttp.sdid a = true :=
  ⟨rfl, rfl, ⟨_, rfl⟩, by decide⟩

theorem wit_DrawnValuesWereHeldSinceTheFence : sNone.hart.resetOver = true := rfl

/-- A marked state with one covered invalidation, of SDID 1. -/
def marked : State := addPending (.domain 1) (markWInval mNone)

theorem wit_InvalIrSetsTheTimeOfTheMark :
    marked.hart.wInval = some { mem := 0, mttp := 0 } ∧ (∃ t, exec .sfenceInvalIr marked = .next t) ∧
    marked.hart.priv ≠ .u ∧ (∃ sel ∈ coveredInvals marked.hart, sel.matches 1 0 = true) ∧
    (∀ sel ∈ coveredInvals marked.hart, sel.matches 2 0 = false) :=
  ⟨rfl, ⟨_, rfl⟩, by decide, ⟨.domain 1, by decide, by decide⟩, by decide⟩

theorem wit_BatchedSequenceEqualsFences :
    mNone.Inv ∧ mNone.hart.priv = .m ∧ mNone.cfg.hasSvinval = true ∧
    ∃ u, execAll (fenced [(0, 10), (0, 0), (11, 10)]) mNone = .next u := ⟨mNone_inv, rfl, rfl, ⟨_, rfl⟩⟩

theorem wit_WithoutSvinvalRefused : { mNone with cfg := { ref with hasSvinval := false } }.cfg.hasSvinval = false := by
  decide
theorem wit_FourInstructionsFrame :
    (∃ t, exec (.mfenceSpa 0 0) mNone = .next t) ∧ (∃ t, exec .sfenceWInval (st .u noneRw) = .next t) :=
  ⟨⟨_, rfl⟩, ⟨_, rfl⟩⟩

theorem wit_WriteMttpKeepsTheOldView :
    mNone.Inv ∧ mNone.hart.priv = .m ∧
    ∃ t, runWriteMttp .bare 1 0 0 4 mNone = .next t ∧ t.hart.mttp.sdid = mNone.hart.mttp.sdid :=
  ⟨mNone_inv, rfl, ⟨_, rfl, by decide⟩⟩

theorem wit_StoreKeepsTheOldEntriesVisible :
    [0x10#8] ≠ [] ∧ (∀ t, (some { mem := 0, mttp := 0 } : Option Horizon) = some t → t.mem ≤ mNone.memPast.length) :=
  ⟨by decide, fun t h => by cases h; exact Nat.le_refl _⟩

/-- A step that fetches and runs SFENCE.W.INVAL, and one in S-mode that traps. -/
theorem wit_steps :
    fetchW.events = [] ∧ (∃ t, step fetchW = .next t) ∧ sNone.events = [] ∧ (∃ t, step sNone = .next t) ∧
    sNone.hart.priv ≠ .m := by
  refine ⟨rfl, ⟨_, rfl⟩, rfl, ?_, by decide⟩
  have h : nextIs (step sNone) (fun _ => true) = true := by decide
  cases hs : step sNone with
  | next t => exact ⟨t, rfl⟩
  | fault f => rw [hs] at h; cases h
  | refused r => rw [hs] at h; cases h

theorem wit_AddressBeyondWidthViolates : 2 ^ 34 ≤ 0x400000000 := by decide
theorem wit_BarePasses : bare1.mode = .bare := rfl

/-- An rw entry read at the address `root * 4096 + 8 * index`, in each of the forms the statements tell apart. -/
theorem wit_RwEntries :
    (34 = 34 ∨ 34 = 46) ∧ 0x2000000 < 2 ^ 34 ∧ 0x2000000 < 2 ^ 46 ∧
    (∀ e, entries [(0x90000008, e)] .l2 (0x90000 * 4096 + 8 * (0x2000000 / 2 ^ 25)) = .ok e) ∧
    (∀ e ∈ [0x0#64, 0x0000100000000000#64, 0x0000300000000000#64], e.toNat / 2 ^ 48 = 0 ∧ e.toNat % 2 ^ 44 = 0) ∧
    (0x0000100000000000#64).toNat / 2 ^ 44 = 0b0001 ∧ (0x0000300000000000#64).toNat / 2 ^ 44 = 0b0011 ∧
    (0x0000100000000005#64).toNat % 2 ^ 44 ≠ 0 ∧ ref.mbzPolicy ≠ .ignore ∧
    ((0x0000200000000000#64).toNat / 2 ^ 48 = 0 ∧
      (0x0000200000000000#64).toNat / 2 ^ 44 ∉ [0b0000, 0b0001, 0b0011, 0b0100, 0b0111]) ∧
    (0x00007000C00000B4#64).toNat / 2 ^ 44 = 0b0111 ∧ (0x00007000C00000B4#64).toNat / 2 ^ 32 % 2 ^ 12 = 0 ∧
    ref.perm2m10 = .violation ∧
    ((0x0000700100000000#64).toNat / 2 ^ 44 = 0b0111 ∧ (0x0000700100000000#64).toNat / 2 ^ 32 % 2 ^ 12 ≠ 0) :=
  ⟨by decide, by decide, by decide, fun _ => by simp [entries], by simp, by decide, by decide, by decide, by decide, by decide,
    by decide, by decide, by decide, by decide⟩

/-- Reserved TYPEs of the rw family, next to the last that is not one and at the top of the range, read at the last
address of each width in a group that is not mixed. -/
theorem wit_TypeEncodings :
    (∀ e : Word, e = 0x0000200000000000 ∨ e = 0x0000800000000000 ∨ e = 0x0000FFFFFFFFFFFF →
      e.toNat / 2 ^ 48 = 0 ∧ e.toNat / 2 ^ 44 ∉ [0b0000, 0b0001, 0b0011, 0b0100, 0b0111]) ∧
    (∀ e : Word, entries [(0x90000FF8, e)] .l2 (0x90000 * 4096 + 8 * (0x3FFFFFFFF / 2 ^ 25)) = .ok e) ∧
    (∀ e : Word, entries [(0x90FFFFF8, e)] .l2 (0x90000 * 4096 + 8 * (0x3FFFFFFFFFFF / 2 ^ 25)) = .ok e) ∧
    0x3FFFFFFFF < 2 ^ 34 ∧ 0x3FFFFFFFFFFF < 2 ^ 46 ∧ (fun _ _ => false : Nat → Nat → Bool) 0x90000 511 = false := by
  refine ⟨?_, fun e => by simp [entries], fun e => by simp [entries], by decide, by decide, rfl⟩
  rintro e (rfl | rfl | rfl) <;> decide

theorem wit_RwDirectoryEntries :
    0x82003000 < 2 ^ 46 ∧
    entries [(0x90000208, 0x0000400000091000), (0x91000000, 0xF000000000231000)] .l2
      (0x90000 * 4096 + 8 * (0x82003000 / 2 ^ 25)) = .ok 0x0000400000091000 ∧
    (0x0000400000091000#64).toNat / 2 ^ 44 = 0b0100 ∧
    entries [(0x90000208, 0x0000400000091000), (0x91000000, 0xF000000000231000)] .l1
      ((0x0000400000091000#64).toNat % 2 ^ 44 * 4096 + 8 * (0x82003000 / 2 ^ 16 % 512)) = .ok 0xF000000000231000 :=
  ⟨by decide, by simp [entries], by decide, by simp [entries]⟩

/-- The same for the 1b family. -/
theorem wit_OneBitEntries :
    (∀ e, entries [(0x90000008, e)] .l2 (0x90000 * 4096 + 8 * (0x4000000 / 2 ^ 26)) = .ok e) ∧
    0x4000000 < 2 ^ 34 ∧ 0x4000000 < 2 ^ 46 ∧
    (∀ e ∈ [0x0#64, 0x0000100000000000#64], e.toNat / 2 ^ 46 = 0 ∧ e.toNat % 2 ^ 44 = 0) ∧
    ((0x0000100000000005#64).toNat / 2 ^ 46 = 0 ∧ (0x0000100000000005#64).toNat % 2 ^ 44 ≠ 0 ∧
      (0x0000100000000005#64).toNat / 2 ^ 44 = 0b01) ∧
    ((0x0000300000000006#64).toNat / 2 ^ 44 = 0b11 ∧ (0x0000300000000006#64).toNat / 2 ^ 32 % 2 ^ 12 = 0) ∧
    ((0x0000300180000000#64).toNat / 2 ^ 44 = 0b11 ∧ (0x0000300180000000#64).toNat / 2 ^ 32 % 2 ^ 12 ≠ 0) :=
  ⟨fun _ => by simp [entries], by decide, by decide, by simp, by decide, by decide, by decide⟩

theorem wit_OneBitDirectoryEntries :
    0x88023000 < 2 ^ 46 ∧
    entries [(0x90000110, 0x0000200000092000), (0x92000008, 0x4000000000000E40)] .l2
      (0x90000 * 4096 + 8 * (0x88023000 / 2 ^ 26)) = .ok 0x0000200000092000 ∧
    (0x0000200000092000#64).toNat / 2 ^ 44 = 0b10 ∧
    entries [(0x90000110, 0x0000200000092000), (0x92000008, 0x4000000000000E40)] .l1
      ((0x0000200000092000#64).toNat % 2 ^ 44 * 4096 + 8 * (0x88023000 / 2 ^ 17 % 512)) = .ok 0x4000000000000E40 :=
  ⟨by decide, by simp [entries], by decide, by simp [entries]⟩

/-- An MTTL3 entry with bit 44 set, and MTTL2 entries of both families with the lowest ZERO bit set, under the two
policies. -/
theorem wit_NonzeroZeroFieldsAreUnspecified :
    ref.mbzPolicy ≠ .ignore ∧ 0x00FFFFFFFFFFF000 < 2 ^ 56 ∧
    entries [(0xA0001FF8, 0x00001000000B1000)] .l3 (0xA0000 * 4096 + 8 * (0x00FFFFFFFFFFF000 / 2 ^ 46)) =
      .ok 0x00001000000B1000 ∧ (0x00001000000B1000#64).toNat / 2 ^ 44 ≠ 0 ∧
    0 < 2 ^ 46 ∧ entries [(0x90000000, 0x0001000000000000)] .l2 (0x90000 * 4096 + 8 * (0 / 2 ^ spanBit .rw)) =
      .ok 0x0001000000000000 ∧ (0x0001000000000000#64).toNat / (if Family.rw = .rw then 2 ^ 48 else 2 ^ 46) ≠ 0 ∧
    (0x0000500000000000#64).toNat / (if Family.oneBit = .rw then 2 ^ 48 else 2 ^ 46) ≠ 0 ∧
    0x3FFFFFFFF < 2 ^ 34 ∧ entries [(0x900007F8, 0x0000500000000000)] .l2
      (0x90000 * 4096 + 8 * (0x3FFFFFFFF / 2 ^ spanBit .oneBit)) = .ok 0x0000500000000000 ∧
    ref.mbzPolicy = .refuse ∧ { ref with mbzPolicy := .violation }.mbzPolicy = .violation ∧
    { ref with mbzPolicy := .violation }.mbzPolicy ≠ .ignore :=
  ⟨by decide, by decide, by simp [entries], by decide, by decide, by simp [entries, spanBit], by decide, by decide,
    by decide, by simp [entries, spanBit], rfl, rfl, by decide⟩

theorem wit_ThreeLevelWalk :
    0x0000400080001000 < 2 ^ 56 ∧
    entries [(0xA0000008, 0x00000000000B0000)] .l3 (0xA0000 * 4096 + 8 * (0x0000400080001000 / 2 ^ 46)) =
      .ok 0x00000000000B0000 ∧ (0x00000000000B0000#64).toNat / 2 ^ 44 = 0 :=
  ⟨by decide, by simp [entries], by decide⟩

theorem wit_MixedGroupsAreRefused :
    allow1b.mode ≠ .bare ∧ allow1b.mode.paw ≠ 56 ∧ 0x1234 < 2 ^ allow1b.mode.paw ∧
    presentReader { st .s allow1b with mem := allowGroup.write 13 0x30 } .l2
      (allow1b.ppn.toNat * 4096 + 8 * (0x1234 / 2 ^ spanBit allow1b.mode.family)) = .ok 0x0000100000000000 ∧
    groupMixed ref allow1b.mode.family (allowGroup.write 13 0x30) allow1b.ppn.toNat
      (0x1234 / 2 ^ spanBit allow1b.mode.family) = true := ⟨by decide, by decide, by decide, by decide, by decide⟩

/-- A mixed group; and a 34-bit table of 256 entries, all 0, that meets `MTT_WF_1G`. -/
theorem wit_MixedGroupMeansTwoTypes :
    groupMixed ref .oneBit (allowGroup.write 13 0x30) 0 0 = true ∧
    mttWf1g ref .oneBit [] 0 (l2Entries .oneBit 34) = true := by decide

theorem wit_RwPermissionsAgainstAccess : ref.fetchPerm = .read := rfl
theorem wit_OneBitFamilyIgnoresAccessType : allow1b.mode.family = .oneBit := rfl

/-- M-mode with `MPRV` and `MPP` = S; M-mode without `MPRV`; S-mode. -/
theorem wit_EffectiveModeAndExemption :
    AccessKind.load ≠ .fetch ∧ (setHart { mNone.hart with mstatus := 0x20800 } mNone).hart.priv = .m ∧
    mprv (setHart { mNone.hart with mstatus := 0x20800 } mNone).hart.mstatus = true ∧
    mprv mNone.hart.mstatus = false ∧ sNone.hart.priv ≠ .m := by decide

theorem wit_BothPagesAreChecked : Priv.s ≠ .m ∧ 0xFFC % 4096 + 8 > 4096 := by decide

/-- The bound of the address space, an entry the PMP refuses, and an entry in a device. -/
theorem wit_EntryReadsAreGuarded :
    2 ^ 56 ≤ 2 ^ 56 ∧ 0x1000 < 2 ^ 56 ∧
    pmpAllows { sNone.hart with pmp := [{ range := { base := 0x1007, size := 1 }, type := .read, mode := .m }] } 0x1000 8
      .read .m = false ∧
    pmpAllows sNone.hart 0x1000 8 .read .m = true ∧
    isDevice { ref with devices := [{ base := 0x1000, size := 1 }] } 0x1000 8 = true ∧ 0x1234 < 2 ^ 46 ∧
    0x1234 < 2 ^ 34 ∧ 0xFFFFFFFFFFFFFF < 2 ^ 56 ∧
    checkReader sNone [] none .l2 (0x100000000000 * 4096 + 8 * (0x1234 / 2 ^ spanBit .rw)) = .error .beyond ∧
    checkReader sNone [] none .l3 (0xFFFFFFFFFFF * 4096 + 8 * (0xFFFFFFFFFFFFFF / 2 ^ 46)) = .error .beyond ∧
    (let rd : EntryReader := fun l _ => match l with | .l1 => .error .pmp | _ => .ok 0x0000400000000011
     ∀ a, rd .l2 a = .ok 0x0000400000000011 ∧ rd .l1 a = .error .pmp) ∧
    (0x0000400000000011#64).toNat / 2 ^ 44 = (if Family.rw = .rw then 0b0100 else 0b10) ∧
    (0x0000200000000011#64).toNat / 2 ^ 44 = (if Family.oneBit = .rw then 0b0100 else 0b10) := by
  refine ⟨by decide, by decide, by decide, by decide, by decide, by decide, by decide, by decide, rfl, rfl, ?_,
    by decide, by decide⟩
  exact fun a => ⟨rfl, rfl⟩

/-- A page-table read and an A or D write at an address whose permission is NONE. -/
theorem wit_ImplicitAccessesAreChecked :
    let read : Implicit := { pa := 0x2010, size := 8, write := none }
    let update : Implicit := { pa := 0x2010, size := 8, write := some 0xC0 }
    read.write = none ∧ update.write ≠ none ∧
    (∀ i ∈ [read, update], pmpAllows sNone.hart i.pa i.size (implicitType i) .s = true ∧
      firstBad ((touchedPages i.pa i.size).map
        (fun a => checkPage sNone (a :: ([] : List Implicit).length :: 7 :: []) a (implicitType i))) = .fail) := by
  decide

/-- A load the MTT refuses and one the PMP refuses, untranslated in one page; and one of two pages, both translated, whose
second piece is refused where it lies. -/
theorem wit_RefusedAccessTraps :
    (sNone.cfg.faultTarget = .machine ∧ effectivePriv sNone .load = .s ∧ Priv.s ≠ .m ∧
      spans sNone.cfg 0x2000 8 = [(0x2000, 8)] ∧
      ({ va := 0x2000, pa := 0x2000, size := 8, implicit := [], raises := none } : Part).Refused sNone .load .s) ∧
    (let s := setHart { sBare.hart with pmp := [{ range := { base := 0x2000, size := 8 }, type := .read, mode := .s }] } sBare
     ({ va := 0x2000, pa := 0x2000, size := 8, implicit := [], raises := none } : Part).Refused s .load .s) ∧
    (sMap.cfg.faultTarget = .machine ∧ effectivePriv sMap .load = .s ∧
      spans sMap.cfg 0x5FFC 8 = [loadLow].map (fun q => (q.va, q.size)) ++ [(loadHigh.va, loadHigh.size)] ∧
      loadLow.Passes sMap .load .s ∧ loadHigh.Refused sMap .load .s) :=
  ⟨⟨rfl, rfl, by decide, rfl, ⟨rfl, .inl ⟨rfl, rfl, .inr rfl⟩⟩, rfl, .inr ⟨by decide, by decide⟩⟩,
    ⟨⟨rfl, .inl ⟨rfl, rfl, .inr rfl⟩⟩, rfl, .inl (by decide)⟩,
    rfl, rfl, by decide, loadLow_passes, loadHigh_refused⟩

/-- The translation of the page 5: one page-table read, at an address whose permission is NONE. -/
def xlate5 : Translation :=
  { vpn := 5, type := .read, implicit := [{ pa := 0x2010, size := 8, write := none }], ends := .page 9 }

/-- In the one page of a load, and in the second page of one whose first passed. -/
theorem wit_ImplicitViolationTrapsAsOriginal :
    (let s := setHart { sNone.hart with xlate := [xlate5] } sNone
     s.cfg.faultTarget = .machine ∧ spans s.cfg 0x5000 8 = [(0x5000, 8)] ∧ effectivePriv s .load = .s ∧ Priv.s ≠ .m ∧
     s.hart.xlate.find? (fun x => x.vpn == 0x5000 / 4096 && x.type == AccessKind.load.type) = some xlate5 ∧
     checkImplicits s [0x5000] .s (xlate5.implicit.filter (implicitMade s.cfg)) = .accessFault) ∧
    (let s := setHart { sOne.hart with xlate := [xlate5] } sOne
     spans s.cfg 0x4FFC 8 = [(0x4FFC, 4), (0x5000, 4)] ∧
     ({ va := 0x4FFC, pa := 0x4FFC, size := 4, implicit := [], raises := none } : Part).Passes s .load .s ∧
     s.hart.xlate.find? (fun x => x.vpn == 0x5000 / 4096 && x.type == AccessKind.load.type) = some xlate5 ∧
     checkImplicits s [0x5000] .s (xlate5.implicit.filter (implicitMade s.cfg)) = .accessFault) :=
  ⟨by decide, by decide, ⟨⟨rfl, .inl ⟨rfl, rfl, .inr rfl⟩⟩, rfl, by decide, by decide⟩, by decide, by decide⟩

/-- Delegation set and not, from S-mode and from M-mode, under both targets. -/
theorem wit_AccessFaultTarget :
    sNone.cfg.faultTarget = .machine ∧ { ref with faultTarget := .medeleg }.faultTarget = .medeleg ∧
    sNone.hart.priv ≠ .m ∧ (0x20#64).getLsbD (5#64).toNat = true := by decide

/-- In S-mode with everything fenced and `Bare`, over two pages; in M-mode with tables that permit nothing; and a
translated store, from the page whose own check fails to one whose check passes, with its D update. -/
theorem wit_PassingAccessCompletes :
    (let low : Part := { va := 0x2FFC, pa := 0x2FFC, size := 4, implicit := [], raises := none }
     let high : Part := { va := 0x3000, pa := 0x3000, size := 4, implicit := [], raises := none }
     wrapX sBare.cfg.xlen 0x2FFC = 0x2FFC ∧ effectivePriv sBare .load = .s ∧ effectivePriv sBare .store = .s ∧
     spans sBare.cfg (0x2FFC#64).toNat 8 = [low, high].map (fun q => (q.va, q.size)) ∧
     (∀ q ∈ [low, high], q.Passes sBare .load .s ∧ q.Passes sBare .store .s) ∧ InMemory sBare.cfg [low, high]) ∧
    (let one : Part := { va := 0x2000, pa := 0x2000, size := 8, implicit := [], raises := none }
     effectivePriv mNone .load = .m ∧ effectivePriv mNone .store = .m ∧
     spans mNone.cfg (0x2000#64).toNat 8 = [one].map (fun q => (q.va, q.size)) ∧
     one.Passes mNone .load .m ∧ one.Passes mNone .store .m ∧ InMemory mNone.cfg [one]) ∧
    (let one : Part := { va := 0x2000, pa := 0x3000, size := 8, raises := none
                         implicit := [walk1, { pa := 0x1010, size := 8, write := some 0xC7 }] }
     effectivePriv sMap .store = .s ∧ spans sMap.cfg (0x2000#64).toNat 8 = [one].map (fun q => (q.va, q.size)) ∧
     one.Passes sMap .store .s ∧ InMemory sMap.cfg [one] ∧
     mttCheck sMap [8, 0x2000] 0x2000 8 .write .s = .fail) := by
  refine ⟨⟨rfl, rfl, rfl, by decide, ?_, by unfold InMemory; decide⟩,
    ⟨rfl, rfl, by decide, ⟨⟨rfl, .inl ⟨rfl, rfl, .inl rfl⟩⟩, rfl, by decide, by decide⟩,
      ⟨⟨rfl, .inl ⟨rfl, rfl, .inl rfl⟩⟩, rfl, by decide, by decide⟩, by unfold InMemory; decide⟩,
    rfl, by decide,
    ⟨⟨rfl, .inr ⟨by decide, _, 3, rfl, rfl, rfl, rfl⟩⟩, by unfold Part.Reached; decide, by decide, by decide⟩,
    by unfold InMemory; decide, by decide⟩
  simp only [List.forall_mem_cons]
  exact ⟨⟨⟨⟨rfl, .inl ⟨rfl, rfl, .inr rfl⟩⟩, rfl, by decide, by decide⟩,
      ⟨rfl, .inl ⟨rfl, rfl, .inr rfl⟩⟩, rfl, by decide, by decide⟩,
    ⟨⟨⟨rfl, .inl ⟨rfl, rfl, .inr rfl⟩⟩, rfl, by decide, by decide⟩,
      ⟨rfl, .inl ⟨rfl, rfl, .inr rfl⟩⟩, rfl, by decide, by decide⟩, by simp⟩

/-- A store that traps: no piece passed, so no byte may have changed. -/
theorem wit_TrappedAccess :
    effectivePriv sNone .store = .s ∧ (∃ t, access sNone sNone .store 0x2000 0x2000 8 (bytesOf 8 7) = .trap t) ∧
    (∀ p ∈ accessParts sNone.cfg sNone.hart .s AccessKind.store.type 0x2000 8,
      checkPart sNone .s AccessKind.store.type p = .ok → ¬ (p.pa ≤ 0x2000 ∧ 0x2000 < p.pa + p.size)) :=
  ⟨rfl, ⟨_, access_plain_refused sNone sNone .store 0x2000 0x2000 8 _ .s rfl rfl rfl (by decide)
    (.inr ⟨by decide, by decide⟩)⟩, by decide⟩

/-- A load that traps, and a fetch that does. -/
theorem wit_TrappedAccessIsPrecise :
    (∃ t, access sNone sNone .load 0x2000 0x2000 8 [] = .trap t) ∧ (∃ t, fetch sNone = .trap t) := by
  refine ⟨⟨_, access_plain_refused sNone sNone .load 0x2000 0x2000 8 _ .s rfl rfl rfl (by decide)
    (.inr ⟨by decide, by decide⟩)⟩, ?_⟩
  have h := access_plain_refused sNone sNone .fetch 0 0 2 [] .s rfl rfl rfl (by decide) (.inr ⟨by decide, by decide⟩)
  exact ⟨_, by unfold fetch; rw [show sNone.hart.pc.toNat = 0 from rfl]; simp only [h]; rfl⟩

theorem wit_MretUndoesTheTrap :
    mNone.hart.priv = .m ∧ mpp mNone.hart.mstatus = some .u ∧ mpp (mWith 0x1000).hart.mstatus = none := by decide

/-- `sOne` with a translation of the page 5 to the page 2 for stores. -/
def sTo : State := setHart { sOne.hart with xlate := [{ vpn := 5, type := .write, implicit := [walk1], ends := .page 2 }] } sOne

theorem sTo_exact (tick : Nat) (place : List Nat) (a : Nat) (t : AccessType) :
    checkPage { sTo with tick := tick } place a t = checkPageExact sTo a t :=
  checkPage_exact { sTo with tick := tick } place a t { mem := 0, mttp := 0 } rfl rfl (Nat.le_refl _) (Nat.le_refl _)

/-- One page denied to writes among pages that are not, and a translation to it. -/
theorem wit_DeniedPageIsNeverWritten :
    sTo.events = [] ∧ sTo.hart.priv ≠ .m ∧
    sTo.hart.xlate ≠ [] ∧ (∀ x ∈ sTo.hart.xlate, ∀ i ∈ x.implicit, i.write ≠ none → sTo.cfg.hasSvadu = false) ∧
    (∀ (tick : Nat) (place : List Nat) (p n : Nat), 0 < n → n ≤ 8 → p / 4096 = 2 → p % 4096 + n ≤ 4096 →
      mttCheck { sTo with tick := tick } place p n .write sTo.hart.priv ≠ .pass) ∧
    mttCheck sTo [] 0x1000 8 .write .s = .pass ∧ mttCheck sTo [] 0x3000 8 .write .s = .pass := by
  have hp : ∀ a, (a / 4096 = 1 ∨ a / 4096 = 3) → checkPageExact sTo a .write = .pass := by
    rintro a (h | h)
    · rw [checkPageExact_page sTo a 0x1000 .write (by omega)]; decide
    · rw [checkPageExact_page sTo a 0x3000 .write (by omega)]; decide
  refine ⟨rfl, by decide, by decide, by decide, fun tick place p n h0 h8 h2 hn h => ?_, ?_, ?_⟩
  · rw [mttCheck, if_neg (by decide), touchedPages, if_neg (by omega), List.map_singleton, sTo_exact,
      checkPageExact_page sTo p 0x2000 .write (by omega)] at h
    revert h
    decide
  · rw [mttCheck, if_neg (by decide), touchedPages, if_neg (by decide), List.map_singleton,
      show sTo = { sTo with tick := 0 } from rfl, sTo_exact, hp _ (.inl (by decide))]; rfl
  · rw [mttCheck, if_neg (by decide), touchedPages, if_neg (by decide), List.map_singleton,
      show sTo = { sTo with tick := 0 } from rfl, sTo_exact, hp _ (.inr (by decide))]; rfl

/-- A supported mode with fields that fit, one that the parameters leave out, and a state below M-mode. -/
theorem wit_WriteMttpAction :
    mNone.hart.priv = .m ∧ Mode.smmtt46 ∈ mNone.cfg.supportedModes ∧ (1#64).toNat < 2 ^ mNone.cfg.sdidWidth ∧
    (0x90000#44).toNat < 2 ^ mNone.cfg.ppnWidth ∧
    Mode.smmtt46 ∉ { mNone with cfg := { ref with supportedModes := [.bare] } }.cfg.supportedModes ∧
    sNone.hart.priv ≠ .m := by decide

/-- `csrrw` of a value whose fields are legal, and `csrrs` and `csrrc` of ones that leave them so; a MODE without a code and
one that the parameters leave out; a read; a state in U-mode. -/
theorem wit_WriteMttpAction_csr :
    mNone.hart.priv = .m ∧
    (∀ v : Word, v = 0x2000100000090000 ∨ v = 0x2000100000000000 ||| 0x90000 ∨ v = 0x20001000000F0000 &&& ~~~0x60000 →
      unpackMttp mNone.cfg (wrapX mNone.cfg.xlen v) = some { mode := .smmtt46rw, sdid := 1, ppn := 0x90000 }) ∧
    Mode.smmtt46rw ∈ mNone.cfg.supportedModes ∧ unpackMttp mNone.cfg (wrapX mNone.cfg.xlen 0xF000000000000000) = none ∧
    Mode.smmtt46rw ∉ { mNone with cfg := { ref with supportedModes := [.bare] } }.cfg.supportedModes ∧
    CsrOp.set ≠ .write ∧ (st .u noneRw).hart.priv ≠ .m := by
  refine ⟨rfl, ?_, by decide, by decide, by decide, by decide, by decide⟩
  rintro v (rfl | rfl | rfl) <;> decide

theorem wit_MttpLayoutRoundTrip :
    ref.wf = true ∧ allow1b.mode ∈ ref.supportedModes ∧ allow1b.sdid.toNat < 2 ^ ref.sdidWidth ∧
    allow1b.ppn.toNat < 2 ^ ref.ppnWidth := by decide

theorem wit_StoredEntryReadsBack : Memory.wf [] = true ∧ ref.mttEndian = .little ∧ (0x1008 < 0x1000 ∨ 0x1000 + 8 ≤ 0x1008) := by
  decide

theorem wit_ResetState : ref.wf = true := by decide

theorem wit_StepKeepsTheInvariant : mNone.Inv ∧ ∃ t, runEvent (.switchHart 0) mNone = .next t := ⟨mNone_inv, ⟨_, rfl⟩⟩

theorem wit_StepKeepsTheInvariant_step :
    { mNone with events := [.switchHart 0] }.Inv ∧ ∃ t, step { mNone with events := [.switchHart 0] } = .next t :=
  ⟨⟨mNone_inv.cfgWf, mNone_inv.memWf, mNone_inv.pastWf, mNone_inv.hart, mNone_inv.others, mNone_inv.nharts⟩, ⟨_, rfl⟩⟩

end Sys2Proof.Tests
end

section
/-! PROOFS. Which bytes a step below M-mode can write: where the pieces of an access lie, what a passing and a failing
access leave of memory where no translation updates A or D bits, and from these the two statements of the family
00_scope.md. -/

namespace Sys2Proof.Machine

/-! ## Where the pieces of an access lie -/

/-- Cutting an address to `XLEN` bits keeps its place in the page. -/
theorem wrapX_ofNat_mod_page (x : Xlen) (v : Nat) : (wrapX x (BitVec.ofNat 64 v)).toNat % 4096 = v % 4096 := by
  cases x with
  | rv32 =>
    have hmask : v % 2 ^ 64 &&& 0xFFFFFFFF = v % 2 ^ 64 % 2 ^ 32 := Nat.and_two_pow_sub_one_eq_mod _ 32
    simp only [wrapX, BitVec.toNat_and, BitVec.toNat_ofNat, Nat.reducePow, Nat.reduceMod] at hmask ⊢
    omega
  | rv64 =>
    simp only [wrapX, BitVec.toNat_ofNat]
    omega

/-- A span of an access stays inside one 4 KiB page (R70). -/
theorem spans_within_page {c : Config} {va n : Nat} {x : Nat × Nat} (hn : n ≤ 4096) (hx : x ∈ spans c va n) :
    x.1 % 4096 + x.2 ≤ 4096 ∧ x.2 ≤ n := by
  unfold spans at hx
  split at hx
  · rename_i hone
    obtain rfl := List.mem_singleton.mp hx
    exact ⟨hone, Nat.le_refl n⟩
  · rename_i htwo
    have hfirst := Nat.mod_lt va (show 0 < 4096 by decide)
    simp only [List.mem_cons, List.not_mem_nil, or_false] at hx
    rcases hx with rfl | rfl
    · exact ⟨by simp only; omega, by simp only; omega⟩
    · simp only [wrapX_ofNat_mod_page]
      omega

/-- What translation gives a span: its size kept, its place in the page kept, and the implicit accesses of some entry of
the environment's translation or none (R65). -/
theorem translatePart_spec (h : Hart) (eff : Priv) (t : AccessType) (va n : Nat) :
    (translatePart h eff t va n).size = n ∧ (translatePart h eff t va n).pa % 4096 = va % 4096 ∧
      ∀ i ∈ (translatePart h eff t va n).implicit, ∃ x ∈ h.xlate, i ∈ x.implicit := by
  unfold translatePart
  split
  · simp
  · split
    · simp
    · rename_i x hfind
      have hx := List.mem_of_find?_eq_some hfind
      split
      · exact ⟨rfl, by simp only; omega, fun i hi => ⟨x, hx, hi⟩⟩
      · exact ⟨rfl, rfl, fun i hi => ⟨x, hx, hi⟩⟩

/-- A piece of an access is the translation of one of its spans. -/
theorem mem_accessParts {c : Config} {h : Hart} {eff : Priv} {t : AccessType} {va n : Nat} {p : Part}
    (hp : p ∈ accessParts c h eff t va n) : ∃ x ∈ spans c va n, p = translatePart h eff t x.1 x.2 := by
  rw [accessParts_spans] at hp
  obtain ⟨x, hx, rfl⟩ := List.mem_map.mp hp
  exact ⟨x, hx, rfl⟩

/-- A piece of an access stays inside one physical page (R62, R70). -/
theorem accessParts_within_page {c : Config} {h : Hart} {eff : Priv} {t : AccessType} {va n : Nat} {p : Part}
    (hn : n ≤ 4096) (hp : p ∈ accessParts c h eff t va n) : p.pa % 4096 + p.size ≤ 4096 ∧ p.size ≤ n := by
  obtain ⟨x, hx, rfl⟩ := mem_accessParts hp
  obtain ⟨hsize, hpa, -⟩ := translatePart_spec h eff t x.1 x.2
  rw [hsize, hpa]
  exact spans_within_page hn hx

/-! ## Translations that update no A or D bit -/

/-- No translation of the hart makes an A or D update (R65, D35). -/
def NoUpdates (c : Config) (h : Hart) : Prop :=
  ∀ x ∈ h.xlate, ∀ i ∈ x.implicit, i.write ≠ none → c.hasSvadu = false

/-- Without A and D updates an access makes no implicit write. -/
theorem implicitWrites_accessParts {c : Config} {h : Hart} (hu : NoUpdates c h) (eff : Priv) (t : AccessType)
    (va n : Nat) : implicitWrites c (accessParts c h eff t va n) = [] := by
  unfold implicitWrites
  rw [List.filterMap_eq_nil_iff]
  intro i hi
  obtain ⟨p, hp, hi⟩ := List.mem_flatMap.mp hi
  obtain ⟨hi, hmade⟩ := List.mem_filter.mp hi
  obtain ⟨y, -, rfl⟩ := mem_accessParts hp
  obtain ⟨-, -, hentry⟩ := translatePart_spec h eff t y.1 y.2
  obtain ⟨x, hx, hix⟩ := hentry i hi
  cases hw : i.write with
  | none => rfl
  | some v =>
    have hoff := hu x hx i hix (by simp [hw])
    simp [implicitMade, hw, hoff] at hmade

theorem tickFor_ticks (k : AccessKind) (eff : Priv) (s : State) : ∃ m, tickFor k eff s = { s with tick := m } := by
  unfold tickFor
  split
  · exact ⟨s.tick, rfl⟩
  · exact ⟨s.tick + 1, rfl⟩

/-- Without A and D updates a passing access changes nothing but the counter of free values. -/
theorem access_ok_ticks {start s t : State} {k : AccessKind} {ea va n : Nat} {data : List Byte} {ps : List Part}
    (hu : NoUpdates s.cfg s.hart) (h : access start s k ea va n data = .ok ps t) :
    ∃ m, t = { s with tick := m } := by
  obtain ⟨rfl, -, rfl⟩ := access_ok h
  rw [implicitWrites_accessParts hu]
  exact tickFor_ticks k _ s

/-- Without A and D updates a fetch that answers changes nothing but the counter of free values. -/
theorem fetch_ok_ticks {s t : State} {bytes : List Byte} (hu : NoUpdates s.cfg s.hart) (h : fetch s = .ok bytes t) :
    ∃ m, t = { s with tick := m } := by
  unfold fetch at h
  simp only at h
  split at h
  · cases h
  · cases h
  · cases h
  · rename_i hlow
    obtain ⟨m, rfl⟩ := access_ok_ticks hu hlow
    split at h
    · split at h
      · cases h
      · cases h
      · cases h
      · rename_i hhigh
        cases h
        obtain ⟨m', rfl⟩ := access_ok_ticks (s := { s with tick := m }) hu hhigh
        exact ⟨m', rfl⟩
    · cases h
      exact ⟨m, rfl⟩

/-- A fetch that traps leaves memory as the step found it (R108). -/
theorem fetch_trap_mem {s t : State} (h : fetch s = .trap t) : t.mem = s.mem := by
  obtain ⟨u, ea, va, n, -, ha⟩ := fetch_trap h
  exact access_trap_mem ha

/-! ## The bytes an access may write -/

/-- The address lies in the piece. -/
def Part.Covers (p : Part) (a : Nat) : Prop := p.pa ≤ a ∧ a < p.pa + p.size

/-- A store into pieces leaves alone every byte outside them. -/
theorem read_writeParts_outside {data : List Byte} {ps : List Part} {s : State} {a : Nat}
    (h : ∀ p ∈ ps, ¬ p.Covers a) : (writeParts data ps s).mem.read a = s.mem.read a := by
  refine read_storeAll_other _ s a fun x hx hin => ?_
  obtain ⟨p, hp, hpa, hlen⟩ := mem_dataParts data ps x hx
  exact h p hp ⟨by omega, by omega⟩

/-- A failed access leaves alone every byte outside the pieces that passed (R70, D19). -/
theorem read_failedAccess {start s : State} {data : List Byte} {ps : List Part} {f : Part → PartOut} {a : Nat}
    (h : ∀ p ∈ ps, f p = .ok → ¬ p.Covers a) :
    (failedAccess start s data ps (ps.map f)).mem.read a = start.mem.read a := by
  refine read_storeAll_other _ (takeBack start s) a fun x hx hin => ?_
  obtain ⟨hlen, p, hp, hok, hlow, hhigh⟩ := mem_partialWrites s f data ps x hx
  exact h p hp hok ⟨by omega, by omega⟩

/-- An access that traps leaves alone every byte outside the pieces that passed (R70, R108, D19). -/
theorem read_access_trap {start s t : State} {k : AccessKind} {ea va n : Nat} {data : List Byte} {a : Nat}
    (h : access start s k ea va n data = .trap t)
    (ha : ∀ p ∈ accessParts s.cfg s.hart (effectivePriv s k) k.type va n,
      checkPart s (effectivePriv s k) k.type p = .ok → ¬ p.Covers a) :
    t.mem.read a = start.mem.read a := by
  obtain ⟨p, -, -, rfl⟩ | ⟨p, -, cause, -, rfl⟩ := access_trap h
  · simpa using read_failedAccess ha
  · simpa using read_failedAccess ha

/-- No piece of a write of at most 8 bytes by the hart passes its checks and covers the address. -/
def WriteDenied (s : State) (a : Nat) : Prop :=
  ∀ va n, n ≤ 8 → ∀ p ∈ accessParts s.cfg s.hart s.hart.priv .write va n,
    checkPart s s.hart.priv .write p = .ok → ¬ p.Covers a

/-- An access and what follows it keep the byte, where what follows a passing one does: with nothing to store an access
that traps changes no memory, and a write that traps has stored into pieces that passed only. -/
theorem read_afterAccess {start s t : State} {k : AccessKind} {ea va n : Nat} {data : List Byte} {a : Nat}
    {f : List Part → State → Host.Outcome State Fault Refusal} (hp : s.hart.priv ≠ .m)
    (hu : NoUpdates s.cfg s.hart) (hm : s.mem = start.mem) (hd : WriteDenied s a)
    (hk : data = [] ∨ (k.type = .write ∧ n ≤ 8))
    (h : afterAccess (access start s k ea va n data) f = .next t)
    (hf : ∀ ps u, u.mem = s.mem → (k.type = .write → n ≤ 8 → ∀ p ∈ ps, ¬ p.Covers a) → f ps u = .next t →
      t.mem.read a = s.mem.read a) :
    t.mem.read a = s.mem.read a := by
  have he : effectivePriv s k = s.hart.priv := effectivePriv_lower hp
  cases ho : access start s k ea va n data with
  | ok ps u =>
    rw [ho] at h
    obtain ⟨m, rfl⟩ := access_ok_ticks hu ho
    obtain ⟨hps, hok, -⟩ := access_ok ho
    rw [he] at hps hok
    refine hf ps { s with tick := m } rfl (fun hw hn p hpart => ?_) h
    have hpassed := hok p hpart
    rw [hps] at hpart
    rw [hw] at hpart hpassed
    exact hd va n hn p hpart hpassed
  | trap u =>
    rw [ho] at h
    cases h
    rw [hm]
    rcases hk with rfl | ⟨hw, hn⟩
    · rw [access_trap_mem ho]
    · refine read_access_trap ho ?_
      rw [he, hw]
      exact hd va n hn
  | fault r => rw [ho] at h; cases h
  | refuse r => rw [ho] at h; cases h

/-! ## What changes no memory -/

/-- The four instructions change no memory. -/
theorem exec_mem {s t : State} {i : Instr} (h : exec i s = .next t) : t.mem = s.mem := by
  obtain ⟨_, _, _, -, -, -, rfl⟩ | ⟨_, _, _, -, -, -, rfl⟩ | ⟨-, -, rfl⟩ | ⟨-, -, rfl⟩ | ⟨-, rfl⟩ := exec_next h <;> simp

/-- A write of a CSR changes no memory. -/
theorem csrWrite_mem {s t : State} {r : Csr} {v : Word} (h : csrWrite r v s = .next t) : t.mem = s.mem := by
  unfold csrWrite at h
  split at h
  · split at h
    · cases h
    · obtain ⟨-, rfl⟩ := writeMttp_next h
      rfl
  · cases h; exact putMstatus_mem v s
  all_goals cases h; rfl

theorem runCsr_mem {s t : State} {op : CsrOp} {rd : RegIdx} {num : BitVec 12} {v bits len : Word}
    (h : runCsr op rd num v bits len s = .next t) : t.mem = s.mem := by
  unfold runCsr at h
  split at h
  · cases h
  · split at h
    · cases h; rfl
    · simp only at h
      split at h
      · cases h; simp
      · obtain ⟨u, hw, hdone⟩ := andThen_next h
        cases hdone
        simpa using csrWrite_mem hw

theorem runWriteMttp_mem {s t : State} {mode : Mode} {sdid : Word} {ppn : Ppn} {bits len : Word}
    (h : runWriteMttp mode sdid ppn bits len s = .next t) : t.mem = s.mem := by
  unfold runWriteMttp at h
  split at h
  · cases h; rfl
  · obtain ⟨u, hw, hdone⟩ := andThen_next h
    cases hdone
    obtain ⟨-, rfl⟩ := writeMttp_next hw
    rfl

theorem runMret_mem {s t : State} {bits : Word} (h : runMret bits s = .next t) : t.mem = s.mem := by
  unfold runMret at h
  split at h <;> cases h <;> simp

theorem runSret_mem {s t : State} {bits : Word} (h : runSret bits s = .next t) : t.mem = s.mem := by
  unfold runSret at h
  split at h <;> cases h <;> simp

/-! ## A step below M-mode -/

theorem Width.bytes_le_eight (w : Width) : w.bytes ≤ 8 := by cases w <;> decide

/-- A base instruction below M-mode keeps every byte that no passing write covers. -/
theorem read_runBase {start s t : State} {op : BaseOp} {bits len : Word} {a : Nat} (hp : s.hart.priv ≠ .m)
    (hu : NoUpdates s.cfg s.hart) (hm : s.mem = start.mem) (hd : WriteDenied s a)
    (h : runBase start op bits len s = .next t) : t.mem.read a = s.mem.read a := by
  cases op with
  | advance => cases h; rfl
  | setReg rd v => cases h; simp
  | jump target => cases h; rfl
  | fence f => cases h; rfl
  | load reserved rd va size signed =>
    refine read_afterAccess hp hu hm hd (.inl rfl) h fun ps u hmem _ hnext => ?_
    cases hnext
    simp [hmem]
  | store va size v =>
    refine read_afterAccess hp hu hm hd (.inr ⟨rfl, size.bytes_le_eight⟩) h fun ps u hmem hout hnext => ?_
    cases hnext
    simp [read_writeParts_outside (hout rfl size.bytes_le_eight), hmem]
  | storeConditional rd va size v holds =>
    refine read_afterAccess hp hu hm hd (.inr ⟨rfl, size.bytes_le_eight⟩) h fun ps u hmem hout hnext => ?_
    split at hnext
    · cases hnext
      simp [read_writeParts_outside (hout rfl size.bytes_le_eight), hmem]
    · cases hnext
      simp [hmem]
  | amo rd va size new =>
    refine read_afterAccess hp hu hm hd (.inr ⟨rfl, size.bytes_le_eight⟩) h fun ps u hmem hout hnext => ?_
    cases hnext
    simp [read_writeParts_outside (hout rfl size.bytes_le_eight), hmem]
  | csr op rd num v => rw [runCsr_mem h]
  | writeMttp mode sdid ppn => rw [runWriteMttp_mem h]
  | mret => rw [runMret_mem h]
  | sret => rw [runSret_mem h]
  | raise cause tval => cases h; rfl

/-- A step below M-mode that takes no event keeps every byte that, whatever is drawn, no passing write covers. -/
theorem read_step {s t : State} {a : Nat} (he : s.events = []) (hp : s.hart.priv ≠ .m)
    (hu : NoUpdates s.cfg s.hart) (hd : ∀ m, WriteDenied (popBaseOp { s with tick := m }) a)
    (h : step s = .next t) : t.mem.read a = s.mem.read a := by
  rcases step_next he h with hf | ⟨bytes, u, i, rest, hf, -, hx⟩ | ⟨bytes, u, e, hf, -, hx⟩
  · rw [fetch_trap_mem hf]
  · obtain ⟨m, rfl⟩ := fetch_ok_ticks hu hf
    rw [exec_mem hx]
  · obtain ⟨m, rfl⟩ := fetch_ok_ticks hu hf
    obtain ⟨-, op, ops, -, hb⟩ := runUndecoded_next hx
    exact read_runBase (s := popBaseOp { s with tick := m }) hp hu rfl (hd m) hb

/-- A piece that passes all its checks passes the MTT check of its own physical access (R71). -/
theorem checkPart_ok_mttCheck {s : State} {eff : Priv} {t : AccessType} {p : Part} (h : checkPart s eff t p = .ok) :
    mttCheck s [8, p.va] p.pa p.size t eff = .pass := by
  unfold checkPart at h
  split at h
  · split at h
    · cases h
    · unfold checkPhysical at h
      split at h
      · cases h
      · split at h
        · assumption
        · cases h
        · cases h
  · rename_i hbad
    exact absurd h hbad

/-- In a page whose check as a write passes for no span, no passing write covers a byte. -/
theorem writeDenied_of_page {s : State} {a : Nat}
    (hc : ∀ place p n, 0 < n → n ≤ 8 → p / 4096 = a / 4096 → p % 4096 + n ≤ 4096 →
      mttCheck s place p n .write s.hart.priv ≠ .pass) : WriteDenied s a := by
  intro va n hn p hp hok hcov
  obtain ⟨hpage, hsize⟩ := accessParts_within_page (by omega) hp
  obtain ⟨hlow, hhigh⟩ := hcov
  exact hc _ p.pa p.size (by omega) (by omega) (by omega) hpage (checkPart_ok_mttCheck hok)

/-- Settles O52: the fetch changes nothing but the counter, so the instruction's own access is checked as the premise
says, and each of its pieces that passes lies in another page. -/
theorem deniedPageIsNeverWritten : Obligations.DeniedPageIsNeverWritten := by
  unfold Obligations.DeniedPageIsNeverWritten
  rintro s t page he hp hu hc h a rfl
  refine read_step he hp hu (fun m => writeDenied_of_page fun place p n h0 h8 hpage hfit hpass => ?_) h
  refine hc m place p n h0 h8 hpage hfit ?_
  rw [← hpass]
  exact mttCheck_congr _ _ place p n .write s.hart.priv rfl rfl rfl rfl rfl rfl rfl rfl rfl

/-! ## The three-level walk -/

/-- What follows the MTTL2 entry sees only the bits of the address below the entry's span. -/
theorem lookupL2_mod (c : Config) (f : Family) (p n : Nat) (rd : EntryReader) (e : Word) (hn : 26 ≤ n) :
    lookupL2 c f (p % 2 ^ n) rd e = lookupL2 c f p rd e := by
  have hfield : ∀ hi lo, hi < 26 → lo ≤ hi + 1 → bitsOf (p % 2 ^ n) hi lo = bitsOf p hi lo :=
    fun hi lo hhi hlo => bitsOf_mod p hi lo n (by omega) hlo
  have hword : l1Word f (p % 2 ^ n) = l1Word f p := by
    cases f <;> exact hfield _ _ (by decide) (by decide)
  have hperm : l1Perm f (p % 2 ^ n) = l1Perm f p := by
    funext w
    cases f with
    | rw => simp only [l1Perm, hfield 15 12 (by decide) (by decide)]
    | oneBit => simp only [l1Perm, hfield 16 12 (by decide) (by decide)]
  have h2m : permOf2m c f (p % 2 ^ n) = permOf2m c f p := by
    funext info
    cases f with
    | rw => simp only [permOf2m, hfield 24 21 (by decide) (by decide)]
    | oneBit => simp only [permOf2m, hfield 25 21 (by decide) (by decide)]
  simp only [lookupL2, hword, hperm, h2m]

/-- Under the widths 56 and 46 the MTTL2 index is the same field PA[45:span] (R54). -/
theorem l2Index_56 (f : Family) (p : Nat) : l2Index f 56 p = l2Index f 46 (p % 2 ^ 46) :=
  (bitsOf_mod p 45 (spanBit f) 46 (by decide) (by rcases spanBit_cases f with h | h <;> omega)).symm

/-- An MTTL3 entry whose ZERO field is 0 is its PPN (R29, R42). -/
theorem l3Ppn_of_zero {e : Word} (h : e.toNat / 2 ^ 44 = 0) : l3Ppn e = e.toNat := by
  rw [l3Ppn, bitsOf_zero]
  exact Nat.mod_eq_of_lt ((Nat.div_eq_zero_iff_lt (by decide)).mp h)

theorem l3Zero_of_zero {e : Word} (h : e.toNat / 2 ^ 44 = 0) : l3Zero e = 0 := by
  rw [l3Zero, bitsOf, h, Nat.zero_mod]

/-- A lookup of width 56 whose MTTL3 entry is read with its ZERO field 0 goes on in the table the entry names
(R56, R57). -/
theorem lookup_three_level (c : Config) (f : Family) (root p : Nat) (rd : EntryReader) (mixed : Nat → Nat → Bool)
    (e : Word) (hp : p < 2 ^ 56) (hr : rd .l3 (root * 4096 + 8 * (p / 2 ^ 46)) = .ok e)
    (hz : e.toNat / 2 ^ 44 = 0) : lookup c f 56 root p rd mixed = lookupTable2 c f 56 e.toNat p rd mixed := by
  have hindex : l3Index p = p / 2 ^ 46 := bitsOf_top p 55 46 56 rfl hp (by decide)
  unfold lookup
  rw [if_neg (by simpa using hp), if_pos rfl, hindex, entryAddr, hr]
  simp [mbzBad, l3Zero_of_zero hz, l3Ppn_of_zero hz]

/-- Settles O36: beyond the MTTL3 entry the two lookups read the same fields of the address. -/
theorem threeLevelWalk : Obligations.ThreeLevelWalk := by
  unfold Obligations.ThreeLevelWalk
  intro c f root p rd mixed e hp hr hz
  have hlow : ¬ p % 2 ^ 46 / 2 ^ 46 ≠ 0 := by
    rw [Nat.div_eq_of_lt (Nat.mod_lt p (by decide))]
    simp
  calc lookup c f 56 root p rd mixed
      = lookupTable2 c f 56 e.toNat p rd mixed := lookup_three_level c f root p rd mixed e hp hr hz
    _ = lookupTable2 c f 46 e.toNat (p % 2 ^ 46) rd mixed := by
        simp only [lookupTable2, l2Index_56, lookupL2_mod c f p 46 rd _ (by decide)]
    _ = lookup c f 46 e.toNat (p % 2 ^ 46) rd mixed := by
        rw [lookup, if_neg hlow, if_neg (by decide)]

end Sys2Proof.Machine
end

section
/-! PROOFS. The state of the machine (10_state.md): the invariant through accesses, base instructions, events and the
step; what a step leaves of the other harts, the parameters and `mttp`; the layout of `mttp`; reset. -/

namespace Sys2Proof.Machine

/-! ## The invariant through accesses -/

theorem Grows.began {s t : State} (g : Grows s t) : Began s t := ⟨g.cfg, g.others, s.hart.baseOps, g.hart⟩

/-- Taking the operation off the environment's list is within what an instruction changes while it runs. -/
theorem Began.popBaseOp {start s : State} (b : Began start s) : Began start (Machine.popBaseOp s) := by
  obtain ⟨ops, hops⟩ := b.hart
  exact ⟨b.cfg, b.others, ops.tail, by rw [popBaseOp_hart, hops]⟩

/-- An access that traps keeps the invariant: the trap is taken in the memory the instruction began with, changed at most
by the stores that R70 leaves open. -/
theorem State.Inv.access_trap {start s t : State} {k : AccessKind} {ea va n : Nat} {data : List Byte}
    (i : start.Inv) (b : Began start s) (h : access start s k ea va n data = .trap t) : t.Inv := by
  have hfailed : ∀ ps outs, (failedAccess start s data ps outs).Inv :=
    fun ps outs => (i.takeBack b).grows (grows_failedAccess start s data ps outs)
  obtain ⟨p, -, -, rfl⟩ | ⟨p, -, cause, -, rfl⟩ := Machine.access_trap h
  · exact ((hfailed _ _).trapAccessFault _ _).nextTick
  · exact ((hfailed _ _).trapM _ _).nextTick

/-- An access and what follows it keep the invariant, where what follows a passing one does. -/
theorem State.Inv.afterAccess {start s t : State} {k : AccessKind} {ea va n : Nat} {data : List Byte}
    {f : List Part → State → Host.Outcome State Fault Refusal} (i₀ : start.Inv) (b : Began start s) (i : s.Inv)
    (h : Machine.afterAccess (access start s k ea va n data) f = .next t)
    (hf : ∀ ps u, u.Inv → f ps u = .next t → t.Inv) : t.Inv := by
  cases ho : access start s k ea va n data with
  | ok ps u => rw [ho] at h; exact hf ps u (i.grows (access_ok_grows ho)) h
  | trap u => rw [ho] at h; cases h; exact i₀.access_trap b ho
  | fault r => rw [ho] at h; cases h
  | refuse r => rw [ho] at h; cases h

theorem State.Inv.writeParts {s : State} (i : s.Inv) (data : List Byte) (ps : List Part) :
    (Machine.writeParts data ps s).Inv := i.grows (grows_storeAll _ s)

theorem State.Inv.fetch_trap {s t : State} (i : s.Inv) (h : fetch s = .trap t) : t.Inv := by
  obtain ⟨u, ea, va, n, g, ha⟩ := Machine.fetch_trap h
  exact i.access_trap g.began ha

/-! ## The invariant through the writes of CSRs -/

/-- The fields of a write of `mttp`, cut to their widths, are legal (R8 to R10). -/
theorem legal_cut_mttp (c : Config) (mode : Mode) (sdid ppn : Nat) (hm : mode ∈ c.supportedModes) :
    Mttp.Legal c { mode := mode, sdid := BitVec.ofNat 64 (sdid % 2 ^ c.sdidWidth)
                   ppn := BitVec.ofNat 44 (ppn % 2 ^ c.ppnWidth) } := by
  have hcut : ∀ k v w, (BitVec.ofNat k (v % 2 ^ w)).toNat < 2 ^ w := fun k v w => by
    rw [BitVec.toNat_ofNat]
    exact Nat.lt_of_le_of_lt (Nat.mod_le _ _) (Nat.mod_lt _ (Nat.two_pow_pos w))
  exact ⟨hm, hcut _ _ _, hcut _ _ _⟩

theorem State.Inv.writeMttp {s t : State} {mode : Mode} {sdid : Word} {ppn : Ppn} (i : s.Inv)
    (h : Machine.writeMttp mode sdid ppn s = .next t) : t.Inv := by
  obtain ⟨hm, rfl⟩ := writeMttp_next h
  exact i.putMttp (legal_cut_mttp _ _ _ _ hm)

/-- A write of a CSR keeps the invariant where the value fits the register. -/
theorem State.Inv.csrWrite {s t : State} {r : Csr} {v : Word} (i : s.Inv) (hv : Fits s.cfg v)
    (h : Machine.csrWrite r v s = .next t) : t.Inv := by
  cases r with
  | mttp =>
    simp only [Machine.csrWrite] at h
    split at h
    · cases h
    · exact i.writeMttp h
  | mstatus => cases h; exact i.putMstatus v
  | mepc => cases h; exact i.setHart { i.hart with mepc := hv }
  | mcause => cases h; exact i.setHart { i.hart with mcause := hv }
  | mtval => cases h; exact i.setHart { i.hart with mtval := hv }
  | mtvec => cases h; exact i.setHart { i.hart with mtvec := hv }
  | medeleg => cases h; exact i.setHart { i.hart with medeleg := hv }
  | sepc => cases h; exact i.setHart { i.hart with sepc := hv }
  | scause => cases h; exact i.setHart { i.hart with scause := hv }
  | stval => cases h; exact i.setHart { i.hart with stval := hv }
  | stvec => cases h; exact i.setHart { i.hart with stvec := hv }

theorem State.Inv.runCsr {s t : State} {op : CsrOp} {rd : RegIdx} {num : BitVec 12} {v bits len : Word} (i : s.Inv)
    (h : Machine.runCsr op rd num v bits len s = .next t) : t.Inv := by
  unfold Machine.runCsr at h
  split at h
  · cases h
  · split at h
    · cases h; exact i.raiseIllegal bits
    · simp only at h
      split at h
      · cases h; exact (i.setReg _ _).advancePc len
      · obtain ⟨u, hw, hdone⟩ := andThen_next h
        cases hdone
        exact ((i.csrWrite (fits_wrapX _ _) hw).setReg _ _).advancePc len

theorem State.Inv.runWriteMttp {s t : State} {mode : Mode} {sdid : Word} {ppn : Ppn} {bits len : Word} (i : s.Inv)
    (h : Machine.runWriteMttp mode sdid ppn bits len s = .next t) : t.Inv := by
  unfold Machine.runWriteMttp at h
  split at h
  · cases h; exact i.raiseIllegal bits
  · obtain ⟨u, hw, hdone⟩ := andThen_next h
    cases hdone
    exact (i.writeMttp hw).advancePc len

/-! ## The invariant through base instructions, the four instructions and events -/

theorem State.Inv.runMret {s t : State} {bits : Word} (i : s.Inv) (h : Machine.runMret bits s = .next t) : t.Inv := by
  unfold Machine.runMret at h
  split at h
  · cases h; exact i.raiseIllegal bits
  · cases h; exact i.tickMpp.returnM _

theorem State.Inv.runSret {s t : State} {bits : Word} (i : s.Inv) (h : Machine.runSret bits s = .next t) : t.Inv := by
  unfold Machine.runSret at h
  split at h
  · cases h; exact i.raiseIllegal bits
  · cases h; exact i.returnS

/-- A base instruction keeps the invariant, that of the state it began in being the one a failed access goes back to. -/
theorem State.Inv.runBase {start s t : State} {op : BaseOp} {bits len : Word} (i₀ : start.Inv) (b : Began start s)
    (i : s.Inv) (h : Machine.runBase start op bits len s = .next t) : t.Inv := by
  cases op with
  | advance => cases h; exact i.advancePc len
  | setReg rd v => cases h; exact (i.setReg rd v).advancePc len
  | jump target => cases h; exact i.setPc target
  | fence f => cases h; exact i.advancePc len
  | load reserved rd va size signed =>
    refine i₀.afterAccess b i h fun ps u iu hu => ?_
    cases hu
    exact (iu.setReg _ _).advancePc len
  | store va size v =>
    refine i₀.afterAccess b i h fun ps u iu hu => ?_
    cases hu
    exact (iu.writeParts _ _).advancePc len
  | storeConditional rd va size v holds =>
    refine i₀.afterAccess b i h fun ps u iu hu => ?_
    split at hu
    · cases hu
      exact ((iu.writeParts _ _).setReg _ _).advancePc len
    · cases hu
      exact (iu.setReg _ _).advancePc len
  | amo rd va size new =>
    refine i₀.afterAccess b i h fun ps u iu hu => ?_
    cases hu
    exact ((iu.writeParts _ _).setReg _ _).advancePc len
  | csr op rd num v => exact i.runCsr h
  | writeMttp mode sdid ppn => exact i.runWriteMttp h
  | mret => exact i.runMret h
  | sret => exact i.runSret h
  | raise cause tval => cases h; exact i.trapM cause tval

theorem State.Inv.exec {s t : State} {instr : Instr} (i : s.Inv) (h : Machine.exec instr s = .next t) : t.Inv := by
  obtain ⟨_, _, sel, -, -, -, rfl⟩ | ⟨_, _, sel, -, -, -, rfl⟩ | ⟨-, -, rfl⟩ | ⟨-, -, rfl⟩ | ⟨-, rfl⟩ := exec_next h
  · exact (i.recordFence sel).advancePc 4
  · exact (i.addPending sel).advancePc 4
  · exact i.markWInval.advancePc 4
  · exact i.closeInvals.advancePc 4
  · exact i.raiseIllegal _

/-- The hart that moves and the one it changes places with are both legal already. -/
theorem State.Inv.switchHart {s t : State} {k : Nat} (i : s.Inv) (h : Machine.switchHart k s = .next t) : t.Inv := by
  unfold Machine.switchHart at h
  split at h
  · cases h
  · rename_i other hk
    cases h
    refine ⟨i.cfgWf, i.memWf, i.pastWf, i.others other (List.mem_of_getElem? hk), fun g hg => ?_, ?_⟩
    · rcases List.mem_or_eq_of_mem_set hg with hg | rfl
      · exact i.others g hg
      · exact i.hart
    · simpa using i.nharts

theorem State.Inv.externalStore {s t : State} {a : Nat} {bs : List Byte} (i : s.Inv)
    (h : Machine.externalStore a bs s = .next t) : t.Inv := by
  unfold Machine.externalStore at h
  split at h
  · cases h
  · split at h
    · cases h
    · cases h; exact i.grows (grows_storeBytes bs a s)

/-- Parameters that the spec allows have a legal reset value of `mttp` (R22). -/
theorem resetLegal_of_wf {c : Config} (hc : c.wf = true) : c.resetLegal = true := by
  simp only [Config.wf, Bool.and_eq_true] at hc
  exact hc.2

theorem State.Inv.runEvent {s t : State} {e : Event} (i : s.Inv) (h : Machine.runEvent e s = .next t) : t.Inv := by
  cases e with
  | switchHart k => exact i.switchHart h
  | externalStore a bs => exact i.externalStore h
  | environment pmp xlate => cases h; exact i.setHart (i.hart.environment pmp xlate _)
  | program ops => cases h; exact i.setHart (i.hart.environment _ _ ops)
  | reset => cases h; exact i.setHart (legal_hart_reset _ _ (resetLegal_of_wf i.cfgWf))

/-! ## The invariant through a step -/

/-- Where an event waits, the step is that event. -/
theorem step_event {s : State} {e : Event} {es : List Event} (he : s.events = e :: es) :
    step s = runEvent e (popEvent s) := by
  unfold step
  rw [he]

/-- Settles O60: an event keeps the invariant; else the fetch does, and after it the instruction, which a failed access
takes back to the memory of the state the step began in. -/
theorem stepKeepsTheInvariant : Obligations.StepKeepsTheInvariant := by
  unfold Obligations.StepKeepsTheInvariant
  intro s t i h
  cases he : s.events with
  | cons e es =>
    rw [step_event he] at h
    exact i.popEvent.runEvent h
  | nil =>
    rcases step_next he h with hf | ⟨bytes, u, instr, rest, hf, -, hx⟩ | ⟨bytes, u, e, hf, -, hx⟩
    · exact i.fetch_trap hf
    · exact (i.grows (fetch_ok_grows hf)).exec hx
    · have g := fetch_ok_grows hf
      obtain ⟨-, op, ops, -, hb⟩ := runUndecoded_next hx
      exact i.runBase g.began.popBaseOp (i.grows g).popBaseOp hb

/-! ## What a step leaves of the other harts, the parameters and `mttp` -/

@[simp] theorem closeInvals_mttp (s : State) : (closeInvals s).hart.mttp = s.hart.mttp := by
  unfold closeInvals; split <;> rfl
@[simp] theorem closeInvals_mttpPast (s : State) : (closeInvals s).hart.mttpPast = s.hart.mttpPast := by
  unfold closeInvals; split <;> rfl

/-- What O25 says of a step. -/
structure Stays (s t : State) : Prop where
  others : t.others = s.others
  cfg    : t.cfg = s.cfg
  mttp   : s.hart.priv ≠ .m → t.hart.mttp = s.hart.mttp ∧ t.hart.mttpPast = s.hart.mttpPast

theorem Keeps.stays {s t : State} (k : Keeps s t) : Stays s t := ⟨k.others, k.cfg, fun _ => ⟨k.mttp, k.mttpPast⟩⟩

/-- A change of memory before it does not matter. -/
theorem Grows.trans_stays {s u t : State} (g : Grows s u) (h : Stays u t) : Stays s t :=
  ⟨h.others.trans g.others, h.cfg.trans g.cfg, by simpa only [g.hart] using h.mttp⟩

theorem exec_stays {s t : State} {i : Instr} (h : exec i s = .next t) : Stays s t := by
  obtain ⟨_, _, _, -, -, -, rfl⟩ | ⟨_, _, _, -, -, -, rfl⟩ | ⟨-, -, rfl⟩ | ⟨-, -, rfl⟩ | ⟨-, rfl⟩ := exec_next h
  · exact ⟨rfl, rfl, fun _ => ⟨rfl, rfl⟩⟩
  · exact ⟨rfl, rfl, fun _ => ⟨rfl, rfl⟩⟩
  · exact ⟨rfl, rfl, fun _ => ⟨rfl, rfl⟩⟩
  · exact ⟨by simp, by simp, fun _ => by simp⟩
  · exact (keeps_raiseIllegal _ s).stays

/-- A base instruction writes `mttp` in M-mode only (R12). -/
theorem runBase_stays {start s t : State} {op : BaseOp} {bits len : Word} (h : runBase start op bits len s = .next t) :
    Stays s t := by
  rcases runBase_next h with k | ⟨hp, m, k⟩
  · exact k.stays
  · exact ⟨k.others, k.cfg, fun hlow => absurd hp hlow⟩

/-- Settles O25, along the three things a step that takes no event can do. -/
theorem stepStaysWithItsHart : Obligations.StepStaysWithItsHart := by
  unfold Obligations.StepStaysWithItsHart
  intro s t he h
  have hstays : Stays s t := by
    rcases step_next he h with hf | ⟨bytes, u, i, rest, hf, -, hx⟩ | ⟨bytes, u, e, hf, -, hx⟩
    · exact (keeps_fetch_trap hf).stays
    · exact (fetch_ok_grows hf).trans_stays (exec_stays hx)
    · obtain ⟨-, op, ops, -, hb⟩ := runUndecoded_next hx
      have hbase := runBase_stays hb
      exact (fetch_ok_grows hf).trans_stays ⟨hbase.others, hbase.cfg, hbase.mttp⟩
  exact ⟨hstays.others, hstays.cfg, hstays.mttp⟩

/-! ## The layout of `mttp` -/

/-- Every bit of `v` outside the `w` bits from bit `l` on is 0. -/
def Within (l w : Nat) (v : Word) : Prop := ∀ i, i < l ∨ l + w ≤ i → v.getLsbD i = false

/-- A bit of a number shifted to the place of a field. -/
theorem shifted_getLsbD (a l i : Nat) :
    (BitVec.ofNat 64 (a * 2 ^ l)).getLsbD i = (decide (i < 64) && (decide (l ≤ i) && a.testBit (i - l))) := by
  rw [BitVec.getLsbD_ofNat, Nat.mul_comm, Nat.testBit_two_pow_mul]

/-- A number that fits a field, shifted to its place, stays in the field. -/
theorem within_shifted {a l w : Nat} (ha : a < 2 ^ w) : Within l w (BitVec.ofNat 64 (a * 2 ^ l)) := by
  rintro i (hlow | hhigh)
  · simp [shifted_getLsbD, Nat.not_le.mpr hlow]
  · have hbit : a.testBit (i - l) = false :=
      Nat.testBit_lt_two_pow (Nat.lt_of_lt_of_le ha (Nat.pow_le_pow_right (by decide) (by omega)))
    simp [shifted_getLsbD, hbit]

/-- Two fields that do not overlap have no bit in common. -/
theorem Within.and_eq_zero {l w m u : Nat} {x y : Word} (hx : Within l w x) (hy : Within m u y)
    (h : l + w ≤ m ∨ m + u ≤ l) : x &&& y = 0#64 := by
  apply BitVec.eq_of_getLsbD_eq
  intro i _
  rw [BitVec.getLsbD_and, BitVec.getLsbD_zero]
  by_cases hin : l ≤ i ∧ i < l + w
  · rw [hy i (by omega), Bool.and_false]
  · rw [hx i (by omega), Bool.false_and]

/-- Fields that do not overlap are added without a carry. -/
theorem add_fields_eq_or {l w m u n k : Nat} {x y z : Word} (hx : Within l w x) (hy : Within m u y) (hz : Within n k z)
    (hxy : l + w ≤ m ∨ m + u ≤ l) (hxz : l + w ≤ n ∨ n + k ≤ l) (hyz : m + u ≤ n ∨ n + k ≤ m) :
    x + y + z = x ||| y ||| z := by
  rw [BitVec.add_eq_or_of_and_eq_zero x y (hx.and_eq_zero hy hxy), BitVec.add_eq_or_of_and_eq_zero]
  rw [BitVec.and_or_distrib_right, hx.and_eq_zero hz hxz, hy.and_eq_zero hz hyz, BitVec.or_zero]

/-- A field of a word is the number that its bits spell. -/
theorem field_eq {v : Word} {a l w : Nat} (ha : a < 2 ^ w) (hv : ∀ j, j < w → v.getLsbD (l + j) = a.testBit j) :
    v.toNat / 2 ^ l % 2 ^ w = a := by
  apply Nat.eq_of_testBit_eq
  intro j
  rw [Nat.testBit_mod_two_pow, Nat.testBit_div_two_pow, Nat.add_comm, BitVec.testBit_toNat]
  by_cases hj : j < w
  · simp [hj, hv j hj]
  · rw [decide_eq_false hj, Bool.false_and,
      Nat.testBit_lt_two_pow (Nat.lt_of_lt_of_le ha (Nat.pow_le_pow_right (by decide) (by omega)))]

/-- The first of three packed fields that do not overlap reads back. -/
theorem field_of_packed {a b c l m n w u k : Nat} (ha : a < 2 ^ w) (hb : b < 2 ^ u) (hc : c < 2 ^ k) (hl : l + w ≤ 64)
    (hab : l + w ≤ m ∨ m + u ≤ l) (hac : l + w ≤ n ∨ n + k ≤ l) (hbc : m + u ≤ n ∨ n + k ≤ m) :
    (BitVec.ofNat 64 (a * 2 ^ l + b * 2 ^ m + c * 2 ^ n)).toNat / 2 ^ l % 2 ^ w = a := by
  refine field_eq ha fun j hj => ?_
  rw [BitVec.ofNat_add, BitVec.ofNat_add,
    add_fields_eq_or (within_shifted ha) (within_shifted hb) (within_shifted hc) hab hac hbc,
    BitVec.getLsbD_or, BitVec.getLsbD_or, within_shifted hb (l + j) (by omega), within_shifted hc (l + j) (by omega),
    shifted_getLsbD]
  simp [show l + j < 64 by omega]

/-! ## The codes of the modes -/

/-- The one element of a list that meets a condition is the one found. -/
theorem find?_unique {α : Type} {p : α → Bool} {l : List α} {e : α} (he : e ∈ l) (hp : p e = true)
    (hu : ∀ f ∈ l, p f = true → f = e) : l.find? p = some e := by
  cases hf : l.find? p with
  | none => exact absurd hp (List.find?_eq_none.mp hf e he)
  | some f => rw [hu f (List.mem_of_find?_eq_some hf) (List.find?_some hf)]

/-- A supported mode has one code, which fits the field and stands for that mode alone (R8). -/
theorem modeCode_spec {c : Config} {m : Mode} (he : c.modesEncoded = true) (hd : c.codesDistinct = true)
    (hm : m ∈ c.supportedModes) :
    ∃ n, modeCode c m = some n ∧ n < 2 ^ c.modeWidth ∧ modeOfCode c n = some m := by
  simp only [Config.modesEncoded, List.all_eq_true, List.any_eq_true, Bool.and_eq_true, beq_iff_eq,
    decide_eq_true_eq] at he
  obtain ⟨⟨m', n⟩, hmem, rfl, hn⟩ := he m hm
  have hpair := of_decide_eq_true hd
  have hmode : (c.modeEnc.map Prod.fst).Nodup := List.pairwise_map.mpr (hpair.imp And.left)
  have hcode : (c.modeEnc.map Prod.snd).Nodup := List.pairwise_map.mpr (hpair.imp And.right)
  refine ⟨n, ?_, hn, ?_⟩
  · rw [modeCode, find?_unique hmem (by simp) fun f hf h =>
      List.inj_on_of_nodup_map hmode hf hmem (by simpa using h)]
    rfl
  · rw [modeOfCode, find?_unique hmem (by simp) fun f hf h =>
      List.inj_on_of_nodup_map hcode hf hmem (by simpa using h)]
    rfl

theorem bits_le_64 (x : Xlen) : x.bits ≤ 64 := by cases x <;> decide

/-- What it says of a layout that its fields lie in the register and do not overlap (R7). -/
theorem layoutFits_iff (c : Config) : c.layoutFits = true ↔
    (c.modeLsb + c.modeWidth ≤ c.xlen.bits ∧ c.sdidLsb + c.sdidWidth ≤ c.xlen.bits ∧
      c.ppnLsb + c.ppnWidth ≤ c.xlen.bits) ∧
    (c.modeLsb + c.modeWidth ≤ c.sdidLsb ∨ c.sdidLsb + c.sdidWidth ≤ c.modeLsb) ∧
    (c.modeLsb + c.modeWidth ≤ c.ppnLsb ∨ c.ppnLsb + c.ppnWidth ≤ c.modeLsb) ∧
    (c.sdidLsb + c.sdidWidth ≤ c.ppnLsb ∨ c.ppnLsb + c.ppnWidth ≤ c.sdidLsb) := by
  simp [Config.layoutFits, and_assoc]

/-- The three fields of a packed value of `mttp` read back, the code of MODE for its mode (R7 to R10). -/
theorem packMttp_fields {c : Config} {m : Mttp} {n : Nat} (hlayout : c.layoutFits = true)
    (hcode : modeCode c m.mode = some n) (hn : n < 2 ^ c.modeWidth) (hsdid : m.sdid.toNat < 2 ^ c.sdidWidth)
    (hppn : m.ppn.toNat < 2 ^ c.ppnWidth) :
    (packMttp c m).toNat / 2 ^ c.modeLsb % 2 ^ c.modeWidth = n ∧
    (packMttp c m).toNat / 2 ^ c.sdidLsb % 2 ^ c.sdidWidth = m.sdid.toNat ∧
    (packMttp c m).toNat / 2 ^ c.ppnLsb % 2 ^ c.ppnWidth = m.ppn.toNat := by
  obtain ⟨⟨hfitM, hfitS, hfitP⟩, hMS, hMP, hSP⟩ := (layoutFits_iff c).mp hlayout
  have hbits := bits_le_64 c.xlen
  rw [packMttp, hcode, Option.getD_some]
  refine ⟨field_of_packed hn hsdid hppn (by omega) hMS hMP hSP, ?_, ?_⟩
  · rw [Nat.add_comm (n * _)]
    exact field_of_packed hsdid hn hppn (by omega) hMS.symm hSP hMP
  · rw [Nat.add_comm, ← Nat.add_assoc]
    exact field_of_packed hppn hn hsdid (by omega) hMP.symm hSP.symm hMS

/-- Settles O57: the fields do not overlap, so that each reads back, and the code of a supported mode stands for it. -/
theorem mttpLayoutRoundTrip : Obligations.MttpLayoutRoundTrip := by
  unfold Obligations.MttpLayoutRoundTrip
  intro c m hc hm hsdid hppn
  simp only [Config.wf, Bool.and_eq_true] at hc
  obtain ⟨⟨⟨⟨⟨⟨-, hlayout⟩, -⟩, hencoded⟩, hdistinct⟩, -⟩, -⟩ := hc
  obtain ⟨n, hcode, hn, hmode⟩ := modeCode_spec hencoded hdistinct hm
  obtain ⟨fieldM, fieldS, fieldP⟩ := packMttp_fields hlayout hcode hn hsdid hppn
  rw [unpackMttp, fieldM, fieldS, fieldP, hmode]
  simp

/-! ## Dispatch and registers -/

/-- Settles O6: with no event, a fetch that answers and bytes that decode, the step has one branch left. -/
theorem stepRunsTheDecodedInstruction : Obligations.StepRunsTheDecodedInstruction := by
  unfold Obligations.StepRunsTheDecodedInstruction
  intro s s' bytes i rest he hf hd
  simp only [step, he, hf, hd]

/-- What a register reads as after a write to a register that is not `x0` (R15). -/
theorem readReg_setReg {r q : RegIdx} (hr : r ≠ 0) (hq : q ≠ 0) (v : Word) (s : State) :
    readReg (setReg r v s) q = if q = r then wrapX s.cfg.xlen v else readReg s q := by
  rw [setReg, if_neg hr, readReg, if_neg hq, readReg, if_neg hq]
  simp only [setHart_hart, Vector.getElem_set]
  by_cases hqr : q = r
  · subst hqr
    simp
  · rw [if_neg hqr, if_neg fun h => hqr (BitVec.eq_of_toNat_eq h.symm)]

/-- Settles O53, by whether the register read and the register written are `x0`. -/
theorem registerWriteThenRead : Obligations.RegisterWriteThenRead := by
  unfold Obligations.RegisterWriteThenRead
  intro s r q v
  refine ⟨?_, setReg_zero v s⟩
  by_cases hq : q = 0
  · simp [readReg, hq]
  · rw [if_neg hq]
    by_cases hr : r = 0
    · subst hr
      rw [setReg_zero, if_neg hq]
    · exact readReg_setReg hr hq v s

/-! ## The writes of `mttp` -/

/-- A write of fields that fit, with a supported mode, replaces the three fields by just these (R12). -/
theorem writeMttp_legal {s : State} {m : Mttp} (hm : Mttp.Legal s.cfg m) :
    writeMttp m.mode m.sdid m.ppn s = .next (putMttp m s) := by
  obtain ⟨hmode, hsdid, hppn⟩ := hm
  rw [writeMttp, if_pos (List.contains_iff_mem.mpr hmode), Nat.mod_eq_of_lt hsdid, Nat.mod_eq_of_lt hppn,
    BitVec.ofNat_toNat, BitVec.ofNat_toNat, BitVec.setWidth_eq, BitVec.setWidth_eq]

/-- A write of an unsupported mode is refused (R8, D30). -/
theorem writeMttp_unsupported {s : State} {mode : Mode} (hm : mode ∉ s.cfg.supportedModes) (sdid : Word) (ppn : Ppn) :
    writeMttp mode sdid ppn s = .refused .unsupportedMode := by
  rw [writeMttp, if_neg (mt List.contains_iff_mem.mp hm)]

/-- The fields of a register value fit, so that with a supported mode they are legal. -/
theorem legal_of_unpackMttp {c : Config} {v : Word} {m : Mttp} (h : unpackMttp c v = some m)
    (hm : m.mode ∈ c.supportedModes) : Mttp.Legal c m := by
  obtain ⟨mode, -, rfl⟩ := Option.map_eq_some_iff.mp h
  exact legal_cut_mttp c mode _ _ hm

theorem csrOfNumber_mttp (c : Config) : csrOfNumber c c.mttpCsrAddr = some .mttp := if_pos rfl

/-- WriteMTTP in M-mode is the write of the three fields, and the pc advances. -/
theorem runWriteMttp_machine {s : State} (hp : s.hart.priv = .m) (mode : Mode) (sdid : Word) (ppn : Ppn)
    (bits len : Word) :
    runWriteMttp mode sdid ppn bits len s = andThen (writeMttp mode sdid ppn s) fun t => .next (advancePc len t) :=
  if_neg (not_not_intro hp)

theorem runWriteMttp_lower {s : State} (hp : s.hart.priv ≠ .m) (mode : Mode) (sdid : Word) (ppn : Ppn)
    (bits len : Word) : runWriteMttp mode sdid ppn bits len s = .next (raiseIllegal bits s) := if_pos hp

/-- A CSR instruction on `mttp` in M-mode: a read, or a write of the new value after which the old one goes to `rd`. -/
theorem runCsr_mttp_machine {s : State} (hp : s.hart.priv = .m) (op : CsrOp) (rd : RegIdx) (v bits len : Word) :
    runCsr op rd s.cfg.mttpCsrAddr v bits len s =
      if op ≠ .write ∧ v = 0 then .next (advancePc len (setReg rd (csrRead s .mttp) s))
      else andThen (csrWrite .mttp (wrapX s.cfg.xlen (csrNew op (csrRead s .mttp) v)) s)
        fun t => .next (advancePc len (setReg rd (csrRead s .mttp) t)) := by
  simp [runCsr, csrOfNumber_mttp, csrAllowed, hp]

theorem runCsr_mttp_lower {s : State} (hp : s.hart.priv ≠ .m) (op : CsrOp) (rd : RegIdx) (v bits len : Word) :
    runCsr op rd s.cfg.mttpCsrAddr v bits len s = .next (raiseIllegal bits s) := by
  simp [runCsr, csrOfNumber_mttp, csrAllowed, hp]

/-- A CSR write of `mttp` whose fields name a supported mode replaces the three fields. -/
theorem csrWrite_mttp_supported {s : State} {v : Word} {m : Mttp} (h : unpackMttp s.cfg v = some m)
    (hm : m.mode ∈ s.cfg.supportedModes) : csrWrite .mttp v s = .next (putMttp m s) := by
  simp only [csrWrite, h, writeMttp_legal (legal_of_unpackMttp h hm)]

/-- A CSR write of `mttp` whose MODE is no code, or one of an unsupported mode, is refused. -/
theorem csrWrite_mttp_unsupported {s : State} {v : Word}
    (h : ∀ m, unpackMttp s.cfg v = some m → m.mode ∉ s.cfg.supportedModes) :
    csrWrite .mttp v s = .refused .unsupportedMode := by
  cases hv : unpackMttp s.cfg v with
  | none => simp only [csrWrite, hv]
  | some m => simp only [csrWrite, hv, writeMttp_unsupported (h m hv)]

/-- Settles O56: each clause is one branch of the action or of the CSR instruction. -/
theorem writeMttpAction : Obligations.WriteMttpAction := by
  unfold Obligations.WriteMttpAction
  intro s mode sdid ppn op rd v bits len
  refine ⟨fun hp hmode hsdid hppn => ?_, fun hp hmode => ?_, fun hp o ho => ?_,
    fun hp => ⟨fun hop hv => ?_, fun hw => ?_⟩⟩
  · rw [runWriteMttp_machine hp, writeMttp_legal (m := { mode := mode, sdid := sdid, ppn := ppn }) ⟨hmode, hsdid, hppn⟩]
    rfl
  · rw [runWriteMttp_machine hp, writeMttp_unsupported hmode]
    rfl
  · rw [runWriteMttp_lower hp, runCsr_mttp_lower hp, or_self] at ho
    exact ⟨_, ho, wrapX_two _, rfl, rfl, rfl, rfl, rfl, rfl⟩
  · rw [runCsr_mttp_machine hp, if_pos ⟨hop, hv⟩]
    rfl
  · have hwrites : ¬ (op ≠ .write ∧ v = 0) := fun h => hw.elim h.1 (absurd h.2)
    rw [runCsr_mttp_machine hp, if_neg hwrites]
    refine ⟨fun m hnew hm => ?_, fun hnew => ?_⟩
    · rw [csrWrite_mttp_supported (v := wrapX s.cfg.xlen (csrNew op (csrRead s .mttp) v)) hnew hm]
      rfl
    · rw [csrWrite_mttp_unsupported (v := wrapX s.cfg.xlen (csrNew op (csrRead s .mttp) v)) hnew]
      rfl

/-! ## Reset -/

/-- Every hart of the reset state is a reset hart. -/
theorem resetWith_harts {c : Config} {h : Hart} (hh : h ∈ (State.resetWith c).hart :: (State.resetWith c).others) :
    h = Hart.reset c := by
  rcases List.mem_cons.mp hh with rfl | hh
  · rfl
  · exact List.eq_of_mem_replicate hh

/-- The reset state meets the invariant for parameter values the spec allows. -/
theorem resetWith_inv {c : Config} (hc : c.wf = true) : (State.resetWith c).Inv where
  cfgWf := hc
  memWf := rfl
  pastWf := fun m hm => absurd hm List.not_mem_nil
  hart := legal_hart_reset c 0 (resetLegal_of_wf hc)
  others := fun h hh => by
    rw [resetWith_harts (List.mem_cons_of_mem _ hh)]
    exact legal_hart_reset c 0 (resetLegal_of_wf hc)
  nharts := by
    have hsome : 0 < c.nharts := by
      simp only [Config.wf, Bool.and_eq_true] at hc
      exact of_decide_eq_true hc.1.2
    simpa [State.resetWith] using Nat.sub_add_cancel hsome

/-- Settles O59: every hart is a reset hart, and the reference parameters are ones the spec allows. -/
theorem resetState : Obligations.ResetState := by
  unfold Obligations.ResetState
  refine ⟨fun c h hh => ?_, fun c => resetWith_inv, resetWith_inv (by decide)⟩
  rw [resetWith_harts hh]
  exact ⟨rfl, show mprv 0 = false by decide, rfl, rfl⟩

end Sys2Proof.Machine
end

section
/-! PROOFS. The synchronising fences and what a check may see (20_memory.md section 6): which steps record a fence, what
an MFENCE.SPA does to the time of R73 and to the next checks, and that neither a write of `mttp` nor a store takes
anything out of the view. -/

namespace Sys2Proof.Machine

/-! ## Which steps record a fence -/

/-- No fence is recorded between the two states, and what reset left unspecified has not ended. -/
def SameFences (s t : State) : Prop := t.hart.fences = s.hart.fences ∧ t.hart.resetOver = s.hart.resetOver

theorem Keeps.sameFences {s t : State} (k : Keeps s t) : SameFences s t := ⟨k.fences, k.resetOver⟩

theorem SameFences.trans {s t u : State} (h : SameFences s t) (k : SameFences t u) : SameFences s u :=
  ⟨k.1.trans h.1, k.2.trans h.2⟩

/-- Of the four instructions only MFENCE.SPA and SFENCE.INVAL.IR record a fence (R90, R99). -/
theorem exec_sameFences {s t : State} {i : Instr} (h : exec i s = .next t) :
    SameFences s t ∨ (∃ rs1 rs2, i = .mfenceSpa rs1 rs2) ∨ i = .sfenceInvalIr := by
  obtain ⟨rs1, rs2, _, hi, -⟩ | ⟨_, _, _, -, -, -, rfl⟩ | ⟨-, -, rfl⟩ | ⟨hi, -⟩ | ⟨-, rfl⟩ := exec_next h
  · exact .inr (.inl ⟨rs1, rs2, hi⟩)
  · exact .inl ⟨rfl, rfl⟩
  · exact .inl ⟨rfl, rfl⟩
  · exact .inr (.inr hi)
  · exact .inl (keeps_raiseIllegal _ s).sameFences

/-- No base instruction records a fence, a write of `mttp` neither (R75, R77). -/
theorem runBase_sameFences {start s t : State} {op : BaseOp} {bits len : Word}
    (h : runBase start op bits len s = .next t) : SameFences s t := by
  rcases runBase_next h with k | ⟨-, m, k⟩
  · exact k.sameFences
  · exact SameFences.trans (t := putMttp m s) ⟨rfl, rfl⟩ k.sameFences

/-- Settles O24, along the three things a step that takes no event can do: its fetch traps, it runs one of the four
instructions, or it runs an operation of the environment. -/
theorem onlyTheFencesSynchronise : Obligations.OnlyTheFencesSynchronise := by
  unfold Obligations.OnlyTheFencesSynchronise
  intro s t he h
  rcases step_next he h with hf | ⟨bytes, u, i, rest, hf, hd, hx⟩ | ⟨bytes, u, e, hf, -, hx⟩
  · exact .inl (keeps_fetch_trap hf).sameFences
  · have hfetch := (fetch_ok_grows hf).keeps.sameFences
    rcases exec_sameFences hx with hsame | hfence
    · exact .inl (hfetch.trans hsame)
    · exact .inr ⟨bytes, u, i, rest, hf, hd, hfence⟩
  · have hfetch := (fetch_ok_grows hf).keeps.sameFences
    obtain ⟨-, op, ops, -, hb⟩ := runUndecoded_next hx
    exact .inl ((hfetch.trans (keeps_popBaseOp u).sameFences).trans (runBase_sameFences hb))

/-! ## MFENCE.SPA and the checks it matches -/

/-- What an MFENCE.SPA with the selector `sel` is in M-mode (R90). -/
theorem mfenceSpa_completes {s t : State} {rs1 rs2 : RegIdx} {sel : Selector} (hp : s.hart.priv = .m)
    (hs : selector s rs1 rs2 = .ok sel) (h : exec (.mfenceSpa rs1 rs2) s = .next t) :
    t = advancePc 4 (recordFence sel (now s) s) := by
  rcases execMfenceSpa_next h with ⟨hlow, -⟩ | ⟨-, sel', hs', rfl⟩
  · exact absurd hp hlow
  · rw [hs] at hs'
    cases hs'
    rfl

@[simp] theorem Selector.matches_all (sdid : Word) (a : Nat) : Selector.all.matches sdid a = true := rfl

theorem Selector.matches_domain (d sdid : Word) (a : Nat) : (Selector.domain d).matches sdid a = true ↔ sdid = d := by
  rw [Selector.matches, beq_iff_eq, eq_comm]

theorem Selector.matches_page (d sdid : Word) (n a : Nat) :
    (Selector.page d n).matches sdid a = true ↔ sdid = d ∧ a / 4096 = n := by
  rw [Selector.matches, Bool.and_eq_true, beq_iff_eq, beq_iff_eq, pageOf, eq_comm, eq_comm (a := n)]

/-- The times after an MFENCE.SPA (R73, R90). -/
theorem latestFence_recordFence {s : State} (hi : s.Inv) (sel : Selector) (sdid : Word) (a : Nat) :
    latestFence (recordFence sel (now s) s).hart.fences sdid a =
      if sel.matches sdid a then some (now s) else latestFence s.hart.fences sdid a := by
  rw [recordFence_hart]
  exact latestFence_now s hi sel sdid a

/-- Settles O12: the fence is the latest one for the pairs it matches, as no earlier one lies in the future. -/
theorem mfenceSetsTheTimeOfMatchingPairs : Obligations.MfenceSetsTheTimeOfMatchingPairs := by
  unfold Obligations.MfenceSetsTheTimeOfMatchingPairs
  intro s t rs1 rs2 sel hi hp hs h sdid a
  have htime := latestFence_recordFence hi sel sdid a
  obtain rfl := mfenceSpa_completes hp hs h
  refine ⟨fun hm => htime.trans (if_pos hm), fun hm => htime.trans (if_neg (by simp [hm])), ?_, ?_, ?_⟩
  · rintro rfl
    exact Selector.matches_all sdid a
  · rintro d rfl
    exact Selector.matches_domain d sdid a
  · rintro d p rfl
    exact Selector.matches_page d sdid (p / 4096) a

/-- Right after a fence of everything, or of some pairs once reset is over, a check of a matched pair is exact (R73). -/
theorem checkPage_recordFence {s : State} (hi : s.Inv) {sel : Selector} (hall : sel = .all ∨ s.hart.resetOver = true)
    {a : Nat} (hm : sel.matches s.hart.mttp.sdid a = true) (place : List Nat) (ty : AccessType) :
    checkPage (recordFence sel (now s) s) place a ty = checkPageExact s a ty := by
  have hover : (recordFence sel (now s) s).hart.resetOver = true := by
    rw [recordFence_hart]
    rcases hall with rfl | hall
    · exact Bool.or_true _
    · simp [hall]
  have htime := (latestFence_recordFence hi sel s.hart.mttp.sdid a).trans (if_pos hm)
  have hmttp : (recordFence sel (now s) s).hart.mttp.sdid = s.hart.mttp.sdid := by simp
  calc checkPage (recordFence sel (now s) s) place a ty
      = checkPageExact (recordFence sel (now s) s) a ty :=
        checkPage_exact _ place a ty (now s) hover (by rw [hmttp]; exact htime) (Nat.le_refl _) (Nat.le_refl _)
    _ = checkPageExact s a ty := rfl

/-- Settles O13: no earlier memory and no earlier `mttp` is visible for a pair whose time is now. -/
theorem mfenceMakesMatchingChecksExact : Obligations.MfenceMakesMatchingChecksExact := by
  unfold Obligations.MfenceMakesMatchingChecksExact
  intro s t rs1 rs2 sel hi hp hs h hall place p n type eff heff hm
  obtain rfl := mfenceSpa_completes hp hs h
  rw [mttCheck, if_neg heff]
  refine congrArg firstBad (List.map_congr_left fun a ha => ?_)
  exact checkPage_recordFence hi hall (hm a ha) (a :: place) type

/-! ## The view of a check -/

/-- What can be seen of `mttp` since a time is an earlier value held since then, under the same SDID. -/
theorem mem_visibleMttp_some {s : State} {t0 : Horizon} {sdid : Word} {m : Mttp} :
    m ∈ visibleMttp s (some t0) sdid ↔
      m ∈ s.hart.mttpPast.take (s.hart.mttpPast.length - t0.mttp) ∧ m.sdid = sdid := by
  simp [visibleMttp]

/-- Settles O21: once reset is over nothing arbitrary is drawn, and a draw picks the present value or a visible one. -/
theorem drawnValuesWereHeldSinceTheFence : Obligations.DrawnValuesWereHeldSinceTheFence := by
  unfold Obligations.DrawnValuesWereHeldSinceTheFence
  intro s place t0 a hover
  constructor
  · rw [chooseMttp, hover]
    exact (pick_mem _ _ _).imp id mem_visibleMttp_some.mp
  · rw [mttRead, hover]
    rcases pick_mem (free s (4 :: place)) (s.mem.readEntry s.cfg a)
      ((visiblePast s (some t0)).map fun m => m.readEntry s.cfg a) with hnow | hpast
    · exact ⟨s.mem, List.mem_cons_self, hnow⟩
    · obtain ⟨m, hm, hread⟩ := List.mem_map.mp hpast
      exact ⟨m, List.mem_cons_of_mem _ hm, hread.symm⟩

/-- A list with one more element in front, cut short by as many as before. -/
theorem take_cons_sub {α : Type} (x : α) (l : List α) {n : Nat} (h : n ≤ l.length) :
    (x :: l).take ((x :: l).length - n) = x :: l.take (l.length - n) := by
  rw [List.length_cons, Nat.succ_sub h, List.take_succ_cons]

/-- A write of `mttp` under an unchanged SDID leaves every value visible and adds the old one (R77). -/
theorem visibleMttp_putMttp {s : State} {t0 : Option Horizon} (m : Mttp)
    (ht : ∀ t, t0 = some t → t.mttp ≤ s.hart.mttpPast.length) :
    visibleMttp (putMttp m s) t0 s.hart.mttp.sdid = s.hart.mttp :: visibleMttp s t0 s.hart.mttp.sdid := by
  cases t0 with
  | none => simp [visibleMttp]
  | some t =>
    simp only [visibleMttp, putMttp_hart, take_cons_sub _ _ (ht t rfl), List.filter_cons, beq_self_eq_true, if_true]

/-- Settles O22: the old value joins the history, and no fence of the invariant lies in its future. -/
theorem writeMttpKeepsTheOldView : Obligations.WriteMttpKeepsTheOldView := by
  unfold Obligations.WriteMttpKeepsTheOldView
  intro s t mode sdid ppn bits len hi hp h hsdid
  rw [runWriteMttp_machine hp] at h
  obtain ⟨u, hu, hnext⟩ := andThen_next h
  cases hnext
  obtain ⟨new, rfl⟩ : ∃ new, u = putMttp new s := ⟨_, (writeMttp_next hu).2⟩
  refine ⟨rfl, fun a m hm => ?_⟩
  rw [hsdid]
  have hpast : ∀ t0, latestFence s.hart.fences s.hart.mttp.sdid a = some t0 → t0.mttp ≤ s.hart.mttpPast.length :=
    fun t0 ht => (latestFence_le _ _ _ _ _ _ hi.hart.fences ht).2
  rw [← visibleMttp_putMttp new hpast] at hm
  exact hm

/-- What a check could see of memory it can still see after memory has grown. -/
theorem Grows.visiblePast_subset {s t : State} (g : Grows s t) (t0 : Option Horizon) :
    visiblePast s t0 ⊆ visiblePast t t0 := by
  obtain ⟨l, hl, -⟩ := g.past
  cases t0 with
  | none =>
    rw [visiblePast, visiblePast, hl]
    exact List.subset_append_right l s.memPast
  | some t0 =>
    intro m hm
    simp only [visiblePast, hl, List.length_append] at hm ⊢
    rcases Nat.le_total t0.mem s.memPast.length with hle | hle
    · rw [Nat.add_sub_assoc hle, List.take_length_add_append]
      exact List.mem_append_right l hm
    · rw [Nat.sub_eq_zero_of_le hle] at hm
      exact absurd hm List.not_mem_nil

/-- A change of memory makes the old contents visible (R18, R73). -/
theorem visiblePast_setMem {s : State} {t0 : Option Horizon} (m : Memory)
    (ht : ∀ t, t0 = some t → t.mem ≤ s.memPast.length) : visiblePast (setMem m s) t0 = s.mem :: visiblePast s t0 := by
  cases t0 with
  | none => rfl
  | some t => exact take_cons_sub _ _ (ht t rfl)

/-- A store of at least one byte is a change of memory, perhaps followed by others. -/
theorem storeBytes_setMem {bs : List Byte} (a : Nat) (s : State) (h : bs ≠ []) :
    ∃ m, Grows (setMem m s) (storeBytes a bs s) := by
  unfold storeBytes
  split
  · exact ⟨_, Grows.refl _⟩
  · cases bs with
    | nil => exact absurd rfl h
    | cons b bs => exact ⟨_, grows_storePieces bs (a + 1) _⟩

/-- Settles O23: the contents before the store join the history, from which nothing is taken. -/
theorem storeKeepsTheOldEntriesVisible : Obligations.StoreKeepsTheOldEntriesVisible := by
  unfold Obligations.StoreKeepsTheOldEntriesVisible
  intro s t0 a bs hbs ht
  refine ⟨fun m hm => ?_, storeBytes_mem bs a s⟩
  obtain ⟨first, g⟩ := storeBytes_setMem a s hbs
  rw [← visiblePast_setMem first ht] at hm
  exact g.visiblePast_subset t0 hm

end Sys2Proof.Machine
end

section
/-! PROOFS. The step in M-mode: what is encoded decodes, a fetch in M-mode reads the bytes at the pc and changes nothing,
and so the step is the meaning of the instruction stored there. -/

namespace Sys2Proof

/-- What the values of the two open funct7 parameters are not (30_encoding.md section 5). -/
theorem Config.wf_funct7 {c : Config} (hc : c.wf = true) :
    c.funct7Mfence ≠ 0b0001100#7 ∧ c.funct7Minval ≠ 0b0001100#7 ∧ c.funct7Minval ≠ c.funct7Mfence := by
  simp only [Config.wf, Bool.and_eq_true] at hc
  obtain ⟨⟨⟨⟨⟨⟨⟨⟨-, hdistinct⟩, hfree⟩, -⟩, -⟩, -⟩, -⟩, -⟩, -⟩ := hc
  simp only [Config.funct7Free, usedFunct7, Bool.and_eq_true, Bool.not_eq_true', List.contains_eq_mem,
    decide_eq_false_iff_not] at hfree
  obtain ⟨hfence, hinval⟩ := hfree
  refine ⟨fun h => hfence (by rw [h]; decide), fun h => hinval (by rw [h]; decide), fun h => ?_⟩
  simp [Config.funct7Distinct, h] at hdistinct

theorem encodeR_ne_of_funct7 {f : BitVec 7} {rs2 rs1 : RegIdx} {w : BitVec 32} (h : f ≠ w.extractLsb' 25 7) :
    encodeR f rs2 rs1 ≠ w := by
  rintro rfl
  exact h (encodeR_funct7 f rs2 rs1).symm

theorem encode_opcode (c : Config) (i : Instr) : (encode c i).extractLsb' 0 7 = opcodeSystem := by
  cases i <;> exact encodeR_opcode _ _ _

/-- The word of an instruction decodes to it: the funct7 values tell the four words apart (R84, R87). -/
theorem decodeWord_encode {c : Config} (hc : c.wf = true) (i : Instr) : decodeWord c (encode c i) = .ok i := by
  obtain ⟨hfence, hinval, hdistinct⟩ := Config.wf_funct7 hc
  cases i with
  | mfenceSpa rs1 rs2 =>
    rw [encode, decodeWord, if_neg (encodeR_ne_of_funct7 hfence), if_neg (encodeR_ne_of_funct7 hfence)]
    simp [encodeR_opcode, encodeR_funct7, encodeR_rd, encodeR_funct3, encodeR_rs1, encodeR_rs2]
  | minvalSpa rs1 rs2 =>
    rw [encode, decodeWord, if_neg (encodeR_ne_of_funct7 hinval), if_neg (encodeR_ne_of_funct7 hinval)]
    simp [encodeR_opcode, encodeR_funct7, encodeR_rd, encodeR_funct3, encodeR_rs1, encodeR_rs2, hdistinct]
  | sfenceWInval =>
    have hword : encodeR 0b0001100#7 0b00000#5 0b00000#5 = wordSfenceWInval := by decide
    rw [encode, hword, decodeWord, if_pos rfl]
  | sfenceInvalIr =>
    have hword : encodeR 0b0001100#7 0b00001#5 0b00000#5 = wordSfenceInvalIr := by decide
    rw [encode, hword, decodeWord, if_neg (by decide), if_pos rfl]

/-- The bytes of an instruction decode to it, whatever follows them. -/
theorem decode_encodeBytes {c : Config} (hc : c.wf = true) (i : Instr) (rest : List Byte) :
    decode c (encodeBytes c i ++ rest) = .ok (i, rest) := by
  rw [encodeBytes, decode_bytes, if_pos (isWord32_of_system _ (encode_opcode c i)), decodeWord_encode hc]

/-- The first byte of an instruction says that it is longer than 16 bits (R83). -/
theorem isLong_encodeBytes (c : Config) (i : Instr) : Machine.isLong ((encodeBytes c i).getD 0 0) = true := by
  have hword := isWord32_of_system _ (encode_opcode c i)
  rw [encodeBytes, bytesOf_word]
  simp only [isWord32, Bool.and_eq_true] at hword
  exact hword.1

end Sys2Proof

namespace Sys2Proof.Machine

/-- A value that fits is not cut. -/
theorem wrapX_of_lt {x : Xlen} {v : Word} (h : v.toNat < 2 ^ x.bits) : wrapX x v = v := by
  cases x with
  | rv32 =>
    refine BitVec.eq_of_toNat_eq ?_
    rw [wrapX, BitVec.toNat_and]
    exact (Nat.and_two_pow_sub_one_eq_mod v.toNat 32).trans (Nat.mod_eq_of_lt h)
  | rv64 => rfl

/-- Two bytes of a fetch in M-mode at an even address: no check but that of the PMP, and nothing changes (R63). -/
theorem access_fetch_machine {s : State} {pc : Nat} (ea a : Nat) (hp : s.hart.priv = .m) (hlow : pc ≤ a)
    (hhigh : a + 2 ≤ pc + 4) (heven : a % 2 = 0) (hlimit : pc + 4 ≤ 2 ^ 56)
    (hpmp : pmpAllows s.hart pc 4 .fetch .m = true) (hdev : isDevice s.cfg pc 4 = false) :
    access s s .fetch ea a 2 [] = .ok [{ va := a, pa := a, size := 2, implicit := [], raises := none }] s := by
  rw [access_plain_ok s s .fetch ea a 2 [] .m (by simp [hp]) (.inl rfl) (by omega) (by omega)
    (isDevice_part _ _ _ _ _ hlow hhigh hdev) (pmpAllows_part _ _ _ _ _ _ _ hlow hhigh hpmp) (if_pos rfl), tickFor_fetch]

/-- A fetch in M-mode of an instruction of 32 bits gives the four bytes at the pc and changes nothing (R16, R63). -/
theorem fetch_machine {s : State} (hp : s.hart.priv = .m) (heven : s.hart.pc.toNat % 2 = 0)
    (hwrap : s.hart.pc.toNat + 4 ≤ 2 ^ s.cfg.xlen.bits) (hlimit : s.hart.pc.toNat + 4 ≤ 2 ^ 56)
    (hpmp : pmpAllows s.hart s.hart.pc.toNat 4 .fetch .m = true) (hdev : isDevice s.cfg s.hart.pc.toNat 4 = false)
    (hlong : isLong (s.mem.read s.hart.pc.toNat) = true) :
    fetch s = .ok (s.mem.readBytes s.hart.pc.toNat 4) s := by
  have hsum : (s.hart.pc + 2).toNat = s.hart.pc.toNat + 2 := by
    rw [BitVec.toNat_add, show (2 : Word).toNat = 2 from rfl]
    omega
  have hnext : (wrapX s.cfg.xlen (s.hart.pc + 2)).toNat = s.hart.pc.toNat + 2 := by
    rw [wrapX_of_lt (by omega), hsum]
  have hlow := access_fetch_machine s.hart.pc.toNat s.hart.pc.toNat hp (Nat.le_refl _) (by omega) heven hlimit hpmp hdev
  have hhigh := access_fetch_machine s.hart.pc.toNat (s.hart.pc.toNat + 2) hp (by omega) (by omega) (by omega) hlimit
    hpmp hdev
  have hfirst : isLong ((s.mem.readBytes s.hart.pc.toNat 2).getD 0 0) = true := hlong
  simp only [fetch, hlow, hnext, hhigh, readParts, List.flatMap_singleton, hfirst, if_true,
    ← Memory.readBytes_append]

/-- Settles O7: the fetch answers with the instruction's bytes at the same state, and they decode to it. -/
theorem machineModeStepRunsStoredInstruction : Obligations.MachineModeStepRunsStoredInstruction := by
  unfold Obligations.MachineModeStepRunsStoredInstruction
  intro s i hc he hp heven hwrap hlimit hpmp hdev hbytes
  have hlong : isLong (s.mem.read s.hart.pc.toNat) = true := by
    have hfirst := isLong_encodeBytes s.cfg i
    rwa [← hbytes] at hfirst
  have hfetch := fetch_machine hp heven hwrap hlimit hpmp hdev hlong
  have hdecode := decode_encodeBytes hc i []
  rw [List.append_nil, ← hbytes] at hdecode
  exact stepRunsTheDecodedInstruction s s _ i [] he hfetch hdecode

end Sys2Proof.Machine
end

section
/-! PROOFS. The formats of the MTT entries and the lookup (20_memory.md sections 2 to 4): the fields as quotients and
remainders, how a lookup ends at each entry it reads, and what a check makes of the result. -/

namespace Sys2Proof.Machine

/-! ## Fields -/

/-- A field of `w` bits from bit `lo` on. -/
theorem bitsOf_width {hi lo : Nat} (v w : Nat) (h : hi + 1 = lo + w) : bitsOf v hi lo = v / 2 ^ lo % 2 ^ w := by
  rw [bitsOf, h, Nat.add_sub_cancel_left]

/-- A field inside INFO is the same field of the entry (R30, R43). -/
theorem bitsOf_l2Info {hi lo : Nat} (e : Word) (h : hi < 44) (hl : lo ≤ hi + 1) :
    bitsOf (l2Info e) hi lo = bitsOf e.toNat hi lo := by
  rw [l2Info, bitsOf_zero]
  exact bitsOf_mod _ hi lo 44 h hl

/-- The upper 12 bits of INFO, which are 0 in a 2M_PAGES entry (R38, R50). -/
theorem bitsOf_l2Info_high (e : Word) : bitsOf (l2Info e) 43 32 = e.toNat / 2 ^ 32 % 2 ^ 12 :=
  (bitsOf_l2Info e (by decide) (by decide)).trans (bitsOf_width _ 12 rfl)

/-- The ZERO field of an MTTL3 entry reaches the entry's top (R29, R42). -/
theorem l3Zero_eq (e : Word) : l3Zero e = e.toNat / 2 ^ 44 := bitsOf_top _ 63 44 64 rfl e.isLt (by decide)

/-- The ZERO field of an MTTL2 entry reaches the entry's top (R30, R43). -/
theorem l2Zero_eq (f : Family) (e : Word) : l2Zero f e = e.toNat / (if f = .rw then 2 ^ 48 else 2 ^ 46) := by
  cases f with
  | rw => exact bitsOf_top _ 63 48 64 rfl e.isLt (by decide)
  | oneBit => exact bitsOf_top _ 63 46 64 rfl e.isLt (by decide)

/-- The PERM field of an MTTL1 word in the rw family (R41). -/
theorem l1Perm_rw (p : Nat) (w : Word) : l1Perm .rw p w = w.toNat / 2 ^ (4 * (p / 2 ^ 12 % 16)) % 16 := by
  rw [l1Perm, bitsOf_width p 4 rfl]
  exact bitsOf_width _ 4 rfl

/-- The PERM field of an MTTL1 word in the 1b family (R53). -/
theorem l1Perm_oneBit (p : Nat) (w : Word) : l1Perm .oneBit p w = w.toNat / 2 ^ (2 * (p / 2 ^ 12 % 32)) % 4 := by
  rw [l1Perm, bitsOf_width p 5 rfl]
  exact bitsOf_width _ 2 rfl

/-- The word of an MTTL1 page is the nine address bits below the span of the MTTL2 entry (R39, R51). -/
theorem l1Word_eq (f : Family) (p : Nat) : l1Word f p = p / 2 ^ (spanBit f - 9) % 512 := by
  cases f with
  | rw => exact bitsOf_width p 9 rfl
  | oneBit => exact bitsOf_width p 9 rfl

/-- The TYPE table of the rw family (R32). -/
theorem l2Kind_rw (t : Nat) :
    l2Kind .rw t =
      if t = 0b0000 then .gig .none else if t = 0b0001 then .gig .r else if t = 0b0011 then .gig .rw
      else if t = 0b0100 then .dir else if t = 0b0111 then .pages2m else .reserved := by
  unfold l2Kind
  split <;> simp_all

/-- The TYPE table of the 1b family (R45). -/
theorem l2Kind_oneBit {t : Nat} (h : t < 4) :
    l2Kind .oneBit t =
      if t = 0b00 then .gig .disallow else if t = 0b01 then .gig .allow else if t = 0b10 then .dir else .pages2m := by
  interval_cases t <;> rfl

/-- The 2M_PAGES sub-field of the rw family (R38, D16). -/
theorem permOf2m_rw {c : Config} (e : Word) (p : Nat) (h : c.perm2m10 = .violation) :
    permOf2m c .rw p (l2Info e) =
      if e.toNat / 2 ^ (2 * (p / 2 ^ 21 % 16)) % 4 = 0b00 then .perm .none
      else if e.toNat / 2 ^ (2 * (p / 2 ^ 21 % 16)) % 4 = 0b01 then .perm .r
      else if e.toNat / 2 ^ (2 * (p / 2 ^ 21 % 16)) % 4 = 0b11 then .perm .rw
      else .violation := by
  have hindex : bitsOf p 24 21 = p / 2 ^ 21 % 16 := bitsOf_width p 4 rfl
  have hfield : bitsOf (l2Info e) (2 * (p / 2 ^ 21 % 16) + 1) (2 * (p / 2 ^ 21 % 16)) =
      e.toNat / 2 ^ (2 * (p / 2 ^ 21 % 16)) % 4 :=
    (bitsOf_l2Info e (by omega) (by omega)).trans (bitsOf_width _ 2 rfl)
  rw [permOf2m, hindex, hfield, h]
  split <;> simp_all

/-- The 2M_PAGES bit of the 1b family (R50). -/
theorem permOf2m_oneBit (c : Config) (e : Word) (p : Nat) :
    permOf2m c .oneBit p (l2Info e) = if e.getLsbD (p / 2 ^ 21 % 32) then .perm .allow else .perm .disallow := by
  have hindex : bitsOf p 25 21 = p / 2 ^ 21 % 32 := bitsOf_width p 5 rfl
  have hfield : bitsOf (l2Info e) (p / 2 ^ 21 % 32) (p / 2 ^ 21 % 32) = e.toNat / 2 ^ (p / 2 ^ 21 % 32) % 2 :=
    (bitsOf_l2Info e (by omega) (by omega)).trans (bitsOf_width _ 1 rfl)
  rw [permOf2m, hindex, hfield, BitVec.getLsbD, Nat.testBit_eq_decide_div_mod_eq]
  simp only [decide_eq_true_eq]

/-! ## From an MTTL2 entry on -/

@[simp] theorem mbzBad_zero (c : Config) : mbzBad c 0 = false := rfl

/-- A must-be-zero field that is not 0 is bad under every policy but `ignore` (D15). -/
theorem mbzBad_of_ne {c : Config} {n : Nat} (hn : n ≠ 0) (hc : c.mbzPolicy ≠ .ignore) : mbzBad c n = true := by
  simp [mbzBad, hn, hc]

section
variable {c : Config} {f : Family} {p : Nat} {rd : EntryReader} {e : Word}

theorem lookupL2_zero_bad (h : mbzBad c (l2Zero f e) = true) : lookupL2 c f p rd e = .ok (.unspec .zeroNonzero) := by
  rw [lookupL2, if_pos h]

theorem lookupL2_gig {q : Permission} (hz : l2Zero f e = 0) (hk : l2Kind f (l2Type f e) = .gig q) :
    lookupL2 c f p rd e = .ok (if mbzBad c (l2Info e) then .unspec .infoNonzero else .perm q) := by
  rw [lookupL2, hz, mbzBad_zero, if_neg Bool.false_ne_true, hk]
  exact (apply_ite _ _ _ _).symm

theorem lookupL2_dir (hz : l2Zero f e = 0) (hk : l2Kind f (l2Type f e) = .dir) :
    lookupL2 c f p rd e =
      (rd .l1 (l2Info e * 4096 + 8 * (p / 2 ^ (spanBit f - 9) % 512))).map fun w => permOfL1 f (l1Perm f p w) := by
  rw [lookupL2, hz, mbzBad_zero, if_neg Bool.false_ne_true, hk, ← l1Word_eq, ← entryAddr]
  cases rd .l1 (entryAddr (l2Info e) (l1Word f p)) <;> rfl

theorem lookupL2_pages2m (hz : l2Zero f e = 0) (hk : l2Kind f (l2Type f e) = .pages2m) :
    lookupL2 c f p rd e =
      .ok (if mbzBad c (e.toNat / 2 ^ 32 % 2 ^ 12) then .unspec .infoNonzero else permOf2m c f p (l2Info e)) := by
  rw [lookupL2, hz, mbzBad_zero, if_neg Bool.false_ne_true, hk, ← bitsOf_l2Info_high]
  exact (apply_ite _ _ _ _).symm

theorem lookupL2_reserved (hz : l2Zero f e = 0) (hk : l2Kind f (l2Type f e) = .reserved) :
    lookupL2 c f p rd e = .ok .violation := by
  rw [lookupL2, hz, mbzBad_zero, if_neg Bool.false_ne_true, hk]

end

/-! ## From the root on -/

section
variable {c : Config} {f : Family} {paw root p : Nat} {rd : EntryReader} {mixed : Nat → Nat → Bool} {e : Word}
  {x : EntryStop}

theorem lookup_beyond (hp : 2 ^ paw ≤ p) : lookup c f paw root p rd mixed = .ok .violation :=
  if_pos (Nat.div_pos hp (Nat.two_pow_pos paw)).ne'

/-- Under the widths 34 and 46 the root is an MTTL2 table (R55). -/
theorem lookup_eq_lookupTable2 (hw : paw = 34 ∨ paw = 46) (hp : p < 2 ^ paw) :
    lookup c f paw root p rd mixed = lookupTable2 c f paw root p rd mixed := by
  rw [lookup, if_neg (not_not_intro (Nat.div_eq_of_lt hp)), if_neg (by omega)]

/-- An MTTL2 entry that could not be read ends the lookup. -/
theorem lookup_l2_error (hw : paw = 34 ∨ paw = 46) (hp : p < 2 ^ paw)
    (hr : rd .l2 (root * 4096 + 8 * (p / 2 ^ spanBit f)) = .error x) : lookup c f paw root p rd mixed = .error x := by
  rw [lookup_eq_lookupTable2 hw hp, lookupTable2, l2Index_root f paw p hw hp, entryAddr, hr]

/-- An MTTL2 entry of a mixed group ends the lookup without a result (R36, R48). -/
theorem lookup_mixed (hw : paw = 34 ∨ paw = 46) (hp : p < 2 ^ paw)
    (hr : rd .l2 (root * 4096 + 8 * (p / 2 ^ spanBit f)) = .ok e) (hm : mixed root (p / 2 ^ spanBit f) = true) :
    lookup c f paw root p rd mixed = .ok (.unspec .group1gMixed) := by
  rw [lookup_eq_lookupTable2 hw hp, lookupTable2, l2Index_root f paw p hw hp, entryAddr, hr]
  exact if_pos hm

theorem l3Index_of_lt (hp : p < 2 ^ 56) : l3Index p = p / 2 ^ 46 := bitsOf_top p 55 46 56 rfl hp (by decide)

/-- An MTTL3 entry that could not be read ends the lookup. -/
theorem lookup_l3_error (hp : p < 2 ^ 56) (hr : rd .l3 (root * 4096 + 8 * (p / 2 ^ 46)) = .error x) :
    lookup c f 56 root p rd mixed = .error x := by
  rw [lookup, if_neg (not_not_intro (Nat.div_eq_of_lt hp)), if_pos rfl, l3Index_of_lt hp, entryAddr, hr]

/-- An MTTL3 entry whose ZERO field is bad ends the lookup without a result (R31, R44). -/
theorem lookup_l3_zero_bad (hp : p < 2 ^ 56) (hr : rd .l3 (root * 4096 + 8 * (p / 2 ^ 46)) = .ok e)
    (h : mbzBad c (l3Zero e) = true) : lookup c f 56 root p rd mixed = .ok (.unspec .zeroNonzero) := by
  rw [lookup, if_neg (not_not_intro (Nat.div_eq_of_lt hp)), if_pos rfl, l3Index_of_lt hp, entryAddr, hr]
  exact if_pos h

/-- A 1G entry gives its permission where INFO is 0, and no result where it is not (R33 to R35, R46, R47). -/
theorem lookup_gig {q : Permission} (hw : paw = 34 ∨ paw = 46) (hp : p < 2 ^ paw)
    (hr : rd .l2 (root * 4096 + 8 * (p / 2 ^ spanBit f)) = .ok e) (hm : mixed root (p / 2 ^ spanBit f) = false)
    (hz : l2Zero f e = 0) (hk : l2Kind f (l2Type f e) = .gig q) :
    (l2Info e = 0 → lookup c f paw root p rd mixed = .ok (.perm q)) ∧
      (l2Info e ≠ 0 → c.mbzPolicy ≠ .ignore → lookup c f paw root p rd mixed = .ok (.unspec .infoNonzero)) := by
  rw [lookup_two_level c f paw root p rd mixed e hw hp hr hm, lookupL2_gig hz hk]
  refine ⟨fun hi => ?_, fun hi hc => ?_⟩
  · rw [hi, mbzBad_zero, if_neg Bool.false_ne_true]
  · rw [mbzBad_of_ne hi hc, if_pos rfl]

/-- A directory entry leads to the PERM field of a word of the page that INFO names (R37, R49). -/
theorem lookup_dir (hw : paw = 34 ∨ paw = 46) (hp : p < 2 ^ paw)
    (hr : rd .l2 (root * 4096 + 8 * (p / 2 ^ spanBit f)) = .ok e) (hm : mixed root (p / 2 ^ spanBit f) = false)
    (hz : l2Zero f e = 0) (hk : l2Kind f (l2Type f e) = .dir) :
    lookup c f paw root p rd mixed =
      (rd .l1 (l2Info e * 4096 + 8 * (p / 2 ^ (spanBit f - 9) % 512))).map fun w => permOfL1 f (l1Perm f p w) := by
  rw [lookup_two_level c f paw root p rd mixed e hw hp hr hm, lookupL2_dir hz hk]

/-- A 2M_PAGES entry gives the field of INFO where its upper bits are 0, and no result where they are not (R38, R50). -/
theorem lookup_pages2m (hw : paw = 34 ∨ paw = 46) (hp : p < 2 ^ paw)
    (hr : rd .l2 (root * 4096 + 8 * (p / 2 ^ spanBit f)) = .ok e) (hm : mixed root (p / 2 ^ spanBit f) = false)
    (hz : l2Zero f e = 0) (hk : l2Kind f (l2Type f e) = .pages2m) :
    (e.toNat / 2 ^ 32 % 2 ^ 12 = 0 → lookup c f paw root p rd mixed = .ok (permOf2m c f p (l2Info e))) ∧
      (e.toNat / 2 ^ 32 % 2 ^ 12 ≠ 0 → c.mbzPolicy ≠ .ignore →
        lookup c f paw root p rd mixed = .ok (.unspec .infoNonzero)) := by
  rw [lookup_two_level c f paw root p rd mixed e hw hp hr hm, lookupL2_pages2m hz hk]
  refine ⟨fun hi => ?_, fun hi hc => ?_⟩
  · rw [hi, mbzBad_zero, if_neg Bool.false_ne_true]
  · rw [mbzBad_of_ne hi hc, if_pos rfl]

end

/-! ## The entries of the rw family -/

/-- Settles O28: with the ZERO field 0 the bits from 44 up are the TYPE, and each of the three is a 1G type. -/
theorem rwGigabyteEntries : Obligations.RwGigabyteEntries := by
  unfold Obligations.RwGigabyteEntries
  intro c paw root p rd mixed e hw hp hr hm hzero
  obtain ⟨htype, hz, hinfo⟩ := l2Fields_rw e hzero
  have hkind : ∀ t q, l2Kind .rw t = .gig q → e.toNat / 2 ^ 44 = t → l2Kind .rw (l2Type .rw e) = .gig q :=
    fun t q hk ht => by rw [htype, ht, hk]
  rw [← hinfo]
  refine ⟨fun hi => ?_, fun hi hc h1g => ?_⟩
  · have hperm : ∀ q, l2Kind .rw (l2Type .rw e) = .gig q → lookup c .rw paw root p rd mixed = .ok (.perm q) :=
      fun q hk => (lookup_gig hw hp hr hm hz hk).1 hi
    exact ⟨fun ht => hperm _ (hkind _ _ rfl ht), fun ht => hperm _ (hkind _ _ rfl ht),
      fun ht => hperm _ (hkind _ _ rfl ht)⟩
  · obtain ⟨q, hk⟩ : ∃ q, l2Kind .rw (l2Type .rw e) = .gig q := by
      rcases h1g with ht | ht | ht
      · exact ⟨_, hkind _ _ rfl ht⟩
      · exact ⟨_, hkind _ _ rfl ht⟩
      · exact ⟨_, hkind _ _ rfl ht⟩
    exact (lookup_gig hw hp hr hm hz hk).2 hi hc

/-- Settles O29: the two tables at the TYPE fields of an entry, and the lookup that reads a reserved TYPE. -/
theorem typeEncodings : Obligations.TypeEncodings := by
  unfold Obligations.TypeEncodings
  intro e
  refine ⟨l2Kind_rw _, l2Kind_oneBit (Nat.mod_lt _ (by decide)), ?_⟩
  intro c paw root p rd mixed t hw hp hr hm hzero hreserved
  obtain ⟨htype, hz, -⟩ := l2Fields_rw e hzero
  have hkind : l2Kind .rw (l2Type .rw e) = .reserved := by
    simp only [List.mem_cons, List.not_mem_nil, or_false, not_or] at hreserved
    rw [htype, l2Kind_rw]
    simp only [hreserved, if_false]
  have hlookup : lookup c .rw paw root p rd mixed = .ok .violation := by
    rw [lookup_two_level c .rw paw root p rd mixed e hw hp hr hm, lookupL2_reserved hz hkind]
  exact ⟨hlookup, by rw [hlookup]; rfl⟩

/-- Settles O30: the rw case of a directory entry, its word and its PERM field read as R39 and R41 say. -/
theorem rwDirectoryEntries : Obligations.RwDirectoryEntries := by
  unfold Obligations.RwDirectoryEntries
  intro c paw root p rd mixed e w hw hp hr hm ht hword
  obtain ⟨htype, hz, hinfo⟩ := l2Fields_rw e (by omega)
  rw [← hinfo] at hword
  rw [lookup_dir hw hp hr hm hz (by rw [htype, ht]; rfl), show spanBit .rw - 9 = 16 from rfl, hword, ← l1Perm_rw,
    ← permOfL1_rw]
  rfl

/-- Settles O31: the rw case of a 2M_PAGES entry. -/
theorem rwTwoMegabyteEntries : Obligations.RwTwoMegabyteEntries := by
  unfold Obligations.RwTwoMegabyteEntries
  intro c paw root p rd mixed e hw hp hr hm ht
  obtain ⟨htype, hz, -⟩ := l2Fields_rw e (by omega)
  obtain ⟨hfield, hbad⟩ := lookup_pages2m (c := c) (f := .rw) hw hp hr hm hz (by rw [htype, ht]; rfl)
  exact ⟨fun hi hc => by rw [hfield hi, permOf2m_rw e p hc], hbad⟩

/-! ## The entries of the 1b family -/

/-- Settles O32: with the ZERO field 0 the bits from 44 up are the TYPE, and both are 1G types. -/
theorem oneBitGigabyteEntries : Obligations.OneBitGigabyteEntries := by
  unfold Obligations.OneBitGigabyteEntries
  intro c paw root p rd mixed e hw hp hr hm hzero
  obtain ⟨htype, hz, hinfo⟩ := l2Fields_oneBit e hzero
  have hkind : ∀ t q, l2Kind .oneBit t = .gig q → e.toNat / 2 ^ 44 = t →
      l2Kind .oneBit (l2Type .oneBit e) = .gig q := fun t q hk ht => by rw [htype, ht, hk]
  rw [← hinfo]
  refine ⟨fun hi => ?_, fun hi hc h1g => ?_⟩
  · have hperm : ∀ q, l2Kind .oneBit (l2Type .oneBit e) = .gig q →
      lookup c .oneBit paw root p rd mixed = .ok (.perm q) := fun q hk => (lookup_gig hw hp hr hm hz hk).1 hi
    exact ⟨fun ht => hperm _ (hkind _ _ rfl ht), fun ht => hperm _ (hkind _ _ rfl ht)⟩
  · obtain ⟨q, hk⟩ : ∃ q, l2Kind .oneBit (l2Type .oneBit e) = .gig q := by
      rcases h1g with ht | ht
      · exact ⟨_, hkind _ _ rfl ht⟩
      · exact ⟨_, hkind _ _ rfl ht⟩
    exact (lookup_gig hw hp hr hm hz hk).2 hi hc

/-- Settles O33: the 1b case of a directory entry, its word and its PERM field read as R51 and R53 say. -/
theorem oneBitDirectoryEntries : Obligations.OneBitDirectoryEntries := by
  unfold Obligations.OneBitDirectoryEntries
  intro c paw root p rd mixed e w hw hp hr hm ht hword
  obtain ⟨htype, hz, hinfo⟩ := l2Fields_oneBit e (by omega)
  rw [← hinfo] at hword
  rw [lookup_dir hw hp hr hm hz (by rw [htype, ht]; rfl), show spanBit .oneBit - 9 = 17 from rfl, hword,
    ← l1Perm_oneBit, ← permOfL1_oneBit]
  rfl

/-- Settles O34: the 1b case of a 2M_PAGES entry. -/
theorem oneBitTwoMegabyteEntries : Obligations.OneBitTwoMegabyteEntries := by
  unfold Obligations.OneBitTwoMegabyteEntries
  intro c paw root p rd mixed e hw hp hr hm ht
  obtain ⟨htype, hz, -⟩ := l2Fields_oneBit e (by omega)
  obtain ⟨hfield, hbad⟩ := lookup_pages2m (c := c) (f := .oneBit) hw hp hr hm hz (by rw [htype, ht]; rfl)
  exact ⟨fun hi => by rw [hfield hi, permOf2m_oneBit], hbad⟩

/-! ## Where a lookup has no result -/

/-- Settles O35: the ZERO field is the first that a lookup tests in an entry. -/
theorem nonzeroZeroFieldsAreUnspecified : Obligations.NonzeroZeroFieldsAreUnspecified := by
  unfold Obligations.NonzeroZeroFieldsAreUnspecified
  intro c f root p rd mixed e t hc
  refine ⟨fun ⟨hp, hr, hz⟩ => ?_, fun paw hw ⟨hp, hr, hm, hz⟩ => ?_, fun hpolicy => ?_, fun hpolicy => ?_⟩
  · exact lookup_l3_zero_bad hp hr (mbzBad_of_ne (by rwa [l3Zero_eq]) hc)
  · rw [lookup_two_level c f paw root p rd mixed e hw hp hr hm]
    exact lookupL2_zero_bad (mbzBad_of_ne (by rwa [l2Zero_eq]) hc)
  · simp only [judge, treatUnspec, hpolicy]
  · simp only [judge, treatUnspec, hpolicy]

theorem paw_of_two_level {m : Mode} (h : m ≠ .bare) (h56 : m.paw ≠ 56) : m.paw = 34 ∨ m.paw = 46 := by
  cases m <;> simp_all [Mode.paw]

/-- Settles O37: the group is tested where the entry is read. -/
theorem mixedGroupsAreRefused : Obligations.MixedGroupsAreRefused := by
  unfold Obligations.MixedGroupsAreRefused
  intro c m rd mems mem a t e hbare h56 ha hmem hr hmixed
  have hany : mems.any (fun mem => groupMixed c m.mode.family mem m.ppn.toNat (a / 2 ^ spanBit m.mode.family)) = true :=
    List.any_eq_true.mpr ⟨mem, hmem, hmixed⟩
  rw [judgeWith, if_neg hbare, lookup_mixed (paw_of_two_level hbare h56) ha hr hany]
  rfl

/-! ## Groups of 1 GiB -/

theorem groupSize_pos (f : Family) : 0 < groupSize f := by cases f <;> decide

/-- The numbers in the same block of `g` as `i`. -/
theorem div_eq_div_iff_exists_add {g i j : Nat} (hg : 0 < g) : j / g = i / g ↔ ∃ r < g, i / g * g + r = j := by
  constructor
  · intro h
    exact ⟨j % g, Nat.mod_lt j hg, by rw [← h, Nat.div_add_mod']⟩
  · rintro ⟨r, hr, rfl⟩
    rw [Nat.mul_comm, Nat.mul_add_div hg, Nat.div_eq_of_lt hr, Nat.add_zero]

/-- A group is mixed where one of its entries has a 1G type and another a different TYPE (R36, R48). -/
theorem groupMixed_iff (c : Config) (f : Family) (m : Memory) (ppn i : Nat) :
    groupMixed c f m ppn i = true ↔
      ∃ j k, j / groupSize f = i / groupSize f ∧ k / groupSize f = i / groupSize f ∧
        is1g f (typeAt c f m ppn j) = true ∧ typeAt c f m ppn k ≠ typeAt c f m ppn j := by
  simp only [groupMixed, List.any_eq_true, List.mem_map, List.mem_range, Bool.and_eq_true, bne_iff_ne,
    div_eq_div_iff_exists_add (groupSize_pos f)]
  constructor
  · rintro ⟨_, ⟨j, hj, rfl⟩, h1g, _, ⟨k, hk, rfl⟩, hne⟩
    exact ⟨_, _, ⟨j, hj, rfl⟩, ⟨k, hk, rfl⟩, h1g, hne⟩
  · rintro ⟨_, _, ⟨j, hj, rfl⟩, ⟨k, hk, rfl⟩, h1g, hne⟩
    exact ⟨_, ⟨j, hj, rfl⟩, h1g, _, ⟨k, hk, rfl⟩, hne⟩

/-- Whether a group is mixed depends on the group alone. -/
theorem groupMixed_first (c : Config) (f : Family) (m : Memory) (ppn i : Nat) :
    groupMixed c f m ppn (i / groupSize f * groupSize f) = groupMixed c f m ppn i := by
  simp only [groupMixed, Nat.mul_div_cancel _ (groupSize_pos f)]

/-- An MTTL2 index is one of the table's entries, which are whole groups (R54). -/
theorem l2Index_group_lt (f : Family) (p : Nat) {paw : Nat} (hw : paw = 34 ∨ paw = 46 ∨ paw = 56) :
    l2Index f paw p / groupSize f < l2Entries f paw / groupSize f := by
  have hwhole : groupSize f ∣ l2Entries f paw := by
    rcases hw with rfl | rfl | rfl <;> cases f <;> decide
  have hlt : l2Index f paw p < l2Entries f paw := by
    rcases hw with rfl | rfl | rfl <;> exact Nat.mod_lt _ (Nat.two_pow_pos _)
  exact Nat.div_lt_div_of_lt_of_dvd hwhole hlt

/-- Settles O38: every index of the table lies in one of the groups that `MTT_WF_1G` tests. -/
theorem mixedGroupMeansTwoTypes : Obligations.MixedGroupMeansTwoTypes := by
  unfold Obligations.MixedGroupMeansTwoTypes
  intro c f m ppn i
  refine ⟨groupMixed_iff c f m ppn i, fun paw p hw hwf => ?_⟩
  rw [mttWf1g, List.all_eq_true] at hwf
  have hgroup := hwf _ (List.mem_range.mpr (l2Index_group_lt f p hw))
  rwa [groupMixed_first, Bool.not_eq_true'] at hgroup

/-! ## From a result to a check -/

/-- Settles O26: the width is tested before anything is read. -/
theorem addressBeyondWidthViolates : Obligations.AddressBeyondWidthViolates := by
  unfold Obligations.AddressBeyondWidthViolates
  intro c f paw root p rd mixed t hp
  rw [lookup_beyond hp]
  exact ⟨rfl, rfl⟩

/-- Settles O27: the mode is tested before anything is read. -/
theorem barePasses : Obligations.BarePasses := by
  unfold Obligations.BarePasses
  intro c m rd mems a t hbare
  exact if_pos hbare

/-- Settles O39, by the type of the access. -/
theorem rwPermissionsAgainstAccess : Obligations.RwPermissionsAgainstAccess := by
  unfold Obligations.RwPermissionsAgainstAccess
  intro c t hfetch
  refine ⟨rfl, ?_, rfl, rfl, rfl, rfl, rfl, rfl, rfl, rfl⟩
  cases t with
  | fetch => simp [judge, passes, hfetch]
  | read => rfl
  | write => rfl

/-- A result that the rw family alone gives does not come out: a permission is ALLOW or DISALLOW. -/
def OneBitResult (r : Except EntryStop LookupResult) : Prop :=
  ∀ q, r = .ok (.perm q) → q = .allow ∨ q = .disallow

theorem oneBitResult_error (x : EntryStop) : OneBitResult (.error x) := nofun

theorem oneBitResult_unspec (why : UnspecReason) : OneBitResult (.ok (.unspec why)) := nofun

theorem oneBitResult_violation : OneBitResult (.ok .violation) := nofun

theorem oneBitResult_perm {q : Permission} (h : q = .allow ∨ q = .disallow) : OneBitResult (.ok (.perm q)) := by
  rintro _ ⟨⟩
  exact h

theorem l2Kind_oneBit_gig {t : Nat} {q : Permission} (h : l2Kind .oneBit t = .gig q) : q = .allow ∨ q = .disallow := by
  rcases t with _ | _ | _ | _ | t <;> cases h
  · exact .inr rfl
  · exact .inl rfl

theorem oneBitResult_permOfL1 (x : Nat) : OneBitResult (.ok (permOfL1 .oneBit x)) := by
  rw [permOfL1_oneBit]
  split
  · exact oneBitResult_perm (.inr rfl)
  · split
    · exact oneBitResult_perm (.inl rfl)
    · exact oneBitResult_violation

theorem oneBitResult_permOf2m (c : Config) (p info : Nat) : OneBitResult (.ok (permOf2m c .oneBit p info)) := by
  rw [permOf2m]
  split
  · exact oneBitResult_perm (.inl rfl)
  · exact oneBitResult_perm (.inr rfl)

theorem lookupL2_oneBit (c : Config) (p : Nat) (rd : EntryReader) (e : Word) :
    OneBitResult (lookupL2 c .oneBit p rd e) := by
  unfold lookupL2
  split
  · exact oneBitResult_unspec _
  · split
    · rename_i hk
      split
      · exact oneBitResult_unspec _
      · exact oneBitResult_perm (l2Kind_oneBit_gig hk)
    · split
      · exact oneBitResult_error _
      · exact oneBitResult_permOfL1 _
    · split
      · exact oneBitResult_unspec _
      · exact oneBitResult_permOf2m _ _ _
    · exact oneBitResult_violation

theorem lookupTable2_oneBit (c : Config) (paw ppn2 p : Nat) (rd : EntryReader) (mixed : Nat → Nat → Bool) :
    OneBitResult (lookupTable2 c .oneBit paw ppn2 p rd mixed) := by
  unfold lookupTable2
  split
  · exact oneBitResult_error _
  · split
    · exact oneBitResult_unspec _
    · exact lookupL2_oneBit _ _ _ _

theorem lookup_oneBit (c : Config) (paw root p : Nat) (rd : EntryReader) (mixed : Nat → Nat → Bool) :
    OneBitResult (lookup c .oneBit paw root p rd mixed) := by
  unfold lookup
  split
  · exact oneBitResult_violation
  · split
    · split
      · exact oneBitResult_error _
      · split
        · exact oneBitResult_unspec _
        · exact lookupTable2_oneBit _ _ _ _ _ _
    · exact lookupTable2_oneBit _ _ _ _ _ _

/-- Such a result is judged without the type of the access (R60). -/
theorem judge_oneBit {r : Except EntryStop LookupResult} (h : OneBitResult r) (c : Config) (t u : AccessType) :
    judge c t r = judge c u r := by
  rcases r with x | (q | _ | why)
  · cases x <;> rfl
  · rcases h q rfl with rfl | rfl <;> rfl
  · rfl
  · rfl

/-- Settles O40: no result of the rw family comes out of the lookup, and no other is judged by the access. -/
theorem oneBitFamilyIgnoresAccessType : Obligations.OneBitFamilyIgnoresAccessType := by
  unfold Obligations.OneBitFamilyIgnoresAccessType
  intro c m rd mems a t u hfam
  refine ⟨?_, rfl, rfl, rfl⟩
  rw [judgeWith, judgeWith, hfam, judge_oneBit (lookup_oneBit _ _ _ _ _ _) c t u]

/-! ## Reading an entry -/

theorem checkReader_error {s : State} {a : Nat} {x : EntryStop} (h : entryAllowed s a = .error x) (place : List Nat)
    (t0 : Option Horizon) (l : Level) : checkReader s place t0 l a = .error x := by
  rw [checkReader, h]

/-- Settles O43: the guards of an entry read in their order, and the lookup that ends at each level. -/
theorem entryReadsAreGuarded : Obligations.EntryReadsAreGuarded := by
  unfold Obligations.EntryReadsAreGuarded
  intro s place t0 l a t
  refine ⟨fun ha => checkReader_error (if_pos ha) .., fun ha hpmp => checkReader_error ?_ ..,
    fun ha hpmp hdev => checkReader_error ?_ .., rfl, rfl, rfl, ?_⟩
  · have hbelow : ¬ addressLimit ≤ a := Nat.not_le.mpr ha
    rw [entryAllowed, if_neg hbelow, hpmp]
    rfl
  · have hbelow : ¬ addressLimit ≤ a := Nat.not_le.mpr ha
    rw [entryAllowed, if_neg hbelow, hpmp, hdev]
    rfl
  · intro f root p rd mixed x
    refine ⟨lookup_l3_error, fun paw hw hp => ⟨lookup_l2_error hw hp, fun e hr hm htype hword => ?_⟩⟩
    have hdir : l2Zero f e = 0 ∧ l2Kind f (l2Type f e) = .dir ∧ l2Info e = e.toNat % 2 ^ 44 := by
      cases f with
      | rw =>
        rw [if_pos rfl] at htype
        obtain ⟨hty, hz, hinfo⟩ := l2Fields_rw e (by omega)
        exact ⟨hz, by rw [hty, htype]; rfl, hinfo⟩
      | oneBit =>
        rw [if_neg (by decide)] at htype
        obtain ⟨hty, hz, hinfo⟩ := l2Fields_oneBit e (by omega)
        exact ⟨hz, by rw [hty, htype]; rfl, hinfo⟩
    obtain ⟨hz, hk, hinfo⟩ := hdir
    rw [lookup_dir hw hp hr hm hz hk, hinfo, hword]
    rfl

end Sys2Proof.Machine
end

section
/-! PROOFS. Which accesses are checked and with what end (20_memory.md section 5): the effective mode, the two pages of
an access, its implicit accesses, what a passing load or store does, what a trapped one leaves; and entries in memory. -/

namespace Sys2Proof.Machine

/-! ## The effective mode -/

/-- A data access uses `MPP` in M-mode with `MPRV` set, whatever its kind (R63, R64). -/
theorem usesMpp_data {k : AccessKind} (h : Hart) (hk : k ≠ .fetch) :
    usesMpp h k = (h.priv == .m && mprv h.mstatus) := by
  rw [usesMpp, bne_iff_ne.mpr hk, Bool.true_and]

/-- Below effective mode M the check is that of each page touched (R70, R71). -/
theorem mttCheck_lower {eff : Priv} (h : eff ≠ .m) (s : State) (place : List Nat) (p n : Nat) (t : AccessType) :
    mttCheck s place p n t eff = firstBad ((touchedPages p n).map fun a => checkPage s (a :: place) a t) := if_neg h

/-- Settles O41: a fetch never uses `MPP`, and a data access does in M-mode with `MPRV` set. -/
theorem effectiveModeAndExemption : Obligations.EffectiveModeAndExemption := by
  unfold Obligations.EffectiveModeAndExemption
  intro s k place p n t
  refine ⟨effectivePriv_fetch s, fun hk hpriv hmprv q hq => ?_, fun hk hcurrent => ?_, rfl, ?_⟩
  · rw [effectivePriv, usesMpp_data s.hart hk, hpriv, hmprv]
    exact mppMode_named hq
  · have hplain : usesMpp s.hart k = false := by
      rw [usesMpp_data s.hart hk, Bool.and_eq_false_iff, beq_eq_false_iff_ne]
      exact hcurrent
    rw [effectivePriv, hplain, if_neg Bool.false_ne_true]
  · rw [mttCheck_lower (by decide), mttCheck_lower (by decide)]

/-! ## The pages and the implicit accesses of an access -/

/-- Settles O42: the pages touched are two, and the first outcome that is not PASS decides. -/
theorem bothPagesAreChecked : Obligations.BothPagesAreChecked := by
  unfold Obligations.BothPagesAreChecked
  intro s place p n t eff heff htwo
  rw [mttCheck_lower heff, touchedPages, if_pos htwo, firstBad_eq_pass]
  simp

/-- A physical access that the PMP lets through and the MTT check refuses ends in an access-fault (R71). -/
theorem checkPhysical_fail {s : State} {place : List Nat} {a n : Nat} {t : AccessType} {pmpMode eff : Priv}
    (hpmp : pmpAllows s.hart a n t pmpMode = true) (hm : mttCheck s place a n t eff = .fail) :
    checkPhysical s place a n t pmpMode eff = .accessFault := by
  rw [checkPhysical, hpmp, hm]
  rfl

/-- Settles O44, by whether the access has a value to write. -/
theorem implicitAccessesAreChecked : Obligations.ImplicitAccessesAreChecked := by
  unfold Obligations.ImplicitAccessesAreChecked
  intro s place eff i l
  refine ⟨fun hread => ?_, fun hwrite => ?_, fun hpmp heff hfail => ?_⟩
  · simp [implicitType, implicitMade, hread]
  · obtain ⟨v, hv⟩ := Option.ne_none_iff_exists'.mp hwrite
    simp [implicitType, implicitMade, hv]
  · rw [← mttCheck_lower heff] at hfail
    rw [checkImplicits, checkPhysical_fail hpmp hfail]

/-! ## Accesses that pass, and one that traps -/

/-- Two kinds of data access of one type differ in the cause of their fault only: what passes for one passes for the
other, and leaves the same state (D14). -/
theorem access_passes_like {start s : State} {k l : AccessKind} {ea va n : Nat} {data : List Byte} {eff : Priv}
    {ps : List Part} (hk : k ≠ .fetch) (hl : l ≠ .fetch) (htype : k.type = l.type) (he : effectivePriv s l = eff)
    (hs : spans s.cfg va n = ps.map (fun q => (q.va, q.size))) (hp : ∀ q ∈ ps, q.Passes s l eff)
    (hm : InMemory s.cfg ps) :
    access start s k ea va n data = .ok ps (storeAll (implicitWrites s.cfg ps) (tickFor l eff s)) := by
  have hmpp : usesMpp s.hart k = usesMpp s.hart l := by rw [usesMpp_data _ hk, usesMpp_data _ hl]
  have heff : effectivePriv s k = eff := by rw [← he, effectivePriv, effectivePriv, hmpp]
  have htick : tickFor k eff s = tickFor l eff s := by rw [tickFor, tickFor, hmpp]
  have hpasses : ∀ q ∈ ps, q.Passes s k eff := by
    simpa only [Part.Passes, Part.Lies, htype] using hp
  rw [access_passes heff hs hpasses hm, htick]

/-- Settles O48: a load and a load-reserved are both reads. -/
theorem passingLoadCompletes : Obligations.PassingLoadCompletes := by
  unfold Obligations.PassingLoadCompletes
  intro start s reserved signed rd va len n eff ps hva he hs hp hm
  have haccess : access start s (if reserved then .loadReserved else .load) va.toNat va.toNat n [] =
      .ok ps (storeAll (implicitWrites s.cfg ps) (tickFor .load eff s)) := by
    cases reserved with
    | true => exact access_passes_like (by decide) (by decide) rfl he hs hp hm
    | false => exact access_passes he hs hp hm
  simp only [runLoad, hva, haccess]
  rfl

/-- Settles O49: a store, a store-conditional and an AMO are all writes. -/
theorem passingStoreCompletes : Obligations.PassingStoreCompletes := by
  unfold Obligations.PassingStoreCompletes
  intro start s rd va v len n eff ps hva he hs hp hm
  have haccess : ∀ (k : AccessKind) (data : List Byte), k.type = .write →
      access start s k va.toNat va.toNat n data =
        .ok ps (storeAll (implicitWrites s.cfg ps) (tickFor .store eff s)) := by
    intro k data hk
    exact access_passes_like (by rintro rfl; cases hk) (by decide) hk he hs hp hm
  refine ⟨?_, ?_, ?_, ?_⟩
  · simp only [runStore, hva, haccess .store _ rfl]
    rfl
  · simp only [runStoreConditional, hva, haccess .storeConditional _ rfl]
    rfl
  · simp only [runStoreConditional, hva, haccess .storeConditional _ rfl]
    rfl
  · simp only [runAmo, hva, haccess .amo _ rfl]
    rfl

/-- Settles O50: the trap is taken with memory as it was but for bytes of passing pieces. -/
theorem failedStoreTouchesPassedPiecesOnly : Obligations.FailedStoreTouchesPassedPiecesOnly := by
  unfold Obligations.FailedStoreTouchesPassedPiecesOnly
  rintro start s t k ea va n data _ a rfl h hout
  exact read_access_trap h hout

/-! ## Entries in memory -/

/-- Settles O58: the eight bytes read back, and they are the value's. -/
theorem storedEntryReadsBack : Obligations.StoredEntryReadsBack := by
  unfold Obligations.StoredEntryReadsBack
  intro c m a b v hwf hlittle
  constructor
  · have hbytes : (m.writeBytes a (bytesOf 8 v.toNat)).readBytes a 8 = bytesOf 8 v.toNat := by
      simpa only [bytesOf_length] using Memory.readBytes_writeBytes (bytesOf 8 v.toNat) m a hwf
    have hfits : v.toNat % 256 ^ 8 = v.toNat := Nat.mod_eq_of_lt v.isLt
    simp only [Memory.readEntry, hlittle, hbytes, natOfBytes_bytesOf, hfits, BitVec.ofNat_toNat, BitVec.setWidth_eq]
  · intro hout
    exact Memory.read_writeBytes_other _ m a b (by rwa [bytesOf_length])

end Sys2Proof.Machine
end

section
/-! PROOFS. Encoding and decoding (30_encoding.md): the words of the two Svinval instructions, the words and the bytes
that decode to an instruction and those that do not, what the step does on the latter; and the frame of the four
instructions. -/

namespace Sys2Proof

/-! ## Decoding what is encoded -/

/-- Settles O1: the four words differ by their funct7 values, and each is a 32-bit instruction by its first byte. -/
theorem decodeInvertsEncode : Obligations.DecodeInvertsEncode := by
  unfold Obligations.DecodeInvertsEncode
  intro c i rest hc
  exact decode_encodeBytes hc i rest

/-! ## The words of SFENCE.W.INVAL and SFENCE.INVAL.IR (R87) -/

theorem encode_sfenceWInval (c : Config) : encode c .sfenceWInval = wordSfenceWInval := rfl

theorem encode_sfenceInvalIr (c : Config) : encode c .sfenceInvalIr = wordSfenceInvalIr := rfl

theorem decodeWord_wordSfenceWInval (c : Config) : decodeWord c wordSfenceWInval = .ok .sfenceWInval := by
  rw [decodeWord, if_pos rfl]

theorem decodeWord_wordSfenceInvalIr (c : Config) : decodeWord c wordSfenceInvalIr = .ok .sfenceInvalIr := by
  rw [decodeWord, if_neg (by decide), if_pos rfl]

/-- Settles O4: the two words, and the fields of the R-type word that each of them is. -/
theorem svinvalEncodings : Obligations.SvinvalEncodings := by
  unfold Obligations.SvinvalEncodings
  intro c
  refine ⟨encode_sfenceWInval c, encode_sfenceInvalIr c, decodeWord_wordSfenceWInval c,
    decodeWord_wordSfenceInvalIr c, ?_⟩
  rintro i (rfl | rfl)
  · exact ⟨encodeR_opcode _ _ _, encodeR_rd _ _ _, encodeR_funct3 _ _ _, encodeR_rs1 _ _ _, encodeR_rs2 _ _ _,
      encodeR_funct7 _ _ _⟩
  · exact ⟨encodeR_opcode _ _ _, encodeR_rd _ _ _, encodeR_funct3 _ _ _, encodeR_rs1 _ _ _, encodeR_rs2 _ _ _,
      encodeR_funct7 _ _ _⟩

/-! ## What decodes, and what does not -/

/-- R88: neither of the two words, and another opcode or a funct7 that the parameters do not select. -/
theorem decodeWord_outside {c : Config} {w : BitVec 32} (hw : w ≠ wordSfenceWInval) (hir : w ≠ wordSfenceInvalIr)
    (hselect : w.extractLsb' 0 7 ≠ opcodeSystem ∨
      (w.extractLsb' 25 7 ≠ c.funct7Mfence ∧ w.extractLsb' 25 7 ≠ c.funct7Minval)) :
    decodeWord c w = .error .outside := by
  rw [decodeWord, if_neg hw, if_neg hir]
  by_cases hop : w.extractLsb' 0 7 = opcodeSystem
  · obtain ⟨hfence, hinval⟩ := hselect.resolve_left (not_not.mpr hop)
    rw [if_neg (not_not.mpr hop), if_neg hfence, if_neg hinval]
  · rw [if_pos hop]

/-- The decoder past the two words without operands: opcode and funct7 select, and then `rd` and `funct3` must be 0. -/
theorem encode_of_decodeWord {c : Config} {w : BitVec 32} {i : Instr} (h : decodeWord c w = .ok i) :
    encode c i = w := by
  by_cases hw : w = wordSfenceWInval
  · rw [hw, decodeWord_wordSfenceWInval] at h
    cases h
    rw [hw, encode_sfenceWInval]
  by_cases hir : w = wordSfenceInvalIr
  · rw [hir, decodeWord_wordSfenceInvalIr] at h
    cases h
    rw [hir, encode_sfenceInvalIr]
  by_cases hop : w.extractLsb' 0 7 = opcodeSystem
  · simp only [decodeWord, if_neg hw, if_neg hir, if_neg (not_not.mpr hop)] at h
    split at h
    next hfence =>
      split at h
      next hzero => cases h; rw [encode, ← hfence, encodeR_of_fields w hop hzero.1 hzero.2]
      next => cases h
    next =>
      split at h
      next hinval =>
        split at h
        next hzero => cases h; rw [encode, ← hinval, encodeR_of_fields w hop hzero.1 hzero.2]
        next => cases h
      next => cases h
  · rw [decodeWord_outside hw hir (.inl hop)] at h
    cases h

/-- Bytes decode only where the first four are a word that decodes. -/
theorem word_of_decode {c : Config} {bytes rest : List Byte} {i : Instr} (h : decode c bytes = .ok (i, rest)) :
    ∃ w : BitVec 32, bytes = bytesOf 4 w.toNat ++ rest ∧ decodeWord c w = .ok i := by
  unfold decode at h
  split at h
  next => cases h
  next b0 tail =>
    split at h
    next =>
      split at h
      next b1 b2 b3 tail' =>
        split at h
        next hword =>
          cases h
          exact ⟨b3 ++ b2 ++ b1 ++ b0, by rw [bytes_of_word]; rfl, hword⟩
        next => cases h
      next => cases h
    next => cases h

/-- Settles O2: the word that the first four bytes are is the encoding of what it decodes to. -/
theorem decodedBytesAreTheEncoding : Obligations.DecodedBytesAreTheEncoding := by
  unfold Obligations.DecodedBytesAreTheEncoding
  intro c bytes i rest h
  obtain ⟨w, hbytes, hword⟩ := word_of_decode h
  rw [hbytes, encodeBytes, encode_of_decodeWord hword]

/-- R88: the opcode and the funct7 of MFENCE.SPA or MINVAL.SPA, and another `rd` or `funct3` than 0. -/
theorem decodeWord_nearShape {c : Config} {w : BitVec 32} (hc : c.wf = true) (hop : w.extractLsb' 0 7 = opcodeSystem)
    (hfunct7 : w.extractLsb' 25 7 = c.funct7Mfence ∨ w.extractLsb' 25 7 = c.funct7Minval)
    (hfields : ¬ (w.extractLsb' 7 5 = 0 ∧ w.extractLsb' 12 3 = 0)) : decodeWord c w = .error .nearShape := by
  obtain ⟨hfence, hinval, hdistinct⟩ := Config.wf_funct7 hc
  have hfree : w.extractLsb' 25 7 ≠ 0b0001100#7 := by
    rcases hfunct7 with h | h
    · rwa [h]
    · rwa [h]
  have hw : w ≠ wordSfenceWInval := by rintro rfl; exact hfree (by decide)
  have hir : w ≠ wordSfenceInvalIr := by rintro rfl; exact hfree (by decide)
  rw [decodeWord, if_neg hw, if_neg hir, if_neg (not_not.mpr hop)]
  rcases hfunct7 with h | h
  · rw [if_pos h, if_neg hfields]
  · rw [if_neg (by rwa [h]), if_pos h, if_neg hfields]

end Sys2Proof

namespace Sys2Proof.Machine

/-! ## The step on bytes that do not decode -/

theorem step_undecoded {s u : State} {bytes : List Byte} {e : DecodeError} (he : s.events = [])
    (hf : fetch s = .ok bytes u) (hd : decode u.cfg bytes = .error e) : step s = runUndecoded s e bytes u := by
  simp only [step, he, hf, hd]

/-- Settles O5: the decoder's two errors for a word, and for each error what the step does with it. -/
theorem otherEncodingsAreRefused : Obligations.OtherEncodingsAreRefused := by
  unfold Obligations.OtherEncodingsAreRefused
  refine ⟨?_, ?_, ?_⟩
  · intro c w hc hop hfunct7 hfields
    exact decodeWord_nearShape hc hop hfunct7 (not_and_or.mpr hfields)
  · intro c w hw hir hselect
    exact decodeWord_outside hw hir hselect
  · intro s u bytes e he hf hd
    rw [step_undecoded he hf hd, runUndecoded]
    refine ⟨fun hnear => if_pos hnear, fun hnear hops => ?_, fun op ops hnear hops => ?_⟩
    · rw [if_neg hnear, hops]
    · rw [if_neg hnear, hops]

/-! ## The frame of the four instructions -/

/-- At most the pc and what the fences and the batched sequence keep differ: `t` is `s` after an instruction that
completed. -/
def OnlyFencesMoved (s t : State) : Prop :=
  ∃ pc fences pending mark swept,
    t = setHart { s.hart with
      pc := pc, fences := fences, pending := pending, wInval := mark, resetOver := swept } s

theorem onlyFencesMoved_closeInvals (len : Word) (s : State) : OnlyFencesMoved s (advancePc len (closeInvals s)) := by
  unfold closeInvals
  split
  · exact ⟨_, _, _, _, _, rfl⟩
  · exact ⟨_, _, _, _, _, rfl⟩

/-- An instruction completes, or is illegal in the mode it runs in (R82, R94). -/
theorem exec_completes_or_traps {s t : State} {i : Instr} (h : exec i s = .next t) :
    OnlyFencesMoved s t ∨ (s.hart.priv ≠ .m ∧ t = raiseIllegal (instrBits s.cfg i) s) := by
  obtain ⟨_, _, _, -, -, -, rfl⟩ | ⟨_, _, _, -, -, -, rfl⟩ | ⟨-, -, rfl⟩ | ⟨-, -, rfl⟩ | htrap := exec_next h
  · exact .inl ⟨_, _, _, _, _, rfl⟩
  · exact .inl ⟨_, _, _, _, _, rfl⟩
  · exact .inl ⟨_, _, _, _, _, rfl⟩
  · exact .inl (onlyFencesMoved_closeInvals 4 s)
  · exact .inr htrap

/-- Settles O20, by whether the instruction completes or traps; what reset left unspecified ends where a fence is
recorded. -/
theorem fourInstructionsFrame : Obligations.FourInstructionsFrame := by
  unfold Obligations.FourInstructionsFrame
  intro i s t h
  have hreset : (∀ rs1 rs2, i ≠ .mfenceSpa rs1 rs2) → i ≠ .sfenceInvalIr → t.hart.resetOver = s.hart.resetOver := by
    intro hfence hir
    rcases exec_sameFences h with ⟨-, hover⟩ | ⟨rs1, rs2, hi⟩ | hi
    · exact hover
    · exact absurd hi (hfence rs1 rs2)
    · exact absurd hi hir
  rcases exec_completes_or_traps h with ⟨_, _, _, _, _, rfl⟩ | ⟨hp, rfl⟩
  · exact ⟨rfl, rfl, rfl, rfl, rfl, rfl, rfl, rfl, rfl, rfl, rfl, rfl, rfl, rfl, rfl, rfl, rfl,
      .inl ⟨rfl, rfl, rfl, rfl, rfl, rfl⟩, hreset⟩
  · have hcause : (raiseIllegal (instrBits s.cfg i) s).hart.mcause = 2#64 := wrapX_two s.cfg.xlen
    exact ⟨rfl, rfl, rfl, rfl, rfl, rfl, rfl, rfl, rfl, rfl, rfl, rfl, rfl, rfl, rfl, rfl, rfl,
      .inr ⟨hp, rfl, hcause, rfl, rfl, rfl, rfl⟩, hreset⟩

end Sys2Proof.Machine
end

section
/-! PROOFS. MFENCE.SPA by its operand forms (40_mfence_spa.md): what each form selects, what a completed fence changes,
which operands are refused, and the trap below the mode an instruction needs. -/

namespace Sys2Proof.Machine

/-! ## What the operand forms select (R91) -/

@[simp] theorem selector_zero_zero (s : State) : selector s 0 0 = .ok .all := rfl

theorem sdidOperand_fits {s : State} {rs2 : RegIdx} (h : (readReg s rs2).toNat < 2 ^ s.cfg.sdidWidth) :
    sdidOperand s rs2 = some (readReg s rs2) := if_pos h

theorem sdidOperand_wide {s : State} {rs2 : RegIdx} (h : 2 ^ s.cfg.sdidWidth ≤ (readReg s rs2).toNat) :
    sdidOperand s rs2 = none := if_neg (Nat.not_lt.mpr h)

theorem selector_domain {s : State} {rs2 : RegIdx} (h2 : rs2 ≠ 0)
    (hfits : (readReg s rs2).toNat < 2 ^ s.cfg.sdidWidth) : selector s 0 rs2 = .ok (.domain (readReg s rs2)) := by
  rw [selector, if_neg h2, sdidOperand_fits hfits]
  rfl

theorem selector_page {s : State} {rs1 rs2 : RegIdx} (h1 : rs1 ≠ 0) (h2 : rs2 ≠ 0)
    (hfits : (readReg s rs2).toNat < 2 ^ s.cfg.sdidWidth) :
    selector s rs1 rs2 = .ok (.page (readReg s rs2) (pageOf (paddrOf s.cfg (readReg s rs1)))) := by
  rw [selector, if_neg h2, sdidOperand_fits hfits]
  exact if_neg h1

/-- An address and no SDID, under a policy that gives the form an effect (D23, log entry 20). -/
theorem selector_allSd {s : State} {rs1 : RegIdx} (h1 : rs1 ≠ 0) (hpolicy : s.cfg.paAllSd ≠ .refuse) :
    selector s rs1 0 = .ok (if s.cfg.paAllSd = .everything then .all
      else .pageAll (pageOf (paddrOf s.cfg (readReg s rs1)))) := by
  rw [selector, if_pos rfl, if_neg h1]
  cases hp : s.cfg.paAllSd with
  | refuse => exact absurd hp hpolicy
  | everyDomain => rfl
  | everything => rfl

theorem selector_paddrWithoutSdid {s : State} {rs1 : RegIdx} (h1 : rs1 ≠ 0) (hpolicy : s.cfg.paAllSd = .refuse) :
    selector s rs1 0 = .error .paddrWithoutSdid := by
  rw [selector, if_pos rfl, if_neg h1, hpolicy]

theorem selector_sdidTooWide {s : State} {rs2 : RegIdx} (rs1 : RegIdx) (h2 : rs2 ≠ 0)
    (hwide : 2 ^ s.cfg.sdidWidth ≤ (readReg s rs2).toNat) : selector s rs1 rs2 = .error .sdidTooWide := by
  rw [selector, if_neg h2, sdidOperand_wide hwide]

/-! ## The two instructions with operands in M-mode -/

/-- The state after a completed fence: the record, the pc, and the end of what reset left unspecified (R16, R22, R90). -/
theorem advancePc_recordFence (sel : Selector) (t : Horizon) (s : State) :
    advancePc 4 (recordFence sel t s) = { s with hart := { s.hart with
      pc := wrapX s.cfg.xlen (s.hart.pc + 4), fences := { sel := sel, time := t } :: s.hart.fences
      resetOver := s.hart.resetOver || sel == .all } } := by
  rw [advancePc, setPc, recordFence_hart]
  rfl

section
variable {s : State} {rs1 rs2 : RegIdx} (hp : s.hart.priv = .m)
include hp

theorem exec_mfenceSpa_selected {sel : Selector} (hs : selector s rs1 rs2 = .ok sel) :
    exec (.mfenceSpa rs1 rs2) s = .next (advancePc 4 (recordFence sel (now s) s)) := by
  rw [exec, execMfenceSpa, if_neg (not_not.mpr hp), hs]

/-- A fence of everything ends what reset left unspecified (R22). -/
theorem exec_mfenceSpa_all (hs : selector s rs1 rs2 = .ok .all) :
    exec (.mfenceSpa rs1 rs2) s = .next { s with hart := { s.hart with
      pc := wrapX s.cfg.xlen (s.hart.pc + 4), fences := { sel := .all, time := now s } :: s.hart.fences
      resetOver := true } } := by
  rw [exec_mfenceSpa_selected hp hs, advancePc_recordFence, beq_self_eq_true, Bool.or_true]

/-- Any other fence leaves what reset left unspecified as it was (R22, log entry 14). -/
theorem exec_mfenceSpa_some {sel : Selector} (hs : selector s rs1 rs2 = .ok sel) (hsel : sel ≠ .all) :
    exec (.mfenceSpa rs1 rs2) s = .next { s with hart := { s.hart with
      pc := wrapX s.cfg.xlen (s.hart.pc + 4), fences := { sel := sel, time := now s } :: s.hart.fences } } := by
  rw [exec_mfenceSpa_selected hp hs, advancePc_recordFence, beq_false_of_ne hsel, Bool.or_false]

theorem exec_mfenceSpa_refused {r : Refusal} (hs : selector s rs1 rs2 = .error r) :
    exec (.mfenceSpa rs1 rs2) s = .refused r := by
  rw [exec, execMfenceSpa, if_neg (not_not.mpr hp), hs]

theorem exec_minvalSpa_refused {r : Refusal} (hv : s.cfg.hasSvinval = true) (hs : selector s rs1 rs2 = .error r) :
    exec (.minvalSpa rs1 rs2) s = .refused r := by
  rw [exec, execMinvalSpa, if_neg (by simp [hv]), if_neg (not_not.mpr hp), hs]

end

/-! ## The operand forms -/

/-- Settles O9, by the operand forms of R91: each selects its scope, and the fence of that scope is recorded. -/
theorem mfenceCompletes : Obligations.MfenceCompletes := by
  unfold Obligations.MfenceCompletes
  intro s rs1 rs2 hp
  refine ⟨?_, fun h2 hfits => ⟨?_, fun h1 => ?_⟩, fun h1 hpolicy => ?_⟩
  · exact exec_mfenceSpa_all hp (selector_zero_zero s)
  · exact exec_mfenceSpa_some hp (selector_domain h2 hfits) nofun
  · exact exec_mfenceSpa_some hp (selector_page h1 h2 hfits) nofun
  · have hs := selector_allSd h1 hpolicy
    by_cases hall : s.cfg.paAllSd = .everything
    · simp only [if_pos hall] at hs ⊢
      exact exec_mfenceSpa_all hp hs
    · simp only [if_neg hall] at hs ⊢
      exact exec_mfenceSpa_some hp hs nofun

/-- Settles O10: the two refusals are the selector's, before either instruction does anything. -/
theorem unlistedOperandsAreRefused : Obligations.UnlistedOperandsAreRefused := by
  unfold Obligations.UnlistedOperandsAreRefused
  intro s rs1 rs2 hp
  constructor
  · intro h1 hpolicy
    have hs := selector_paddrWithoutSdid h1 hpolicy
    exact ⟨exec_mfenceSpa_refused hp hs, fun hv => exec_minvalSpa_refused hp hv hs⟩
  · intro h2 hwide
    have hs := selector_sdidTooWide rs1 h2 hwide
    exact ⟨exec_mfenceSpa_refused hp hs, fun hv => exec_minvalSpa_refused hp hv hs⟩

/-! ## Below the mode an instruction needs -/

/-- The trap of an illegal instruction (R94, R103, R111): the trap value is the bits or 0, whatever is drawn. -/
theorem raiseIllegal_trap (bits : Word) (s : State) :
    ∃ tval : Word, (tval = bits ∨ tval = 0) ∧ raiseIllegal bits s = { s with
      tick := s.tick + 1
      hart := { s.hart with
        mepc := s.hart.pc, mcause := 2#64, mtval := wrapX s.cfg.xlen tval, priv := .m
        mstatus := mstatusAfterTrapM s.hart.priv s.hart.mstatus, pc := vectorBase s.hart.mtvec } } := by
  refine ⟨pick (free s [0]) bits [0], (pick_mem _ _ _).imp_right List.mem_singleton.mp, ?_⟩
  have hcause : wrapX s.cfg.xlen causeIllegal = 2#64 := wrapX_two _
  rw [raiseIllegal, trapM, hcause]
  rfl

/-- Where an instruction is one the hart has and its mode is too low, it is illegal (R94, R97, R98, R99). -/
theorem exec_below_mode {s : State} {i : Instr}
    (h : ((∃ rs1 rs2, i = .mfenceSpa rs1 rs2) ∧ s.hart.priv ≠ .m) ∨
      ((∃ rs1 rs2, i = .minvalSpa rs1 rs2) ∧ s.cfg.hasSvinval = true ∧ s.hart.priv ≠ .m) ∨
      ((i = .sfenceWInval ∨ i = .sfenceInvalIr) ∧ s.cfg.hasSvinval = true ∧ s.hart.priv = .u)) :
    exec i s = .next (raiseIllegal (instrBits s.cfg i) s) := by
  rcases h with ⟨⟨rs1, rs2, rfl⟩, hp⟩ | ⟨⟨rs1, rs2, rfl⟩, hv, hp⟩ | ⟨rfl | rfl, hv, hp⟩
  · rw [exec, execMfenceSpa, if_pos hp]
  · rw [exec, execMinvalSpa, if_neg (by simp [hv]), if_pos hp]
  · rw [exec, execSfenceWInval, if_neg (by simp [hv]), if_pos hp]
  · rw [exec, execSfenceInvalIr, if_neg (by simp [hv]), if_pos hp]

/-- Settles O11: each of the four raises illegal-instruction, and that is the trap of R111. -/
theorem fencesTrapBelowTheirMode : Obligations.FencesTrapBelowTheirMode := by
  unfold Obligations.FencesTrapBelowTheirMode
  intro s i h
  obtain ⟨tval, hvalue, htrap⟩ := raiseIllegal_trap (instrBits s.cfg i) s
  exact ⟨tval, hvalue, by rw [exec_below_mode h, htrap]⟩

end Sys2Proof.Machine
end

section
/-! PROOFS. The batched sequence (41_minval_spa.md): what each of its three instructions does where it completes, what
closing it does to the times `t0`, and that the sequence has the effect of the fences it replaces. -/

namespace Sys2Proof.Machine

/-! ## Without Svinval -/

/-- Settles O19: the parameter is looked at before the mode and the operands (R101). -/
theorem withoutSvinvalRefused : Obligations.WithoutSvinvalRefused := by
  unfold Obligations.WithoutSvinvalRefused
  intro s rs1 rs2 hv
  have habsent : (!s.cfg.hasSvinval) = true := by rw [hv]; rfl
  refine ⟨?_, ?_, ?_⟩
  · rw [exec, execMinvalSpa, if_pos habsent]
  · rw [exec, execSfenceWInval, if_pos habsent]
  · rw [exec, execSfenceInvalIr, if_pos habsent]

/-! ## The three instructions where they complete -/

section
variable {s : State} (hv : s.cfg.hasSvinval = true)
include hv

theorem exec_minvalSpa_selected {rs1 rs2 : RegIdx} {sel : Selector} (hp : s.hart.priv = .m)
    (hs : selector s rs1 rs2 = .ok sel) : exec (.minvalSpa rs1 rs2) s = .next (advancePc 4 (addPending sel s)) := by
  rw [exec, execMinvalSpa, if_neg (by simp [hv]), if_neg (not_not.mpr hp), hs]

theorem exec_sfenceWInval_completes (hp : s.hart.priv ≠ .u) :
    exec .sfenceWInval s = .next (advancePc 4 (markWInval s)) := by
  rw [exec, execSfenceWInval, if_neg (by simp [hv]), if_neg hp]

theorem exec_sfenceInvalIr_completes (hp : s.hart.priv ≠ .u) :
    exec .sfenceInvalIr s = .next (advancePc 4 (closeInvals s)) := by
  rw [exec, execSfenceInvalIr, if_neg (by simp [hv]), if_neg hp]

end

theorem closeInvals_unmarked {s : State} (h : s.hart.wInval = none) : closeInvals s = clearPending s := by
  rw [closeInvals, h]

theorem closeInvals_marked {s : State} {m : Horizon} (h : s.hart.wInval = some m) :
    closeInvals s = clearPending (recordFences (coveredInvals s.hart) m s) := by
  rw [closeInvals, h]

/-- Settles O14, by the operand forms of R91: each selects its scope, and that scope is appended to the pending ones. -/
theorem minvalCompletes : Obligations.MinvalCompletes := by
  unfold Obligations.MinvalCompletes
  intro s rs1 rs2 hp hv
  refine ⟨?_, fun h2 hfits => ⟨?_, fun h1 => ?_⟩, fun h1 hpolicy => ?_⟩
  · exact exec_minvalSpa_selected hv hp (selector_zero_zero s)
  · exact exec_minvalSpa_selected hv hp (selector_domain h2 hfits)
  · exact exec_minvalSpa_selected hv hp (selector_page h1 h2 hfits)
  · exact exec_minvalSpa_selected hv hp (selector_allSd h1 hpolicy)

/-- Settles O15: the mark and the pc are all that the instruction writes. -/
theorem sfenceWInvalCompletes : Obligations.SfenceWInvalCompletes := by
  unfold Obligations.SfenceWInvalCompletes
  intro s hv hp
  exact exec_sfenceWInval_completes hv hp

/-- Settles O16, by whether a mark stands: only then is anything recorded. -/
theorem sfenceInvalIrCompletes : Obligations.SfenceInvalIrCompletes := by
  unfold Obligations.SfenceInvalIrCompletes
  intro s hv hp
  rw [exec_sfenceInvalIr_completes hv hp]
  constructor
  · intro hmark
    rw [closeInvals_unmarked hmark]
    rfl
  · intro m hmark
    have hrecords : (coveredInvals s.hart).map (fun sel => { sel := sel, time := m : FenceRecord }) =
        (s.hart.pending.filter (fun p => p.afterMark)).map (fun p => { sel := p.sel, time := m }) := List.map_map
    rw [closeInvals_marked hmark, ← hrecords]
    rfl

/-! ## The times `t0` after SFENCE.INVAL.IR -/

/-- Settles O17: the covered invalidations become fences that all set the mark's time, in front of the earlier fences. -/
theorem invalIrSetsTheTimeOfTheMark : Obligations.InvalIrSetsTheTimeOfTheMark := by
  unfold Obligations.InvalIrSetsTheTimeOfTheMark
  intro s t m hmark h hp sdid a
  obtain ⟨-, ⟨hu, -⟩ | ⟨-, rfl⟩⟩ := execSfenceInvalIr_next h
  · exact absurd hu hp
  have hfences : (advancePc 4 (closeInvals s)).hart.fences =
      (coveredInvals s.hart).map (fun sel => { sel := sel, time := m }) ++ s.hart.fences := by
    rw [closeInvals_marked hmark]
    rfl
  rw [hfences, latestFence_append, latestFence_const]
  constructor
  · intro hcovered
    rw [if_pos hcovered]
    cases latestFence s.hart.fences sdid a with
    | none => rfl
    | some old => rfl
  · intro hnone
    rw [if_neg (by simpa using hnone)]

/-! ## The batched sequence and the fences it replaces (R100)

Both runs are followed side by side. What is kept is that closing the sequence now would give the state after the fences:
an invalidation that joins the pending ones and a fence that completes at the mark's time then come to the same. -/

/-- The state that the batched sequence is to end in: `u`, which the fences lead to, but for the pc, the pending
invalidations and the mark, which stands at the present time. -/
def fencedAndMarked (pc : Word) (u : State) : State :=
  setHart { u.hart with pc := pc, pending := [], wInval := some (now u) } u

/-- `u` is where the fences lead to, and `t` is where the sequence with the same operands stands before it is closed. -/
structure Batching (u t : State) : Prop where
  mode    : u.hart.priv = .m
  svinval : u.cfg.hasSvinval = true
  mark    : t.hart.wInval = some (now u)
  closes  : ∃ pc, closeInvals t = fencedAndMarked pc u

@[simp] theorem closeInvals_priv (s : State) : (closeInvals s).hart.priv = s.hart.priv := by
  unfold closeInvals; split <;> rfl

@[simp] theorem selector_closeInvals (s : State) (rs1 rs2 : RegIdx) :
    selector (closeInvals s) rs1 rs2 = selector s rs1 rs2 := by
  unfold closeInvals; split <;> rfl

theorem closeInvals_advancePc (len : Word) (s : State) :
    closeInvals (advancePc len s) = advancePc len (closeInvals s) := by
  cases hmark : s.hart.wInval with
  | none => rw [closeInvals_unmarked hmark, closeInvals_unmarked (s := advancePc len s) hmark]; rfl
  | some m => rw [closeInvals_marked hmark, closeInvals_marked (s := advancePc len s) hmark]; rfl

@[simp] theorem recordFences_nil (m : Horizon) (s : State) : recordFences [] m s = s := by
  simp [recordFences, setHart]

theorem recordFences_cons (sel : Selector) (sels : List Selector) (m : Horizon) (s : State) :
    recordFences (sel :: sels) m s = recordFence sel m (recordFences sels m s) := by
  have hover : (s.hart.resetOver || (sel :: sels).contains .all) =
      (s.hart.resetOver || sels.contains .all || [sel].contains .all) := by
    simp only [List.contains_cons, List.contains_nil, Bool.or_false, Bool.or_assoc, Bool.or_comm (sels.contains _)]
  rw [recordFences, hover]
  rfl

/-- After the mark, one more invalidation is one more fence at the mark's time. -/
theorem closeInvals_addPending {s : State} {m : Horizon} (hmark : s.hart.wInval = some m) (sel : Selector) :
    closeInvals (addPending sel s) = recordFence sel m (closeInvals s) := by
  have hcovered : coveredInvals (addPending sel s).hart = sel :: coveredInvals s.hart := by
    simp [coveredInvals, hmark]
  rw [closeInvals_marked hmark, closeInvals_marked (s := addPending sel s) hmark, hcovered, recordFences_cons]
  rfl

/-- Right after the mark there is nothing to close. -/
theorem closeInvals_markWInval (s : State) : closeInvals (markWInval s) = fencedAndMarked s.hart.pc s := by
  have hcovered : coveredInvals (markWInval s).hart = [] := by simp [coveredInvals]
  rw [closeInvals_marked (s := markWInval s) rfl, hcovered, recordFences_nil]
  rfl

theorem batching_markWInval {s : State} (hp : s.hart.priv = .m) (hv : s.cfg.hasSvinval = true) :
    Batching s (advancePc 4 (markWInval s)) where
  mode := hp
  svinval := hv
  mark := rfl
  closes := ⟨_, by rw [closeInvals_advancePc, closeInvals_markWInval]; rfl⟩

namespace Batching

variable {u t : State} (b : Batching u t)
include b

theorem cfg : t.cfg = u.cfg := by
  obtain ⟨pc, hclose⟩ := b.closes
  rw [← closeInvals_cfg, hclose]
  rfl

theorem priv : t.hart.priv = .m := by
  obtain ⟨pc, hclose⟩ := b.closes
  rw [← closeInvals_priv, hclose]
  exact b.mode

/-- The operands name the same scope in both runs. -/
theorem selector (rs1 rs2 : RegIdx) : Machine.selector t rs1 rs2 = Machine.selector u rs1 rs2 := by
  obtain ⟨pc, hclose⟩ := b.closes
  rw [← selector_closeInvals, hclose]
  rfl

/-- A fence in the one run and an invalidation of the same scope in the other. -/
theorem record (sel : Selector) :
    Batching (advancePc 4 (recordFence sel (now u) u)) (advancePc 4 (addPending sel t)) where
  mode := b.mode
  svinval := b.svinval
  mark := b.mark
  closes := by
    obtain ⟨pc, hclose⟩ := b.closes
    exact ⟨_, by rw [closeInvals_advancePc, closeInvals_addPending b.mark, hclose]; rfl⟩

theorem exec_minvalSpa {u' : State} {rs1 rs2 : RegIdx} (h : exec (.mfenceSpa rs1 rs2) u = .next u') :
    ∃ t', exec (.minvalSpa rs1 rs2) t = .next t' ∧ Batching u' t' := by
  obtain ⟨hlow, -⟩ | ⟨-, sel, hsel, rfl⟩ := execMfenceSpa_next h
  · exact absurd b.mode hlow
  · exact ⟨_, exec_minvalSpa_selected (b.cfg ▸ b.svinval) b.priv ((b.selector rs1 rs2).trans hsel), b.record sel⟩

theorem exec_sfenceInvalIr : ∃ pc, exec .sfenceInvalIr t = .next (fencedAndMarked pc u) := by
  obtain ⟨pc, hclose⟩ := b.closes
  exact ⟨_, by rw [exec_sfenceInvalIr_completes (b.cfg ▸ b.svinval) (by simp [b.priv]), hclose]; rfl⟩

end Batching

theorem execAll_append (is js : List Instr) (s : State) :
    execAll (is ++ js) s = andThen (execAll is s) (execAll js) := by
  induction is generalizing s with
  | nil => rfl
  | cons i is ih => rw [List.cons_append, execAll, execAll, andThen_assoc, funext ih]

/-- Where the fences complete, the invalidations with the same operands complete, and closing them gives the fences. -/
theorem execAll_minvals {ops : List (RegIdx × RegIdx)} {u u' t : State} (b : Batching u t)
    (h : execAll (fenced ops) u = .next u') :
    ∃ t', execAll (ops.map (fun o => Instr.minvalSpa o.1 o.2)) t = .next t' ∧ Batching u' t' := by
  induction ops generalizing u t with
  | nil => cases h; exact ⟨t, rfl, b⟩
  | cons o ops ih =>
    obtain ⟨u₁, hfence, hrest⟩ := andThen_next h
    obtain ⟨t₁, hinval, b₁⟩ := b.exec_minvalSpa hfence
    obtain ⟨t', hinvals, b'⟩ := ih b₁ hrest
    exact ⟨t', by rw [List.map_cons, execAll, hinval]; exact hinvals, b'⟩

/-- The batched sequence ends in the state after the fences, but for the pc and the mark, with nothing pending. -/
theorem execAll_batched {ops : List (RegIdx × RegIdx)} {s u : State} (hp : s.hart.priv = .m)
    (hv : s.cfg.hasSvinval = true) (h : execAll (fenced ops) s = .next u) :
    ∃ pc, execAll (batched ops) s = .next (fencedAndMarked pc u) := by
  obtain ⟨t, hinvals, b⟩ := execAll_minvals (batching_markWInval hp hv) h
  obtain ⟨pc, hclose⟩ := b.exec_sfenceInvalIr
  refine ⟨pc, ?_⟩
  calc execAll (batched ops) s
      = execAll (ops.map (fun o => Instr.minvalSpa o.1 o.2) ++ [.sfenceInvalIr]) (advancePc 4 (markWInval s)) := by
        rw [batched, execAll, exec_sfenceWInval_completes hv (by simp [hp])]
        rfl
    _ = execAll [.sfenceInvalIr] t := by rw [execAll_append, hinvals]; rfl
    _ = .next (fencedAndMarked pc u) := by rw [execAll, hclose]; rfl

/-- Settles O18: the two runs end in states with the same fences, and with the same memory and `mttp`. -/
theorem batchedSequenceEqualsFences : Obligations.BatchedSequenceEqualsFences := by
  unfold Obligations.BatchedSequenceEqualsFences
  intro s u ops _ hp hv h
  obtain ⟨pc, hrun⟩ := execAll_batched hp hv h
  exact ⟨_, hrun, fun _ _ => rfl, rfl, rfl, rfl, rfl, rfl, rfl⟩

end Sys2Proof.Machine
end

section
/-! PROOFS. Exceptions (60_exceptions.md): where an access-fault is taken, what a trap and MRET do to the status, what a
refused access and a refused fetch leave, and what every trap of an access leaves alone. -/

namespace Sys2Proof.Machine

/-! ## Where an access-fault is taken -/

/-- With the spec's target M-mode takes every access-fault (R106). -/
theorem trapAccessFault_machine {s : State} (h : s.cfg.faultTarget = .machine) (cause tval : Word) :
    trapAccessFault cause tval s = trapM cause tval s := by
  rw [trapAccessFault, delegated, h]
  rfl

/-- With the other target `medeleg` decides, below M-mode (R107). -/
theorem delegated_iff {s : State} (h : s.cfg.faultTarget = .medeleg) (cause : Word) :
    delegated s cause = true ↔ s.hart.priv ≠ .m ∧ s.hart.medeleg.getLsbD cause.toNat = true := by
  simp [delegated, h]

/-- Settles O47, by the target that the parameter names. -/
theorem accessFaultTarget : Obligations.AccessFaultTarget := by
  unfold Obligations.AccessFaultTarget
  intro s cause tval
  refine ⟨fun hm => trapAccessFault_machine hm cause tval, fun hd => ?_⟩
  simp only [trapAccessFault, delegated_iff hd]

/-! ## The status of a trap, and MRET -/

/-- Settles O54, bit by bit. -/
theorem trapStatusFields : Obligations.TrapStatusFields := by
  unfold Obligations.TrapStatusFields
  intro p v
  refine ⟨mpp_afterTrapM p v, mstatusAfterTrapM_getLsbD p v 7, mstatusAfterTrapM_getLsbD p v 3, fun i h3 h7 h11 h12 => ?_⟩
  rw [mstatusAfterTrapM_getLsbD, if_neg h3, if_neg h7, if_neg (by omega)]

theorem runMret_machine {s : State} (h : s.hart.priv = .m) (bits : Word) :
    runMret bits s = .next (returnM (mppMode s) (tickMpp s)) := if_neg (not_not_intro h)

/-- After a trap and MRET the interrupt enable is the one from before: the trap put it into `MPIE` (R111). -/
theorem mstatusAfterMret_afterTrapM_mie (p q : Priv) (v : Word) :
    (mstatusAfterMret q (mstatusAfterTrapM p v)).getLsbD 3 = v.getLsbD 3 :=
  (mstatusAfterMret_getLsbD q _ 3).trans (mstatusAfterTrapM_getLsbD p v 7)

/-- Settles O55: a trap leaves M-mode and the old mode in `MPP`, so MRET completes and returns there. -/
theorem mretUndoesTheTrap : Obligations.MretUndoesTheTrap := by
  unfold Obligations.MretUndoesTheTrap
  intro s cause tval bits
  constructor
  · have hmode : mppMode (trapM cause tval s) = s.hart.priv := mppMode_named (mpp_afterTrapM _ _)
    refine ⟨_, runMret_machine rfl bits, by simp, by simp [hmode], ?_, by simp, by simp, by simp⟩
    rw [returnM_hart, tickMpp_hart]
    exact mstatusAfterMret_afterTrapM_mie ..
  · intro hp
    exact ⟨_, runMret_machine hp bits, by simp, fun p hmpp => mppMode_named hmpp, by simp, by simp, by simp⟩

/-! ## What a trap of an access leaves alone -/

@[simp] theorem trapAccessFault_x (cause tval : Word) (s : State) : (trapAccessFault cause tval s).hart.x = s.hart.x := by
  unfold trapAccessFault; split <;> rfl

@[simp] theorem failedAccess_hart (start s : State) (data : List Byte) (ps : List Part) (outs : List PartOut) :
    (failedAccess start s data ps outs).hart = s.hart := (grows_failedAccess start s data ps outs).hart

/-- A trap that an access takes writes no integer register (R108). -/
theorem access_trap_x {start s t : State} {k : AccessKind} {ea va n : Nat} {data : List Byte}
    (h : access start s k ea va n data = .trap t) : t.hart.x = s.hart.x := by
  obtain ⟨p, -, -, rfl⟩ | ⟨p, -, cause, -, rfl⟩ := access_trap h <;> simp

/-- A trap that an access takes which stores nothing adds nothing to the history of memory (R108, log entry 24). -/
theorem access_trap_memPast {start s t : State} {k : AccessKind} {ea va n : Nat}
    (h : access start s k ea va n [] = .trap t) : t.memPast = start.memPast := by
  obtain ⟨p, -, -, rfl⟩ | ⟨p, -, cause, -, rfl⟩ := access_trap h <;> simp [failedAccess_nil]

/-- Settles O51: an access that traps keeps what `Keeps` says and the registers, and a fetch that traps is such an access. -/
theorem trappedAccessIsPrecise : Obligations.TrappedAccessIsPrecise := by
  unfold Obligations.TrappedAccessIsPrecise
  intro start s t
  constructor
  · intro k ea va n data h
    have kept := keeps_access_trap h
    refine ⟨access_trap_x h, kept.mttp, kept.mttpPast, kept.fences, kept.resetOver, kept.pending, kept.wInval,
      kept.others, kept.cfg, ?_⟩
    rintro rfl
    exact ⟨access_trap_mem h, access_trap_memPast h⟩
  · intro h
    obtain ⟨u, ea, va, n, grown, haccess⟩ := fetch_trap h
    exact ⟨access_trap_mem haccess, access_trap_memPast haccess, by rw [access_trap_x haccess, grown.hart]⟩

/-! ## The trap of a piece that fails -/

/-- The cause of an access-fault fits any register (R103). -/
@[simp] theorem wrapX_cause (x : Xlen) (k : AccessKind) : wrapX x k.cause = k.cause := by
  cases k with
  | fetch => exact wrapX_one x
  | load | loadReserved => exact wrapX_five x
  | store | storeConditional | amo => exact wrapX_seven x

/-- The trap value of an access-fault is one of the three that R104 allows, whatever is drawn (log entry 28). -/
theorem drawTval_cases (s : State) (ea w : Nat) :
    drawTval s ea w = BitVec.ofNat 64 ea ∨ drawTval s ea w = BitVec.ofNat 64 w ∨ drawTval s ea w = 0 :=
  (pick_mem _ _ _).imp_right List.mem_pair.mp

@[simp] theorem translatePart_va (h : Hart) (eff : Priv) (t : AccessType) (va n : Nat) :
    (translatePart h eff t va n).va = va := by
  unfold translatePart
  split
  · rfl
  · split
    · rfl
    · split <;> rfl

/-- With the spec's fault target, an access whose first piece that does not pass ends in an access-fault takes the trap of
its kind in M-mode, in a state that differs from the one it was made in by memory alone. -/
theorem access_fails_machine {s : State} {k : AccessKind} {va n w m : Nat} {eff : Priv}
    {ps : List Part} {rest : List (Nat × Nat)} (ht : s.cfg.faultTarget = .machine) (he : effectivePriv s k = eff)
    (hs : spans s.cfg va n = ps.map (fun q => (q.va, q.size)) ++ (w, m) :: rest) (hp : ∀ q ∈ ps, q.Passes s k eff)
    (hf : checkPart s eff k.type (translatePart s.hart eff k.type w m) = .accessFault)
    (start : State) (ea : Nat) (data : List Byte) :
    ∃ (tval : Word) (u : State), (tval = BitVec.ofNat 64 ea ∨ tval = BitVec.ofNat 64 w ∨ tval = 0) ∧
      access start s k ea va n data = .trap (nextTick (trapM k.cause tval u)) ∧
      Grows (takeBack start s) u ∧ u.tick = s.tick ∧
      ((ps = [] ∧ rest = []) ∨ data = [] → u = takeBack start s) := by
  obtain ⟨u, haccess, grown, htick, hmem⟩ := access_fails (start := start) (ea := ea) (data := data) he hs hp hf
    (translatePart_va ..)
  have hcfg : u.cfg = s.cfg := grown.cfg
  rw [trapAccessFault_machine (hcfg ▸ ht)] at haccess
  exact ⟨_, u, drawTval_cases s ea w, haccess, grown, htick, hmem⟩

/-- The span of a refused piece, translated, ends in an access-fault. -/
theorem Part.Refused.fails {s : State} {k : AccessKind} {eff : Priv} {p : Part} (h : p.Refused s k eff) :
    checkPart s eff k.type (translatePart s.hart eff k.type p.va p.size) = .accessFault := by
  rw [h.1.translated]
  exact h.checked

/-- Settles O45: the trap is `trapM` with the cause of the kind, in a state with the hart as it was. -/
theorem refusedAccessTraps : Obligations.RefusedAccessTraps := by
  unfold Obligations.RefusedAccessTraps
  intro start s k ea va n data eff ps p rest ht he _ hs hp hr
  obtain ⟨tval, u, hvalue, haccess, grown, htick, hmem⟩ := access_fails_machine ht he hs hp hr.fails start ea data
  refine ⟨tval, _, hvalue, haccess, ?_, grown.cfg, grown.others, grown.events, congrArg (· + 1) htick, fun h => ?_⟩
  · simp only [nextTick_hart, trapM_hart, wrapX_cause, grown.hart, grown.cfg, takeBack_hart, takeBack_cfg]
    cases k <;> rfl
  · rw [hmem h]
    exact ⟨rfl, rfl⟩

/-! ## Implicit accesses -/

/-- The implicit accesses of a piece are those of its translation (R65). -/
theorem translatePart_implicit {h : Hart} {eff : Priv} {t : AccessType} {va : Nat} {x : Translation} (he : eff ≠ .m)
    (hx : h.xlate.find? (fun x => x.vpn == va / 4096 && x.type == t) = some x) (n : Nat) :
    (translatePart h eff t va n).implicit = x.implicit := by
  unfold translatePart
  rw [if_neg he, hx]
  dsimp only
  split <;> rfl

/-- A piece one of whose implicit accesses fails ends as that one does (R102). -/
theorem checkPart_implicit_fault {s : State} {eff : Priv} {p : Part} (t : AccessType)
    (h : checkImplicits s [p.va] eff (p.implicit.filter (implicitMade s.cfg)) = .accessFault) :
    checkPart s eff t p = .accessFault := by
  rw [checkPart, h]

/-- Settles O46: the piece ends in the access-fault of its implicit access, and the access in that of its own kind. -/
theorem implicitViolationTrapsAsOriginal : Obligations.ImplicitViolationTrapsAsOriginal := by
  unfold Obligations.ImplicitViolationTrapsAsOriginal
  intro start s k ea va n w m data eff x ps rest ht he hlow hs hp hx hi
  have hfault : checkPart s eff k.type (translatePart s.hart eff k.type w m) = .accessFault :=
    checkPart_implicit_fault _ (by rwa [translatePart_va, translatePart_implicit hlow hx])
  obtain ⟨tval, u, -, haccess, grown, -, hmem⟩ := access_fails_machine ht he hs hp hfault start ea data
  refine ⟨_, haccess, wrapX_cause _ k, congrArg Hart.pc grown.hart, rfl, (congrArg Hart.x grown.hart :), fun h => ?_⟩
  rw [hmem h]
  exact ⟨rfl, rfl⟩

/-! ## The fetch -/

theorem step_fetch_trap {s t : State} (he : s.events = []) (h : fetch s = .trap t) : step s = .next t := by
  simp only [step, he, h]

/-- A fetch whose first 16 bits trap. -/
theorem fetch_trap_low {s t : State} (h : access s s .fetch s.hart.pc.toNat s.hart.pc.toNat 2 [] = .trap t) :
    fetch s = .trap t := by
  simp only [fetch, h]

/-- A fetch whose first 16 bits pass and say that there are more, which trap (log entry 10). -/
theorem fetch_trap_high {s u t : State} {qs : List Part}
    (hlow : access s s .fetch s.hart.pc.toNat s.hart.pc.toNat 2 [] = .ok qs u)
    (hlong : isLong ((readParts u.mem qs).getD 0 0) = true)
    (h : access s u .fetch s.hart.pc.toNat (wrapX s.cfg.xlen (s.hart.pc + 2)).toNat 2 [] = .trap t) :
    fetch s = .trap t := by
  simp only [fetch, hlow, hlong, if_true, h]

/-- A piece of a fetch that is refused: the trap of an instruction access-fault, with all that the instruction did before
taken back (R108, log entry 24). `u` is the state in which the refused 16 bits are fetched. -/
theorem access_fetch_refused {s u : State} {va : Nat} {ps : List Part} {p : Part} {rest : List (Nat × Nat)}
    (ht : s.cfg.faultTarget = .machine) (grown : Grows s u)
    (hs : spans s.cfg va 2 = ps.map (fun q => (q.va, q.size)) ++ (p.va, p.size) :: rest)
    (hp : ∀ q ∈ ps, q.Passes u .fetch s.hart.priv) (hr : p.Refused u .fetch s.hart.priv) :
    ∃ tval : Word, (tval = s.hart.pc ∨ tval = BitVec.ofNat 64 p.va ∨ tval = 0) ∧
      access s u .fetch s.hart.pc.toNat va 2 [] = .trap { s with
        tick := u.tick + 1
        hart := { s.hart with
          mepc := s.hart.pc, mcause := 1#64, mtval := wrapX s.cfg.xlen tval, priv := .m
          mstatus := mstatusAfterTrapM s.hart.priv s.hart.mstatus, pc := vectorBase s.hart.mtvec } } := by
  have heff : effectivePriv u .fetch = s.hart.priv := by rw [effectivePriv_fetch, grown.hart]
  obtain ⟨tval, v, hvalue, haccess, -, -, hmem⟩ := access_fails_machine (grown.cfg ▸ ht) heff (grown.cfg ▸ hs) hp
    hr.fails s s.hart.pc.toNat []
  have hback : takeBack s u = { s with tick := u.tick } := by
    rw [takeBack, grown.hart, grown.cfg, grown.others, grown.events]
  rw [BitVec.ofNat_toNat, BitVec.setWidth_eq] at hvalue
  refine ⟨tval, hvalue, ?_⟩
  rw [haccess, hmem (.inr rfl), hback, nextTick, trapM, wrapX_cause]
  rfl

/-- Settles O8: the refused 16 bits are fetched in the state itself, or in the one that the first 16 bits left. -/
theorem fetchViolationTraps : Obligations.FetchViolationTraps := by
  unfold Obligations.FetchViolationTraps
  intro s ps p rest he _ ht pc next first second s' h
  rcases h with ⟨⟨hs, hp, hr⟩, rfl⟩ | ⟨qs, hlow, hlong, hs, hp, hr⟩
  · obtain ⟨tval, hvalue, haccess⟩ := access_fetch_refused ht (Grows.refl _) hs hp hr
    exact ⟨tval, hvalue, step_fetch_trap he (fetch_trap_low haccess)⟩
  · obtain ⟨tval, hvalue, haccess⟩ := access_fetch_refused ht (access_ok_grows hlow) hs hp hr
    exact ⟨tval, hvalue, step_fetch_trap he (fetch_trap_high hlow hlong haccess)⟩

end Sys2Proof.Machine
end

section
/-! PROOFS. The decoder on the words of the pattern table (30_encoding.md section 5), under the reference parameters. -/

namespace Sys2Proof

/-- A word of the table is read as the four bytes of its instruction's encoding, which decode to it. -/
theorem decodeTableWord_encode (i : Instr) : decodeTableWord 32 (encode Config.reference i).toNat = some i := by
  have hbytes : tableBytes 32 (encode Config.reference i).toNat = encodeBytes Config.reference i ++ [] := by
    rw [tableBytes, Nat.mod_eq_of_lt (encode Config.reference i).isLt, List.append_nil, encodeBytes]
  rw [decodeTableWord, hbytes, decode_encodeBytes (by decide)]

/-- Settles O3: each of the four words is the encoding of its instruction under the reference parameters. -/
theorem sampleWordsDecode : Obligations.SampleWordsDecode := by
  unfold Obligations.SampleWordsDecode
  exact ⟨decodeTableWord_encode .sfenceWInval, decodeTableWord_encode .sfenceInvalIr,
    decodeTableWord_encode (.mfenceSpa 11 10), decodeTableWord_encode (.minvalSpa 31 1)⟩

end Sys2Proof
end
